-- ==== Sys2Proof/Word.lean ====
section
/-! DEFINITION. The words and small enumerations of the block (30_encoding R300). -/

namespace Sys2Proof

/-- A byte of the serial link (44 R700). -/
abbrev Byte := BitVec 8

/-- A frame-buffer cell, the unit of every frame-buffer access (30 R301, 20 R210). -/
abbrev Cell := BitVec 16

/-- A half of the panel (40 R400): rows 0 to 15 are `top`, rows 16 to 31 are `bottom`. -/
inductive Half where
  | top
  | bottom
deriving DecidableEq, Repr, Inhabited

/-- A colour of the codec (30 R308). Code 3 is no colour and has no constructor. -/
inductive Color where
  | red
  | green
  | blue
deriving DecidableEq, Repr, Inhabited

/-- A `RESULT` code (30 R307): 0 Fail, 1 Pass, 2 Checking, 3 reserved. -/
abbrev ResultCode := BitVec 2

/-- The ten panel lines a cell drives: `ADDR[3:0]` and, from bit 0 up, R1 G1 B1 R2 G2 B2 (30 R302). -/
structure PanelLines where
  addr : BitVec 4
  rgb : BitVec 6
deriving DecidableEq, Repr, Inhabited

end Sys2Proof
end

