-- ==== Sys2Proof/Config.lean ====
section
/-! DEFINITION. What an implementation fixes: the constants of 00_scope R12 and R13, the parameters of R14, the region
table (42 R510 to R512), and the free values the environment draws. -/

namespace Sys2Proof

/-- The source's value of `SYNC` (00_scope R13): the default of `Config.sync`, and the byte in the table's words (log
entry 30). -/
def syncByte : Byte := 0x55#8

/-- The source's value of `CMD_READY` (00_scope R13): the default of `Config.cmdReady`, and the byte in the table's words. -/
def cmdReady : Byte := 0x10#8

/-- A frame length in bytes: the framer's buffers have bytes 0 to 10 (10 R106), so a length they cannot hold is no value of
this type (log entry 30). The default field values only show that the type is inhabited. -/
structure FrameLength where
  bytes : BitVec 4 := 11#4
  fits : (decide (1 ≤ bytes.toNat) && decide (bytes.toNat ≤ 11)) = true := by decide
deriving DecidableEq, Repr, Inhabited

/-- One entry `(baseRow, baseCol, half)` of the region table (10 R141). -/
structure Region where
  half : Half
  baseRow : BitVec 5
  baseCol : BitVec 5
deriving DecidableEq, Repr, Inhabited

/-- `half(r)` (40 R400). -/
def halfOf (r : Nat) : Half := if r < 16 then .top else .bottom

/-- The cells of a region, row by row (10 R141, 42 R503): 4 rows of 3 columns. -/
def Region.cells (g : Region) : List (Nat × Nat) :=
  (List.range 4).flatMap fun i => (List.range 3).map fun j => (g.baseRow.toNat + i, g.baseCol.toNat + j)

/-- Whether `(row, col)` is a cell of the region. -/
def Region.contains (g : Region) (row col : Nat) : Bool :=
  decide (g.baseRow.toNat ≤ row ∧ row ≤ g.baseRow.toNat + 3 ∧ g.baseCol.toNat ≤ col ∧ col ≤ g.baseCol.toNat + 2)

/-- Check W1 of 42 R511: the region lies inside the 32 by 32 frame. -/
def Region.inRange (g : Region) : Bool :=
  decide (g.baseRow.toNat + 3 ≤ 31 ∧ g.baseCol.toNat + 2 ≤ 31)

/-- Check W2 of 42 R511: the four rows lie in one half. -/
def Region.oneHalf (g : Region) : Bool :=
  decide (g.baseRow.toNat ≤ 12 ∨ (16 ≤ g.baseRow.toNat ∧ g.baseRow.toNat ≤ 28))

/-- Check W3 of 42 R511: the three columns lie in one column half. -/
def Region.oneColumnHalf (g : Region) : Bool :=
  decide (g.baseCol.toNat ≤ 13 ∨ (16 ≤ g.baseCol.toNat ∧ g.baseCol.toNat ≤ 29))

/-- Check W4 of 42 R511: the `half` field is the half of the rows (90 C4). -/
def Region.halfConsistent (g : Region) : Bool := g.half == halfOf g.baseRow.toNat

/-- No cell of `g` is a cell of `h`. -/
def Region.disjoint (g h : Region) : Bool := g.cells.all fun p => !h.contains p.1 p.2

/-- Check W5 of 42 R511 over a list of regions: no cell belongs to two of them. -/
def regionsDisjoint : List Region → Bool
  | [] => true
  | g :: gs => gs.all g.disjoint && regionsDisjoint gs

/-- The checks W1 to W5 of 42 R511 on a whole table. -/
def regionsWellFormed (t : Vector Region 24) : Bool :=
  (t.toList.all fun g => g.inRange && g.oneHalf && g.oneColumnHalf && g.halfConsistent) && regionsDisjoint t.toList

/-- The entry of sensor `s` in the reference layout, by the rule that generates it (42 R512). -/
def referenceRegion (s : Nat) : Region :=
  let q := s / 6
  let k := s % 6
  let row := 16 * (q / 2) + 2 + 7 * (k / 3)
  { half := halfOf row
    baseRow := BitVec.ofNat 5 row
    baseCol := BitVec.ofNat 5 (16 * (q % 2) + 1 + 5 * (k % 3)) }

/-- `REFERENCE_LAYOUT` (42 R512): for test vectors only, not the jig's layout. -/
def referenceLayout : Vector Region 24 := Vector.ofFn fun s : Fin 24 => referenceRegion s.val

/-- The region table with its well-formedness: a table that breaks a check of 42 R511 is no value of this type, so no
block is built from it (42 R511, 60 R903). The default field values only show that the type is inhabited. -/
structure RegionTable where
  entries : Vector Region 24 := referenceLayout
  wf : regionsWellFormed entries = true := by decide
deriving DecidableEq, Repr, Inhabited

/-- The parameters of 00_scope R13 and R14 with the region table, durations in nanoseconds, frequencies in hertz, cooldowns
in ticks. Fixed for the life of the block (10 R130). -/
structure Config where
  /-- `F_SYS`, OPEN (92 D30). -/
  fSys : Nat
  /-- `T_SCLK_HIGH`. -/
  tSclkHigh : Nat := 1000
  /-- `T_SETUP`. -/
  tSetup : Nat := 1000
  /-- `T_DWELL`, exact. -/
  tDwell : Nat := 450000
  /-- `T_LAT_GAP`. -/
  tLatGap : Nat := 0
  /-- `T_OE_GAP`. -/
  tOeGap : Nat := 0
  /-- `F_SCK`. -/
  fSck : Nat := 100000
  /-- `T_CS_IDLE`, at least one `SCK` period. -/
  tCsIdle : Nat
  /-- `REGION_TABLE`, OPEN (92 D7). -/
  regionTable : RegionTable
  /-- `BLANK_BETWEEN_REFRESH`. -/
  blankBetweenRefresh : Bool := false
  /-- `RESET_BITFIELD`. -/
  resetBitfield : BitVec 24 := 0#24
  /-- `RESET_POS`. -/
  resetPos : Byte := 0#8
  /-- `RESET_COOLDOWN`. -/
  resetCooldown : BitVec 16 := 0#16
  /-- `SYNC` (R13, unaudited: 00_scope R4, 93 item 31). -/
  sync : Byte := syncByte
  /-- `CMD_READY` (R13, unaudited). -/
  cmdReady : Byte := Sys2Proof.cmdReady
  /-- `NOTIFY_LEN` (R13, unaudited). -/
  notifyLen : FrameLength := { bytes := 2#4 }
  /-- `POLL_LEN` (R13, unaudited). -/
  pollLen : FrameLength := { bytes := 11#4 }
  /-- `COOLDOWN_NOTIFY` (R13, unaudited). -/
  cooldownNotify : BitVec 16 := 500#16
  /-- `COOLDOWN_POLL` (R13, unaudited). -/
  cooldownPoll : BitVec 16 := 500#16
  /-- `TICK_PERIOD` (R13, unaudited): the tick comes from outside the block (00_scope R7), and no operation reads it. -/
  tickPeriod : Nat := 1000000
deriving DecidableEq, Repr

/-- `cycles(t) = ceil(t * F_SYS)` for `t` in nanoseconds (00_scope R15). -/
def Config.cycles (c : Config) (t : Nat) : Nat := (t * c.fSys + 999999999) / 1000000000

/-- The cycles of the link's half-period `T_HALF = 1 / (2 * F_SCK)` (44 R701, 00_scope R15). -/
def Config.halfPeriodCycles (c : Config) : Nat := (c.fSys + 2 * c.fSck - 1) / (2 * c.fSck)

/-- The width `W` of `WAIT_CNT`: `ceil(log2(cycles(T_DWELL) + 1))`, widened to cover the half-period where `F_SCK` is so
slow that it is the longer hold (10 R131). -/
def Config.waitWidth (c : Config) : Nat := Nat.clog 2 (max (c.cycles c.tDwell) c.halfPeriodCycles + 1)

/-- The bound of the cooldown counters: `max(COOLDOWN_NOTIFY, COOLDOWN_POLL)` (10 R104). -/
def Config.maxCooldown (c : Config) : Nat := max c.cooldownNotify.toNat c.cooldownPoll.toNat

/-- The minima 00_scope R14 puts on the parameters: the clocks run, `T_SCLK_HIGH` and `T_SETUP` are at least 1 µs, the
dwell is 450 µs, `T_CS_IDLE` is at least one `SCK` period, and a counter's reset value is one it may hold (10 R104). -/
def Config.wellFormed (c : Config) : Bool :=
  decide (0 < c.fSys) && decide (0 < c.fSck) && decide (1000 ≤ c.tSclkHigh) && decide (1000 ≤ c.tSetup)
    && decide (c.tDwell = 450000) && decide (1000000000 ≤ c.tCsIdle * c.fSck) && decide (c.resetCooldown.toNat ≤ c.maxCooldown)

/-- OPEN: one less than the frequency of `CLK_SYS` in hertz (92 D30). -/
opaque Config.openFSys : Nat

/-- OPEN: the region table of the jig (92 D7). Only its well-formedness is known. -/
opaque Config.openRegionTable : RegionTable

/-- OPEN: by how many nanoseconds `T_CS_IDLE` exceeds one period of the default `SCK` (00_scope R14). -/
opaque Config.openCsIdleExtra : Nat

/-- The configuration of the block after reset: the defaults 00_scope R14 names, and opaque constants for what it leaves
OPEN. DESIGN CHOICE, log entries 10 and 11. -/
def Config.implementation : Config where
  fSys := Config.openFSys + 1
  tCsIdle := 10000 + Config.openCsIdleExtra
  regionTable := Config.openRegionTable

/-- Who takes the next step (00_scope R9, 45 R806, 60 R921): a reset, which may cut the operation it interrupts short
after `cut` of its trace events; the tick handler alone; the sequencer; or the sequencer with a `TICK` strobe in the
same `CLK_SYS` cycle. Log entries 5, 6 and 7. -/
inductive Turn where
  | reset (cut : Nat)
  | tick
  | sequencer
  | sequencerWithTick
deriving DecidableEq, Repr, Inhabited

/-- Free value: the turn the environment gives when its queue is empty (93 item 23). -/
opaque Config.freeTurn : Nat → Turn

/-- Free value: the button levels at a SELECT when the queue is empty (93 item 21). -/
opaque Config.freeButtons : Nat → BitVec 4

/-- Free value: a bit on `MISO` when the queue is empty (44 R742, 93 item 19). -/
opaque Config.freeMiso : Nat → Bool

/-- Free value: what the external panel shows at a physical row and chain position once its clock timing has been broken
(43 R642; log entry 24). -/
opaque Config.freePixel : Nat → Nat → BitVec 3

end Sys2Proof
end

