-- ==== Sys2Proof/Syntax.lean ====
section
/-! DEFINITION. The operations of the block, one constructor per row of spec/opcode_table.json (00_scope R6, 30 R335). -/

namespace Sys2Proof

/-- An operation with its operands. Row and column operands that the spec checks are 8 bits wide, so that the range
faults of 60 R901 can be raised (log entry 16); every other operand has the width of its encoding. -/
inductive Instr where
  /-- A legal cell (30 R310); `a` is its row-address field. -/
  | cellRedTop (a : BitVec 4)
  | cellGreenTop (a : BitVec 4)
  | cellBlueTop (a : BitVec 4)
  | cellRedBot (a : BitVec 4)
  | cellGreenBot (a : BitVec 4)
  | cellBlueBot (a : BitVec 4)
  /-- The notify frame (30 R303) with its button mask. -/
  | frameNotify (mask : BitVec 4)
  /-- The poll request frame (30 R304). -/
  | framePollReq
  /-- An accepted poll response (30 R305): bytes 0 to 3, check-state, bitfield bytes 7, 8, 9, active position. -/
  | framePollRsp (ignored : BitVec 32) (check hi mid lo pos : Byte)
  /-- 70 R1002. -/
  | init
  /-- 44 R720. -/
  | select
  /-- 44 R730. -/
  | notifySend
  /-- 44 R735. -/
  | pollExchange
  /-- 42 R504. -/
  | mapAll
  /-- 43 R601. -/
  | scanRefresh
  /-- 60 R910. -/
  | halt
  /-- 43 R602. -/
  | rowBegin
  /-- 43 R603, first sub-step. -/
  | shiftSetup
  /-- 43 R603, second sub-step. -/
  | shiftHigh
  /-- 43 R604. -/
  | rowCommit
  /-- 43 R605. -/
  | rowDwell
  /-- 43 R603, both sub-steps. -/
  | shiftCell
  /-- 43 R606. -/
  | refreshEnd
  /-- 45 R801. -/
  | cycle
  /-- 70 R1000. -/
  | reset
  /-- 44 R710. -/
  | tick
  /-- 44 R740; the frame length. -/
  | xfer (n : BitVec 4)
  /-- 44 R741; the byte index. -/
  | xferByte (k : BitVec 4)
  /-- 44 R743; the bit index. -/
  | xferBit (b : BitVec 3)
  /-- 44 R750. -/
  | pollAccept
  /-- 40 R410. -/
  | rowAddr (row : BitVec 8)
  /-- 40 R420. -/
  | encodeIdle (row : BitVec 8)
  /-- 40 R421. -/
  | encodeResult (row : BitVec 8) (half : Half) (color : Color)
  /-- 40 R424. -/
  | decodeCell (cell : Cell)
  /-- 41 R450. -/
  | fbSet (row col : BitVec 8) (cell : Cell)
  /-- 41 R451. -/
  | fbRead (row col : BitVec 5)
  /-- 41 R452. -/
  | fbResetToIdle
  /-- 42 R501. -/
  | resultOf (bits : BitVec 24) (sensor : BitVec 5)
  /-- 42 R502. -/
  | colorOf (result : ResultCode) (sensor : BitVec 5) (pos : Byte)
  /-- 42 R503. -/
  | mapApply (sensor : BitVec 5) (result : ResultCode) (pos : Byte)
deriving DecidableEq, Repr

end Sys2Proof
end

