-- ==== Sys2Proof/WellFormed.lean ====
section
/-! DEFINITION. The operands each operation's encoding admits. The checks on the configuration, W1 to W5 of 42 R511 and the
minima of 00_scope R14, stand with the types they check, in Config.lean. -/

namespace Sys2Proof

/-- An operation whose operands its encoding can hold and its rule admits: a notify mask is never 0 (30 R303), row and
column operands are 5 bits (40 R410, 41 R450), a frame has 2 or 11 bytes (44 R740), a buffer has bytes 0 to 10 (20 R200). -/
def Instr.wellFormed : Instr → Bool
  | .cellRedTop _ => true
  | .cellGreenTop _ => true
  | .cellBlueTop _ => true
  | .cellRedBot _ => true
  | .cellGreenBot _ => true
  | .cellBlueBot _ => true
  | .frameNotify m => m != 0#4
  | .framePollReq => true
  | .framePollRsp _ _ _ _ _ _ => true
  | .init => true
  | .select => true
  | .notifySend => true
  | .pollExchange => true
  | .mapAll => true
  | .scanRefresh => true
  | .halt => true
  | .rowBegin => true
  | .shiftSetup => true
  | .shiftHigh => true
  | .rowCommit => true
  | .rowDwell => true
  | .shiftCell => true
  | .refreshEnd => true
  | .cycle => true
  | .reset => true
  | .tick => true
  | .xfer n => n == 2#4 || n == 11#4
  | .xferByte k => decide (k.toNat ≤ 10)
  | .xferBit _ => true
  | .pollAccept => true
  | .rowAddr r => decide (r.toNat ≤ 31)
  | .encodeIdle r => decide (r.toNat ≤ 31)
  | .encodeResult r _ _ => decide (r.toNat ≤ 31)
  | .decodeCell _ => true
  | .fbSet r c _ => decide (r.toNat ≤ 31) && decide (c.toNat ≤ 31)
  | .fbRead _ _ => true
  | .fbResetToIdle => true
  | .resultOf _ _ => true
  | .colorOf _ _ _ => true
  | .mapApply _ _ _ => true

end Sys2Proof
end

