-- ==== Sys2Proof/Decode.lean ====
section
/-! DEFINITION. The encodings of spec/opcode_table.json, read and written: operation words, the decoder, the encoder, and
the host's view of a table word. -/

namespace Sys2Proof

/-- Where an operation's bits are presented: the table's format, and within it the unit whose operation they are. The
table gives combinational, memory and link rows no bits that tell one row from another, and its composite rows (30 R336)
share their sequencer words with the sub-steps: the lane tells them apart. DESIGN CHOICE, log entry 3. -/
inductive Lane where
  /-- A 16-bit cell word (30 R301). -/
  | cell
  /-- A 2-byte frame (30 R303). -/
  | frame16
  /-- An 11-byte frame (30 R304, R305), byte 0 uppermost. -/
  | frame88
  /-- The sequencer word `PHASE ++ SCAN_STEP` (30 R330, R331). -/
  | sequencer
  /-- The sequencer word read as a whole refresh, as one shifted cell, as the end of a refresh, as a whole cycle (30 R336). -/
  | refresh
  | shift
  | refreshEnd
  | cycle
  /-- The input ports `RST` and `TICK` (00_scope R10). -/
  | portRst
  | portTick
  /-- The framer's position registers `LINK_LEN`, `LINK_BYTE`, `LINK_BIT`. -/
  | linkLen
  | linkByte
  | linkBit
  /-- Response bytes 4 and 5, byte 4 uppermost (44 R750). -/
  | rspHeader
  /-- The combinational units of the codec and the mapper. -/
  | rowAddr
  | encodeIdle
  | encodeResult
  | decodeCell
  | resultOf
  | colorOf
  /-- The frame-buffer ports. -/
  | fbSet
  | fbRead
  | fbReset
  | mapApply
deriving DecidableEq, Repr

/-- An operation word: a lane and the bits on it, the longest being an 11-byte frame. -/
structure OpWord where
  lane : Lane
  bits : BitVec 88
deriving DecidableEq, Repr

/-- Why a word is no operation. -/
inductive DecodeError where
  /-- Bits are set above the lane's width. -/
  | strayBits
  /-- A 16-bit word that is none of the six legal cells (30 R310). -/
  | notACell
  /-- Frame bytes that are no frame of 30 R303 to R305. -/
  | notAFrame
  /-- `PHASE` = 0b110 (30 R330). -/
  | reservedPhase
  /-- `SCAN_STEP` 5 to 7 in the `SCAN` phase (30 R331). -/
  | reservedScanStep
  /-- A sequencer word that is not of the composite operation's pattern. -/
  | notThePhase
  /-- `RST` or `TICK` at 0: nothing is triggered. -/
  | portLow
  /-- A frame length other than 2 and 11 (44 R740). -/
  | frameLength
  /-- A byte index above 10 (20 R200). -/
  | byteIndex
  /-- Response bytes 4 and 5 that are not the accepted header (44 R750). -/
  | notTheHeader
  /-- `COLOR` code 3 (30 R308). -/
  | colorCode
deriving DecidableEq, Repr

/-- The number of bits a lane has (spec/opcode_table.json). -/
def Lane.width : Lane → Nat
  | .cell => 16
  | .frame16 => 16
  | .frame88 => 88
  | .sequencer => 6
  | .refresh => 6
  | .shift => 6
  | .refreshEnd => 6
  | .cycle => 6
  | .portRst => 1
  | .portTick => 1
  | .linkLen => 4
  | .linkByte => 4
  | .linkBit => 3
  | .rspHeader => 16
  | .rowAddr => 5
  | .encodeIdle => 5
  | .encodeResult => 8
  | .decodeCell => 16
  | .resultOf => 29
  | .colorOf => 15
  | .fbSet => 26
  | .fbRead => 10
  | .fbReset => 0
  | .mapApply => 15

/-- The six legal cells by their bits 15:4 (30 R310). -/
def decodeLegalCell (w : BitVec 16) : Except DecodeError Instr :=
  let a := w.extractLsb' 0 4
  let top := (w.extractLsb' 4 12).toNat
  if top = 0x001 then .ok (.cellRedTop a)
  else if top = 0x002 then .ok (.cellGreenTop a)
  else if top = 0x004 then .ok (.cellBlueTop a)
  else if top = 0x008 then .ok (.cellRedBot a)
  else if top = 0x010 then .ok (.cellGreenBot a)
  else if top = 0x020 then .ok (.cellBlueBot a)
  else .error .notACell

/-- The notify frame `01010101 0000mmmm` (30 R303). A mask of 0 decodes, and is not well formed (log entry 25). -/
def decodeFrame16 (w : BitVec 16) : Except DecodeError Instr :=
  if w.extractLsb' 4 12 = (syncByte ++ 0#4 : BitVec 12) then .ok (.frameNotify (w.extractLsb' 0 4)) else .error .notAFrame

/-- The 11-byte frames (30 R304, R305): the request, or a response with the accepted header in bytes 4 and 5. -/
def decodeFrame88 (w : BitVec 88) : Except DecodeError Instr :=
  if w = (syncByte ++ cmdReady ++ 0#72 : BitVec 88) then .ok .framePollReq
  else if w.extractLsb' 40 16 = (syncByte ++ cmdReady : BitVec 16) then
    .ok (.framePollRsp (w.extractLsb' 56 32) (w.extractLsb' 32 8) (w.extractLsb' 24 8) (w.extractLsb' 16 8)
      (w.extractLsb' 8 8) (w.extractLsb' 0 8))
  else .error .notAFrame

/-- The steps of the `SCAN` phase (30 R331). -/
def decodeScanStep (step : BitVec 3) : Except DecodeError Instr :=
  match step.toNat with
  | 0 => .ok .rowBegin
  | 1 => .ok .shiftSetup
  | 2 => .ok .shiftHigh
  | 3 => .ok .rowCommit
  | 4 => .ok .rowDwell
  | _ => .error .reservedScanStep

/-- The sequencer word: `PHASE` selects the operation, and in `SCAN` the scan step does (30 R330, R331). `SCAN_STEP` is
a don't-care outside `SCAN` (spec/opcode_table.json, log entry 22). -/
def decodeSequencer (phase step : BitVec 3) : Except DecodeError Instr :=
  match phase.toNat with
  | 0 => .ok .init
  | 1 => .ok .select
  | 2 => .ok .notifySend
  | 3 => .ok .pollExchange
  | 4 => .ok .mapAll
  | 5 => decodeScanStep step
  | 6 => .error .reservedPhase
  | _ => .ok .halt

/-- `ENCODE_RESULT`'s operands `rrrrr h cc` (spec/opcode_table.json; 30 R308 leaves colour code 3 out). -/
def decodeEncodeResult (w : BitVec 8) : Except DecodeError Instr :=
  let row := (w.extractLsb' 3 5).setWidth 8
  let half := if w.getLsbD 2 then Half.bottom else Half.top
  match (w.extractLsb' 0 2).toNat with
  | 0 => .ok (.encodeResult row half .red)
  | 1 => .ok (.encodeResult row half .green)
  | 2 => .ok (.encodeResult row half .blue)
  | _ => .error .colorCode

/-- The operation on a lane whose bits fit the lane's width. -/
def decodeLane (lane : Lane) (w : BitVec 88) : Except DecodeError Instr :=
  match lane with
  | .cell => decodeLegalCell (w.extractLsb' 0 16)
  | .frame16 => decodeFrame16 (w.extractLsb' 0 16)
  | .frame88 => decodeFrame88 w
  | .sequencer => decodeSequencer (w.extractLsb' 3 3) (w.extractLsb' 0 3)
  | .refresh => if w.extractLsb' 3 3 = 0b101#3 then .ok .scanRefresh else .error .notThePhase
  | .shift => if w.extractLsb' 1 5 = 0b10100#5 then .ok .shiftCell else .error .notThePhase
  | .refreshEnd => if w.extractLsb' 0 6 = 0b101100#6 then .ok .refreshEnd else .error .notThePhase
  | .cycle => if w.extractLsb' 3 3 = 0b001#3 then .ok .cycle else .error .notThePhase
  | .portRst => if w.getLsbD 0 then .ok .reset else .error .portLow
  | .portTick => if w.getLsbD 0 then .ok .tick else .error .portLow
  | .linkLen =>
    let n : BitVec 4 := w.extractLsb' 0 4
    if n = 2#4 ∨ n = 11#4 then .ok (.xfer n) else .error .frameLength
  | .linkByte =>
    let k : BitVec 4 := w.extractLsb' 0 4
    if k.toNat ≤ 10 then .ok (.xferByte k) else .error .byteIndex
  | .linkBit => .ok (.xferBit (w.extractLsb' 0 3))
  | .rspHeader => if w.extractLsb' 0 16 = (syncByte ++ cmdReady : BitVec 16) then .ok .pollAccept else .error .notTheHeader
  | .rowAddr => .ok (.rowAddr ((w.extractLsb' 0 5).setWidth 8))
  | .encodeIdle => .ok (.encodeIdle ((w.extractLsb' 0 5).setWidth 8))
  | .encodeResult => decodeEncodeResult (w.extractLsb' 0 8)
  | .decodeCell => .ok (.decodeCell (w.extractLsb' 0 16))
  | .resultOf => .ok (.resultOf (w.extractLsb' 5 24) (w.extractLsb' 0 5))
  | .colorOf => .ok (.colorOf (w.extractLsb' 13 2) (w.extractLsb' 8 5) (w.extractLsb' 0 8))
  | .fbSet => .ok (.fbSet ((w.extractLsb' 21 5).setWidth 8) ((w.extractLsb' 16 5).setWidth 8) (w.extractLsb' 0 16))
  | .fbRead => .ok (.fbRead (w.extractLsb' 5 5) (w.extractLsb' 0 5))
  | .fbReset => .ok .fbResetToIdle
  | .mapApply => .ok (.mapApply (w.extractLsb' 10 5) (w.extractLsb' 8 2) (w.extractLsb' 0 8))

/-- The decoder: total, and a word that is no operation is rejected by name (30 R320). -/
def decode (w : OpWord) : Except DecodeError Instr :=
  if w.bits.toNat < 2 ^ w.lane.width then decodeLane w.lane w.bits else .error .strayBits

/-- The code of a colour (30 R308). -/
def colorBits : Color → BitVec 2
  | .red => 0#2
  | .green => 1#2
  | .blue => 2#2

/-- The code of a half (30 R308). -/
def halfBit : Half → BitVec 1
  | .top => 0#1
  | .bottom => 1#1

/-- A word of `n` bits on a lane. -/
def opWord {n : Nat} (lane : Lane) (w : BitVec n) : OpWord := { lane := lane, bits := w.setWidth 88 }

/-- The encoder, from the encodings of spec/opcode_table.json; don't-care bits are written 0. -/
def encode : Instr → OpWord
  | .cellRedTop a => opWord .cell (0x001#12 ++ a)
  | .cellGreenTop a => opWord .cell (0x002#12 ++ a)
  | .cellBlueTop a => opWord .cell (0x004#12 ++ a)
  | .cellRedBot a => opWord .cell (0x008#12 ++ a)
  | .cellGreenBot a => opWord .cell (0x010#12 ++ a)
  | .cellBlueBot a => opWord .cell (0x020#12 ++ a)
  | .frameNotify m => opWord .frame16 (syncByte ++ 0#4 ++ m)
  | .framePollReq => opWord .frame88 (syncByte ++ cmdReady ++ 0#72)
  | .framePollRsp x c h m l p => opWord .frame88 (x ++ syncByte ++ cmdReady ++ c ++ h ++ m ++ l ++ p)
  | .init => opWord .sequencer 0b000000#6
  | .select => opWord .sequencer 0b001000#6
  | .notifySend => opWord .sequencer 0b010000#6
  | .pollExchange => opWord .sequencer 0b011000#6
  | .mapAll => opWord .sequencer 0b100000#6
  | .scanRefresh => opWord .refresh 0b101000#6
  | .halt => opWord .sequencer 0b111000#6
  | .rowBegin => opWord .sequencer 0b101000#6
  | .shiftSetup => opWord .sequencer 0b101001#6
  | .shiftHigh => opWord .sequencer 0b101010#6
  | .rowCommit => opWord .sequencer 0b101011#6
  | .rowDwell => opWord .sequencer 0b101100#6
  | .shiftCell => opWord .shift 0b101000#6
  | .refreshEnd => opWord .refreshEnd 0b101100#6
  | .cycle => opWord .cycle 0b001000#6
  | .reset => opWord .portRst 1#1
  | .tick => opWord .portTick 1#1
  | .xfer n => opWord .linkLen n
  | .xferByte k => opWord .linkByte k
  | .xferBit b => opWord .linkBit b
  | .pollAccept => opWord .rspHeader (syncByte ++ cmdReady)
  | .rowAddr r => opWord .rowAddr (r.setWidth 5)
  | .encodeIdle r => opWord .encodeIdle (r.setWidth 5)
  | .encodeResult r h c => opWord .encodeResult (r.setWidth 5 ++ halfBit h ++ colorBits c)
  | .decodeCell w => opWord .decodeCell w
  | .fbSet r c d => opWord .fbSet (r.setWidth 5 ++ c.setWidth 5 ++ d)
  | .fbRead r c => opWord .fbRead (r ++ c)
  | .fbResetToIdle => opWord .fbReset 0#0
  | .resultOf b s => opWord .resultOf (b ++ s)
  | .colorOf t s p => opWord .colorOf (t ++ s ++ p)
  | .mapApply s t p => opWord .mapApply (s ++ t ++ p)

/-- Whether a decoded word is an operation. -/
def isOperation (w : OpWord) : Bool :=
  match decode w with
  | .ok _ => true
  | .error _ => false

/-- The lane on which a table word of `nbits` bits is read. The table's rows overlap: an 8-bit 1 is `RST`, which wins over
`TICK` (60 R921); other 8-bit words are sequencer words; a 16-bit word is a cell, else a notify frame, else the accepted
header, else any cell given to `DECODE_CELL`; 88 bits are a frame; a row of no bits is `FB_RESET_TO_IDLE`; 32 bits are
`FB_SET`. Log entry 3. -/
def tableLane (nbits w : Nat) : Lane :=
  let b := BitVec.ofNat 88 w
  if nbits = 0 then .fbReset
  else if nbits ≤ 8 then (if w = 1 then .portRst else .sequencer)
  else if nbits ≤ 16 then
    (if isOperation ⟨.cell, b⟩ then .cell
    else if isOperation ⟨.frame16, b⟩ then .frame16
    else if b.extractLsb' 0 16 = (syncByte ++ cmdReady : BitVec 16) then .rspHeader
    else .decodeCell)
  else if nbits ≤ 32 then .fbSet
  else .frame88

/-- The operation word of a table word, numbered as the table numbers its bits. -/
def tableWord (nbits w : Nat) : OpWord := { lane := tableLane nbits w, bits := BitVec.ofNat 88 w }

/-- The instruction the decoder reads from a table word; a number that `nbits` bits cannot hold is none. -/
def decodeTableWord (nbits w : Nat) : Option Instr :=
  if w < 2 ^ nbits then
    match decode (tableWord nbits w) with
    | .ok i => some i
    | .error _ => none
  else none

end Sys2Proof
end

