-- ==== Sys2Proof/Machine/Operands.lean ====
section
/-! DEFINITION. The operand forms and the combinational logic: the cell codec (40), the sensor decisions (42 R501, R502),
the position codes (30 R330, R331), the fault codes (60 R901), and the assembly of words and frames (30). -/

namespace Sys2Proof.Machine

/-- Phase codes (30 R330). -/
def phaseInit : BitVec 3 := 0#3
def phaseSelect : BitVec 3 := 1#3
def phaseNotify : BitVec 3 := 2#3
def phasePoll : BitVec 3 := 3#3
def phaseMap : BitVec 3 := 4#3
def phaseScan : BitVec 3 := 5#3
def phaseReserved : BitVec 3 := 6#3
def phaseHalt : BitVec 3 := 7#3

/-- Scan-step codes (30 R331). -/
def stepRowBegin : BitVec 3 := 0#3
def stepShiftSetup : BitVec 3 := 1#3
def stepShiftHigh : BitVec 3 := 2#3
def stepRowCommit : BitVec 3 := 3#3
def stepRowDwell : BitVec 3 := 4#3

/-- Whether a scan-step code is one of the reserved codes 5 to 7 (30 R331). -/
def scanStepReserved (step : BitVec 3) : Bool := decide (5 ≤ step.toNat)

/-- Fault codes (60 R901). -/
def faultNone : BitVec 4 := 0#4
def faultRowRange : BitVec 4 := 1#4
def faultColRange : BitVec 4 := 2#4
def faultSensorRange : BitVec 4 := 3#4
def faultReservedState : BitVec 4 := 4#4

/-- Result codes (30 R307). -/
def resultFail : ResultCode := 0#2
def resultPass : ResultCode := 1#2
def resultChecking : ResultCode := 2#2

/-- `ROM_ROW[r] = r mod 16` (10 R140). -/
def romRow (r : Nat) : BitVec 4 := BitVec.ofNat 4 (r % 16)

/-- `code(c)` (40 R401). -/
def colorCode : Color → Nat
  | .red => 0
  | .green => 1
  | .blue => 2

/-- `colour_bit(h, c)` (40 R401, 30 R309). -/
def colourBit (h : Half) (c : Color) : Nat :=
  4 + 3 * (match h with
    | .top => 0
    | .bottom => 1) + colorCode c

/-- A cell from its address field and its colour (30 R309): the address bits OR'd with one colour bit. -/
def cellOf (a : BitVec 4) (h : Half) (c : Color) : Cell := a.setWidth 16 ||| (1#16 <<< colourBit h c)

/-- The result cell of a row in range (40 R421). -/
def resultCell (r : Nat) (h : Half) (c : Color) : Cell := cellOf (romRow r) h c

/-- The idle cell of a row in range (40 R420). -/
def idleCell (r : Nat) : Cell := resultCell r (halfOf r) .blue

/-- `ROW_ADDR(r)` with its range check (40 R410); the error is the fault code raised. -/
def rowAddrOf (r : Nat) : Except (BitVec 4) (BitVec 4) :=
  if 31 < r then .error faultRowRange else .ok (romRow r)

/-- `ENCODE_IDLE(r)` (40 R420). -/
def encodeIdleOf (r : Nat) : Except (BitVec 4) Cell :=
  match rowAddrOf r with
  | .ok a => .ok (cellOf a (halfOf r) .blue)
  | .error e => .error e

/-- `ENCODE_RESULT(r, h, c)` (40 R421): the half is not checked against the row. -/
def encodeResultOf (r : Nat) (h : Half) (c : Color) : Except (BitVec 4) Cell :=
  match rowAddrOf r with
  | .ok a => .ok (cellOf a h c)
  | .error e => .error e

/-- `DECODE_CELL(cell)` (40 R424, 30 R302): the reserved bits 15:10 are dropped. -/
def decodeCellOf (w : Cell) : PanelLines := { addr := w.extractLsb' 0 4, rgb := w.extractLsb' 4 6 }

/-- The index of the cell of `(row, col)` (20 R201). -/
def cellIndex (row col : Nat) : Nat := row * 32 + col

/-- `RESULT_OF(bits, s)` for a sensor in range (42 R501). -/
def sensorResult (bits : BitVec 24) (s : Nat) : ResultCode :=
  if bits.getLsbD s then resultPass else resultFail

/-- The sensor is reached: `zext_8(s) <= p`, unsigned (42 R502). -/
def reached (s : BitVec 5) (p : Byte) : Bool := decide (s.toNat ≤ p.toNat)

/-- `COLOR_OF(result, s, p)` (42 R502). -/
def colorOfResult (result : ResultCode) (s : BitVec 5) (p : Byte) : Color :=
  if result = resultFail ∧ reached s p = true then .red
  else if result = resultPass ∧ reached s p = true then .green
  else .blue

/-- A region-table entry packed as a u11 (30 R308): bit 10 the half, bits 9:5 the base row, bits 4:0 the base column. -/
def packRegion (g : Region) : BitVec 11 := halfBit g.half ++ g.baseRow ++ g.baseCol

/-- The response bitfield, big-endian (30 R306). -/
def bitfieldOf (hi mid lo : Byte) : BitVec 24 := hi ++ mid ++ lo

/-- The bytes of a notify frame (30 R303). -/
def notifyBytes (c : Config) (mask : BitVec 4) : List Byte := [c.sync, mask.setWidth 8]

/-- The bytes of a poll request (30 R304). -/
def pollRequestBytes (c : Config) : List Byte := [c.sync, c.cmdReady, 0#8, 0#8, 0#8, 0#8, 0#8, 0#8, 0#8, 0#8, 0#8]

/-- The bytes of an accepted response (30 R305). -/
def pollResponseBytes (c : Config) (ignored : BitVec 32) (check hi mid lo pos : Byte) : List Byte :=
  [ignored.extractLsb' 24 8, ignored.extractLsb' 16 8, ignored.extractLsb' 8 8, ignored.extractLsb' 0 8,
    c.sync, c.cmdReady, check, hi, mid, lo, pos]

/-- The framer's buffers (10 R106): bytes 0 to 10. -/
abbrev FrameBuf := Vector Byte 11

/-- Byte `k` of a buffer; the callers keep `k` at most 10. -/
def FrameBuf.byte (b : FrameBuf) (k : Nat) : Byte := b[k]?.getD 0#8

/-- A buffer with byte `k` replaced; the callers keep `k` at most 10. -/
def FrameBuf.put (b : FrameBuf) (k : Nat) (v : Byte) : FrameBuf := b.setIfInBounds k v

/-- A buffer with its first bytes replaced by a list, from byte `k` up. -/
def FrameBuf.fill (b : FrameBuf) (k : Nat) : List Byte → FrameBuf
  | [] => b
  | v :: vs => FrameBuf.fill (FrameBuf.put b k v) (k + 1) vs

/-- A saturating decrement (44 R710). -/
def countDown (v : BitVec 16) : BitVec 16 := if 0 < v.toNat then v - 1#16 else 0#16

end Sys2Proof.Machine
end

