-- ==== Sys2Proof/Machine/Memory.lean ====
section
/-! DEFINITION. The frame buffer as data: a list of (cell index, cell) in one canonical form (20 R200, R201). The unit is a
whole cell (20 R210), log entry 9. -/

namespace Sys2Proof.Machine

/-- The frame buffer: the cells that differ from what an unlisted index reads as, by rising index. -/
abbrev Memory := List (Nat × Cell)

/-- What an unlisted index reads as: the idle pattern, the reset contents of 10 R100 and R150 (log entry 8). -/
def Memory.unlisted (a : Nat) : Cell := idleCell (a / 32)

/-- The cell at an index. -/
def Memory.read : Memory → Nat → Cell
  | [], a => Memory.unlisted a
  | (b, w) :: m, a => if a = b then w else Memory.read m a

/-- The buffer with the cell at one index replaced; writing what an unlisted index reads as removes the entry. -/
def Memory.write : Memory → Nat → Cell → Memory
  | [], a, v => if v = Memory.unlisted a then [] else [(a, v)]
  | (b, w) :: m, a, v =>
    if a < b then (if v = Memory.unlisted a then (b, w) :: m else (a, v) :: (b, w) :: m)
    else if a = b then (if v = Memory.unlisted a then m else (a, v) :: m)
    else (b, w) :: Memory.write m a v

/-- Every listed index is at least `lo` and rises strictly, is below 1024, and its cell is not what an unlisted index
reads as. -/
def Memory.wfFrom (lo : Nat) : Memory → Bool
  | [] => true
  | (a, v) :: m => decide (lo ≤ a) && decide (a < 1024) && (v != Memory.unlisted a) && Memory.wfFrom (a + 1) m

/-- The canonical form. -/
def Memory.wf (m : Memory) : Bool := Memory.wfFrom 0 m

end Sys2Proof.Machine
end

