-- ==== Sys2Proof/Machine/State.lean ====
section
/-! DEFINITION. The state of the block (10 R100) with the model's own fields, the reasons a step can stop, and reset. -/

namespace Sys2Proof.Machine

/-- The machine stops: an access to a place the spec says does not exist. Safe, and no operation the sequencer runs
reaches one. The block's own faults (60 R901) are no stop: they enter HALT, a next state (60 R910). -/
inductive Fault where
  /-- Raised by the frame-buffer write port at an index outside 0 to 1023 (20 R200). Safe. -/
  | noSuchCell
  /-- Raised by XFER_BYTE and XFER_BIT at a buffer index above 10 (20 R200). Safe. -/
  | noSuchByte
deriving DecidableEq, Repr

/-- The model has no meaning for what is presented. -/
inductive Refusal where
  /-- An instruction that has no meaning yet. Raised by `exec` only. Safe. -/
  | notModelled (mnemonic : String)
  /-- Raised by `step`: the requested word is no operation (30 R320). Safe. -/
  | undecodable (why : DecodeError)
  /-- Raised by XFER: a frame length other than 2 and 11, which the spec says cannot occur (20 R211, 44 R740). Safe. -/
  | frameLength
  /-- Raised by the frame-buffer write port: a write of part of a cell, which a model refuses by name (20 R210). Safe. -/
  | partialCell
deriving DecidableEq, Repr

/-- A hold of the trace (00_scope R11, R17): a number of `CLK_SYS` cycles, a minimum unless `exact`. -/
structure Hold where
  cycles : Nat
  exact : Bool
deriving DecidableEq, Repr

/-- An event of the panel trace (43 R610). The ten data lines are driven in one `CLK_SYS` cycle, as one event (43 R603). -/
inductive PanelEvent where
  | lines (l : PanelLines)
  | sclk (level : Bool)
  | lat (level : Bool)
  | oe (level : Bool)
  | hold (h : Hold)
deriving DecidableEq, Repr

/-- An event of the link trace (44 R740, R743). `miso` is a bit sampled. -/
inductive LinkEvent where
  | csN (level : Bool)
  | sck (level : Bool)
  | mosi (level : Bool)
  | miso (level : Bool)
  | hold (h : Hold)
deriving DecidableEq, Repr

/-- An event of the block's observable behaviour (00_scope R11). -/
inductive Event where
  | panel (e : PanelEvent)
  | link (e : LinkEvent)
deriving DecidableEq, Repr

/-- What the environment will supply (00_scope R9, R17 `draw()`): queues, and the number of free values drawn since a
queue was empty. Log entry 5. -/
structure Env where
  turns : List Turn
  buttons : List (BitVec 4)
  miso : List Bool
  draws : Nat
deriving DecidableEq, Repr

/-- The value returned by an operation that writes no state (log entry 15). -/
inductive Returned where
  | nothing
  | addr (a : BitVec 4)
  | cell (w : Cell)
  | lines (l : PanelLines)
  | result (r : ResultCode)
  | color (c : Color)
  | bit (b : Bool)
deriving DecidableEq, Repr

/-- The state: the elements of 10 R100 under their own names, then the model's own fields. -/
@[ext]
structure State where
  /-- `FB` (10 R150). -/
  fb : Memory
  /-- `HELD_BITS` (10 R101). -/
  heldBits : BitVec 24
  /-- `HELD_POS` (10 R102). -/
  heldPos : Byte
  /-- `HELD_CHECK` (10 R103). -/
  heldCheck : Byte
  /-- `CD_NOTIFY` (10 R104). -/
  cdNotify : BitVec 16
  /-- `CD_POLL` (10 R104). -/
  cdPoll : BitVec 16
  /-- `BTN_SAMPLE` (10 R105). -/
  btnSample : BitVec 4
  /-- `TX_BUF` (10 R106). -/
  txBuf : FrameBuf
  /-- `RX_BUF` (10 R106). -/
  rxBuf : FrameBuf
  /-- `PHASE` (10 R120). -/
  phase : BitVec 3
  /-- `INIT_IDX` (10 R122). -/
  initIdx : BitVec 10
  /-- `MAP_S` (10 R122). -/
  mapS : BitVec 5
  /-- `SCAN_ROW` (10 R121). -/
  scanRow : BitVec 5
  /-- `SCAN_COL` (10 R121). -/
  scanCol : BitVec 5
  /-- `SCAN_STEP` (10 R121). -/
  scanStep : BitVec 3
  /-- `LINK_LEN` (10 R100). -/
  linkLen : BitVec 4
  /-- `LINK_BYTE` (10 R122). -/
  linkByte : BitVec 4
  /-- `LINK_BIT` (10 R122). -/
  linkBit : BitVec 3
  /-- `WAIT_CNT` (10 R131). -/
  waitCnt : Nat
  /-- `FAULT` (10 R126). -/
  fault : Bool
  /-- `FAULT_CODE` (10 R126). -/
  faultCode : BitVec 4
  /-- `OUT_ADDR` (10 R160). -/
  outAddr : BitVec 4
  /-- `OUT_RGB` (10 R160). -/
  outRgb : BitVec 6
  /-- `OUT_SCLK`. -/
  outSclk : Bool
  /-- `OUT_LAT`. -/
  outLat : Bool
  /-- `OUT_OE`. -/
  outOe : Bool
  /-- `OUT_CS_N`. -/
  outCsN : Bool
  /-- `OUT_SCK`. -/
  outSck : Bool
  /-- `OUT_MOSI`. -/
  outMosi : Bool
  /-- The model's own: the configuration the block is built with (10 R130, log entry 10). -/
  cfg : Config
  /-- The model's own: the environment (log entry 5). -/
  env : Env
  /-- The model's own: the trace, newest event first (00_scope R11, log entry 26). -/
  trace : List Event
  /-- The model's own: an operation presented from outside the sequencer (log entry 2). -/
  request : Option OpWord
  /-- The model's own: the last value returned (log entry 15). -/
  ret : Returned
deriving DecidableEq, Repr

/-- Every element at its reset value (70 R1001, 10 R100), for a configuration; the model's own fields at theirs (log
entries 8 and 19). -/
def State.resetWith (c : Config) : State where
  fb := []
  heldBits := c.resetBitfield
  heldPos := c.resetPos
  heldCheck := 0#8
  cdNotify := c.resetCooldown
  cdPoll := c.resetCooldown
  btnSample := 0#4
  txBuf := Vector.replicate 11 0#8
  rxBuf := Vector.replicate 11 0#8
  phase := phaseInit
  initIdx := 0#10
  mapS := 0#5
  scanRow := 0#5
  scanCol := 0#5
  scanStep := stepRowBegin
  linkLen := 0#4
  linkByte := 0#4
  linkBit := 7#3
  waitCnt := 0
  fault := false
  faultCode := faultNone
  outAddr := 0#4
  outRgb := 0#6
  outSclk := false
  outLat := false
  outOe := false
  outCsN := true
  outSck := false
  outMosi := false
  cfg := c
  env := { turns := [], buttons := [], miso := [], draws := 0 }
  trace := []
  request := none
  ret := .nothing

/-- The machine right after reset (70 R1000, R1001). -/
def State.reset : State := State.resetWith Config.implementation

/-- What one step or one operation answers. -/
abbrev Outcome := Host.Outcome State Fault Refusal

end Sys2Proof.Machine
end

