-- ==== Sys2Proof/Machine/Flags.lean ====
section
/-! DEFINITION. The predicates of 10 R125, combinational and never stored. The one stored flag, `FAULT`, is a field of
State (10 R126). -/

namespace Sys2Proof.Machine

/-- `may_notify` (10 R125). -/
def mayNotify (s : State) : Bool := s.btnSample != 0#4 && s.cdNotify == 0#16

/-- `may_poll` (10 R125). -/
def mayPoll (s : State) : Bool := s.btnSample == 0#4 && s.cdPoll == 0#16

/-- `rsp_ok` (10 R125): the header match of 44 R751. -/
def rspOk (s : State) : Bool := FrameBuf.byte s.rxBuf 4 == s.cfg.sync && FrameBuf.byte s.rxBuf 5 == s.cfg.cmdReady

end Sys2Proof.Machine
end

