-- ==== Sys2Proof/Machine/Ops.lean ====
section
/-! DEFINITION. The shared operations: driving and holding lines, drawing from the environment, raising a fault, reset, the
frame buffer, the byte framer, the scan steps, and fetching the next operation. -/

namespace Sys2Proof.Machine

/-! ## Driving, holding, returning (00_scope R17) -/

/-- Drive `ADDR` and the six colour lines, in one `CLK_SYS` cycle (43 R603). -/
def driveLines (l : PanelLines) (s : State) : State :=
  { s with outAddr := l.addr, outRgb := l.rgb, trace := .panel (.lines l) :: s.trace }

/-- `drive(SCLK, v)`. -/
def driveSclk (v : Bool) (s : State) : State := { s with outSclk := v, trace := .panel (.sclk v) :: s.trace }

/-- `drive(LAT, v)`. -/
def driveLat (v : Bool) (s : State) : State := { s with outLat := v, trace := .panel (.lat v) :: s.trace }

/-- `drive(OE, v)`. -/
def driveOe (v : Bool) (s : State) : State := { s with outOe := v, trace := .panel (.oe v) :: s.trace }

/-- `drive(CS_N, v)`. -/
def driveCsN (v : Bool) (s : State) : State := { s with outCsN := v, trace := .link (.csN v) :: s.trace }

/-- `drive(SCK, v)`. -/
def driveSck (v : Bool) (s : State) : State := { s with outSck := v, trace := .link (.sck v) :: s.trace }

/-- `drive(MOSI, v)`. -/
def driveMosi (v : Bool) (s : State) : State := { s with outMosi := v, trace := .link (.mosi v) :: s.trace }

/-- A hold of the scan driver: the annotation on the trace, with `WAIT_CNT` loaded and run down to 0 (10 R131, log
entry 1). -/
def holdPanel (h : Hold) (s : State) : State := { s with waitCnt := 0, trace := .panel (.hold h) :: s.trace }

/-- A hold of the byte framer. -/
def holdLink (h : Hold) (s : State) : State := { s with waitCnt := 0, trace := .link (.hold h) :: s.trace }

/-- A minimum hold of `t` nanoseconds. -/
def holdAtLeast (c : Config) (t : Nat) : Hold := { cycles := c.cycles t, exact := false }

/-- `hold(max(1 CLK_SYS, t))`. -/
def holdGap (c : Config) (t : Nat) : Hold := { cycles := max 1 (c.cycles t), exact := false }

/-- `hold_exact(t)`. -/
def holdExactly (c : Config) (t : Nat) : Hold := { cycles := c.cycles t, exact := true }

/-- The one cycle between two events that no other hold separates (00_scope R15). -/
def holdOne : Hold := { cycles := 1, exact := false }

/-- `hold(T_HALF)` (44 R701). -/
def holdHalf (c : Config) : Hold := { cycles := c.halfPeriodCycles, exact := false }

/-- The state with a returned value (log entry 15). -/
def setRet (r : Returned) (s : State) : State := { s with ret := r }

/-- `pc <- P` (10 R120). -/
def setPhase (p : BitVec 3) (s : State) : State := { s with phase := p }

/-- The state with another frame buffer. -/
def setFb (m : Memory) (s : State) : State := { s with fb := m }

/-! ## Faults and reset -/

/-- `raise Fault(code)` (60 R910): entry into HALT. The caller gives the state from before the faulting operation, so
that operation's own writes are discarded. Every register but the named ones keeps its value. -/
def raiseFault (code : BitVec 4) (s : State) : State :=
  { s with
    fault := true
    faultCode := code
    outOe := false
    outSclk := false
    outLat := false
    outCsN := true
    outSck := false
    phase := phaseHalt
    trace := [.link (.sck false), .link (.csN true), .panel (.lat false), .panel (.sclk false), .panel (.oe false)]
      ++ s.trace }

/-- An operation that returns a value, or raises a fault. -/
def returning (r : Except (BitVec 4) Returned) (s : State) : Outcome :=
  match r with
  | .ok v => .next (setRet v s)
  | .error code => .next (raiseFault code s)

/-- What reset leaves on the trace: every output at its reset level (70 R1001), newest event first. -/
def resetTrace : List Event :=
  [.link (.mosi false), .link (.sck false), .link (.csN true), .panel (.lines { addr := 0#4, rgb := 0#6 }),
    .panel (.lat false), .panel (.sclk false), .panel (.oe false)]

/-- `RESET` (70 R1000): every element takes its reset value. The configuration, the environment and what has been seen on
the traces are no state of the block and stay (log entry 20). -/
def resetState (s : State) : State :=
  { State.resetWith s.cfg with env := s.env, trace := resetTrace ++ s.trace }

/-! ## The environment (00_scope R9, R17 `draw()`) -/

/-- The next turn: scheduled, or a free value. -/
def nextTurn (s : State) : Turn :=
  match s.env.turns with
  | t :: _ => t
  | [] => Config.freeTurn s.env.draws

/-- The state after its turn is taken from the environment. -/
def takeTurn (s : State) : State :=
  { s with env := match s.env.turns with
    | _ :: ts => { s.env with turns := ts }
    | [] => { s.env with draws := s.env.draws + 1 } }

/-- `sample(BTN)`: the levels of the buttons, scheduled or a free value (44 R720). -/
def nextButtons (s : State) : BitVec 4 :=
  match s.env.buttons with
  | b :: _ => b
  | [] => Config.freeButtons s.env.draws

/-- The state after the buttons are sampled. -/
def takeButtons (s : State) : State :=
  { s with env := match s.env.buttons with
    | _ :: bs => { s.env with buttons := bs }
    | [] => { s.env with draws := s.env.draws + 1 } }

/-- `sample(MISO)`: the bit the peer drives, scheduled or a free value (44 R742). -/
def nextMiso (s : State) : Bool :=
  match s.env.miso with
  | b :: _ => b
  | [] => Config.freeMiso s.env.draws

/-- The state after `MISO` is sampled. -/
def takeMiso (s : State) : State :=
  { s with
    env := match s.env.miso with
      | _ :: bs => { s.env with miso := bs }
      | [] => { s.env with draws := s.env.draws + 1 }
    trace := .link (.miso (nextMiso s)) :: s.trace }

/-! ## The frame buffer (41) -/

/-- `MemWrite(a, width, v)` (00_scope R17, 20 R210): the width is 2, one whole cell, and the index exists. -/
def storeCell (a width : Nat) (v : Cell) (s : State) : Outcome :=
  if width ≠ 2 then .refused .partialCell
  else if 1024 ≤ a then .fault .noSuchCell
  else .next (setFb (Memory.write s.fb a v) s)

/-- `FB_SET(row, col, cell)` (41 R450). -/
def fbSet (row col : Nat) (v : Cell) (s : State) : Outcome :=
  if 31 < row then .next (raiseFault faultRowRange s)
  else if 31 < col then .next (raiseFault faultColRange s)
  else storeCell (cellIndex row col) 2 v s

/-- `FB_READ(row, col)` with 5-bit operands (41 R451). -/
def fbRead (row col : BitVec 5) (s : State) : Cell := Memory.read s.fb (cellIndex row.toNat col.toNat)

/-- Every cell at its idle encoding, in row-major order (41 R452, 70 R1002). -/
def fillIdle (m : Memory) : Memory :=
  (List.range 1024).foldl (fun m a => Memory.write m a (idleCell (a / 32))) m

/-! ## The mapper (42) -/

/-- `REGION_TABLE[s]`; the callers keep `s` below 24. -/
def regionOf (t : RegionTable) (s : Nat) : Region := t.entries[s]?.getD default

/-- The 12 writes of 42 R503: each region cell takes its row's result cell of one colour, the half being the row's. The
table's check W1 keeps every row and column in range, so no `FB_SET` here can fault. -/
def paintRegion (g : Region) (c : Color) (m : Memory) : Memory :=
  g.cells.foldl (fun m p => Memory.write m (cellIndex p.1 p.2) (resultCell p.1 (halfOf p.1) c)) m

/-- `MAP_APPLY(s, result, p)` for a sensor in range (42 R503). -/
def paintSensor (sensor : BitVec 5) (result : ResultCode) (pos : Byte) (s : State) : State :=
  setFb (paintRegion (regionOf s.cfg.regionTable sensor.toNat) (colorOfResult result sensor pos) s.fb) s

/-- One turn of the loop of 42 R504: sensor `k` from the held results. -/
def mapSensor (s : State) (k : Nat) : State :=
  paintSensor (BitVec.ofNat 5 k) (sensorResult s.heldBits k) s.heldPos { s with mapS := BitVec.ofNat 5 k }

/-- `MAP_ALL` (42 R504). -/
def mapAll (s : State) : State := setPhase phaseScan ((List.range 24).foldl mapSensor s)

/-! ## The cooldowns and the selection (44 R710 to R721) -/

/-- `TICK` (44 R710). -/
def tickCounters (s : State) : State := { s with cdNotify := countDown s.cdNotify, cdPoll := countDown s.cdPoll }

/-- `SELECT` (44 R720), all in one `CLK_SYS` cycle. -/
def select (s : State) : State :=
  let s1 : State := { takeButtons s with btnSample := nextButtons s }
  setPhase (if mayNotify s1 then phaseNotify else if mayPoll s1 then phasePoll else phaseMap) s1

/-! ## The byte framer (44 R740 to R743) -/

/-- What stands between the newest event of a trace and a change of `MOSI`: one cycle where `SCK` has just fallen, the bits
of a frame following one another with no other hold (00_scope R15, 44 R740 D24). -/
def sckGap : List Event → List LinkEvent
  | .link (.sck false) :: _ => [.hold holdOne]
  | _ => []

/-- The state after that cycle. -/
def settleSck (s : State) : State := { s with trace := (sckGap s.trace).map Event.link ++ s.trace }

/-- `XFER_BIT(t)` (44 R743): the bit received and the state after. -/
def xferBit (t : Bool) (s : State) : Bool × State :=
  let s1 := driveSck true (holdLink (holdHalf s.cfg) (driveMosi t (settleSck s)))
  (nextMiso s1, driveSck false (holdLink (holdHalf s.cfg) (takeMiso s1)))

/-- The loop of 44 R741 over the bits below `b`, most significant first: the byte received so far and the state after. -/
def xferBits (out : Byte) : Nat → Byte → State → Byte × State
  | 0, rx, s => (rx, s)
  | b + 1, rx, s =>
    let r := xferBit (out.getLsbD b) { s with linkBit := BitVec.ofNat 3 b }
    xferBits out b (if r.1 then rx ||| (1#8 <<< b) else rx) r.2

/-- `XFER_BYTE(k)` (44 R741). -/
def xferByte (k : Nat) (s : State) : State :=
  let r := xferBits (FrameBuf.byte s.txBuf k) 8 0#8 s
  { r.2 with rxBuf := FrameBuf.put r.2.rxBuf k r.1 }

/-- One turn of the loop of 44 R740. -/
def xferNext (s : State) (k : Nat) : State := xferByte k { s with linkByte := BitVec.ofNat 4 k }

/-- `XFER(n)` (44 R740). -/
def xfer (n : Nat) (s : State) : State :=
  let s1 := holdLink (holdHalf s.cfg) (driveCsN false s)
  let s2 := (List.range n).foldl xferNext s1
  holdLink (holdAtLeast s.cfg s.cfg.tCsIdle) (driveCsN true (holdLink (holdHalf s.cfg) s2))

/-- A frame put into `TX_BUF`, with its length in `LINK_LEN` (44 R730, R735). -/
def loadFrame (bytes : List Byte) (n : FrameLength) (s : State) : State :=
  { s with txBuf := FrameBuf.fill s.txBuf 0 bytes, linkLen := n.bytes }

/-- `NOTIFY_SEND` (44 R730). -/
def notifySend (s : State) : State :=
  let s0 := loadFrame (notifyBytes s.cfg s.btnSample) s.cfg.notifyLen s
  let s1 := xfer s0.linkLen.toNat s0
  setPhase phaseMap { s1 with cdNotify := s.cfg.cooldownNotify }

/-- `POLL_ACCEPT` (44 R750): all three held registers are written, or none (92 D25). -/
def pollAccept (s : State) : State :=
  { s with
    heldCheck := if rspOk s then FrameBuf.byte s.rxBuf 6 else s.heldCheck
    heldBits :=
      if rspOk s then bitfieldOf (FrameBuf.byte s.rxBuf 7) (FrameBuf.byte s.rxBuf 8) (FrameBuf.byte s.rxBuf 9) else s.heldBits
    heldPos := if rspOk s then FrameBuf.byte s.rxBuf 10 else s.heldPos }

/-- `POLL_EXCHANGE` (44 R735). -/
def pollExchange (s : State) : State :=
  let s0 := loadFrame (pollRequestBytes s.cfg) s.cfg.pollLen s
  let s1 := xfer s0.linkLen.toNat s0
  setPhase phaseMap (pollAccept { s1 with cdPoll := s.cfg.cooldownPoll })

/-! ## The scan driver (43) -/

/-- `ROW_BEGIN` (43 R602). -/
def rowBegin (s : State) : State :=
  { driveLat true (holdPanel (holdGap s.cfg s.cfg.tOeGap) (driveOe false s)) with
    scanCol := 0#5, scanStep := stepShiftSetup }

/-- `SHIFT_SETUP` (43 R603): the data lines change at least one cycle after the rise of `LAT` or the last fall of `SCLK`
(43 R603, R610 E3). -/
def shiftSetup (s : State) : State :=
  { holdPanel (holdAtLeast s.cfg s.cfg.tSetup)
      (driveLines (decodeCellOf (fbRead s.scanRow s.scanCol s)) (holdPanel holdOne s)) with
    scanStep := stepShiftHigh }

/-- `SHIFT_HIGH` (43 R603). -/
def shiftHigh (s : State) : State :=
  { driveSclk false (holdPanel (holdAtLeast s.cfg s.cfg.tSclkHigh) (driveSclk true s)) with
    scanCol := if s.scanCol.toNat < 31 then s.scanCol + 1#5 else s.scanCol
    scanStep := if s.scanCol.toNat < 31 then stepShiftSetup else stepRowCommit }

/-- `SHIFT_CELL` (43 R603, 30 R336). -/
def shiftCell (s : State) : State := shiftHigh (shiftSetup s)

/-- `ROW_COMMIT` (43 R604). -/
def rowCommit (s : State) : State :=
  { driveLat false (holdPanel (holdGap s.cfg s.cfg.tLatGap) s) with scanStep := stepRowDwell }

/-- `REFRESH_END` (43 R606). -/
def refreshEnd (s : State) : State :=
  { s with
    outOe := if s.cfg.blankBetweenRefresh then false else s.outOe
    trace := if s.cfg.blankBetweenRefresh then .panel (.oe false) :: s.trace else s.trace
    scanRow := 0#5
    scanCol := 0#5
    scanStep := stepRowBegin
    phase := phaseSelect }

/-- `ROW_DWELL` (43 R605); the last row ends the refresh. -/
def rowDwell (s : State) : State :=
  let s1 := holdPanel (holdExactly s.cfg s.cfg.tDwell) (driveOe true (holdPanel (holdGap s.cfg s.cfg.tOeGap) s))
  if s.scanRow.toNat < 31 then { s1 with scanRow := s.scanRow + 1#5, scanStep := stepRowBegin } else refreshEnd s1

/-- One column of the loop of 43 R601. -/
def refreshColumn (s : State) (c : Nat) : State := shiftCell { s with scanCol := BitVec.ofNat 5 c }

/-- One row of the loop of 43 R601. -/
def refreshRow (s : State) (r : Nat) : State :=
  rowDwell (rowCommit ((List.range 32).foldl refreshColumn (rowBegin { s with scanRow := BitVec.ofNat 5 r })))

/-- `SCAN_REFRESH` (43 R601): rows 0 to 31; `REFRESH_END` is the end of row 31's dwell. -/
def scanRefresh (s : State) : State := (List.range 32).foldl refreshRow s

/-! ## The cycle (45) -/

/-- The frame of a cycle: the phase SELECT chose sends its frame, or none is sent (45 R801, R802). -/
def exchange (s : State) : State :=
  if s.phase = phaseNotify then notifySend s else if s.phase = phasePoll then pollExchange s else s

/-- `SCAN_REFRESH` with its fault: a reserved `SCAN_STEP` raises `RESERVED_STATE` (43 R601). -/
def refreshOrFault (s : State) : Outcome :=
  if scanStepReserved s.scanStep then .next (raiseFault faultReservedState s) else .next (scanRefresh s)

/-- `INIT` (70 R1002): every cell idle, `INIT_IDX` at the last index, on to SELECT. -/
def initFrame (s : State) : State := setPhase phaseSelect { setFb (fillIdle s.fb) s with initIdx := 1023#10 }

/-- The sequencer in `PHASE = HALT` (60 R910, R911): once the fault is recorded nothing more happens; a forced HALT with
no fault recorded enters the fault state with the code that stands in `FAULT_CODE`. Log entry 17. -/
def haltStep (s : State) : State :=
  if s.fault = true ∧ s.phase = phaseHalt then s else raiseFault s.faultCode s

/-! ## Fetching the next operation -/

/-- The sequencer's word: `PHASE ++ SCAN_STEP` (30 R330, R331). -/
def sequencerWord (s : State) : OpWord := opWord .sequencer (s.phase ++ s.scanStep)

/-- The word of the next operation: a request presented from outside, else the sequencer's word. HALT executes no
operation (60 R911), so a request presented there is not read. Log entries 2 and 23. -/
def fetchWord (s : State) : OpWord :=
  if s.phase = phaseHalt then sequencerWord s
  else match s.request with
    | some w => w
    | none => sequencerWord s

/-- The next operation. -/
def fetch (s : State) : Except DecodeError Instr := decode (fetchWord s)

/-- The state with its request taken. -/
def takeRequest (s : State) : State := { s with request := none }

/-- A word that is no operation: a reserved sequencer code raises `RESERVED_STATE` (30 R320, 60 R901); a request that is
no operation is refused. -/
def turnedAway (e : DecodeError) (s : State) : Outcome :=
  match e with
  | .reservedPhase => .next (raiseFault faultReservedState s)
  | .reservedScanStep => .next (raiseFault faultReservedState s)
  | e => .refused (.undecodable e)

/-- The state in which a reset finds the block: nothing, or the first `cut` trace events, of the operation it interrupts
has happened. Only the traces and the environment can tell, since reset overwrites every register. Log entry 7. -/
def abandon (cut : Nat) (s : State) (o : Outcome) : State :=
  match cut with
  | 0 => s
  | n + 1 =>
    match o with
    | .next t => { s with env := t.env, trace := t.trace.drop (t.trace.length - (s.trace.length + (n + 1))) }
    | .fault _ => s
    | .refused _ => s

/-- The tick handler after an operation, in the same `CLK_SYS` cycle. -/
def tickAfter (o : Outcome) : Outcome :=
  match o with
  | .next t => .next (tickCounters t)
  | .fault f => .fault f
  | .refused r => .refused r

end Sys2Proof.Machine
end

