-- ==== Sys2Proof/Machine/Codec.lean ====
section
/-! DEFINITION. The cell patterns and the cell codec: CELL_* (30 R310), ROW_ADDR, ENCODE_IDLE, ENCODE_RESULT, DECODE_CELL
(40). None writes a state element of the block (40); each returns its value. -/

namespace Sys2Proof.Machine

/-- What a legal cell puts on the panel lines (30 R302, R310; log entry 13). -/
def cellLines (a : BitVec 4) (h : Half) (c : Color) (s : State) : Outcome :=
  .next (setRet (.lines (decodeCellOf (cellOf a h c))) s)

/-- CELL_RED_TOP: `0x0010 | a` (30 R310). -/
def execCellRedTop (a : BitVec 4) (s : State) : Outcome := cellLines a .top .red s

/-- CELL_GREEN_TOP: `0x0020 | a` (30 R310). -/
def execCellGreenTop (a : BitVec 4) (s : State) : Outcome := cellLines a .top .green s

/-- CELL_BLUE_TOP, the idle cell of a top row: `0x0040 | a` (30 R310). -/
def execCellBlueTop (a : BitVec 4) (s : State) : Outcome := cellLines a .top .blue s

/-- CELL_RED_BOT: `0x0080 | a` (30 R310). -/
def execCellRedBot (a : BitVec 4) (s : State) : Outcome := cellLines a .bottom .red s

/-- CELL_GREEN_BOT: `0x0100 | a` (30 R310). -/
def execCellGreenBot (a : BitVec 4) (s : State) : Outcome := cellLines a .bottom .green s

/-- CELL_BLUE_BOT, the idle cell of a bottom row: `0x0200 | a` (30 R310). -/
def execCellBlueBot (a : BitVec 4) (s : State) : Outcome := cellLines a .bottom .blue s

/-- ROW_ADDR (40 R410). -/
def execRowAddr (row : BitVec 8) (s : State) : Outcome := returning ((rowAddrOf row.toNat).map .addr) s

/-- ENCODE_IDLE (40 R420). -/
def execEncodeIdle (row : BitVec 8) (s : State) : Outcome := returning ((encodeIdleOf row.toNat).map .cell) s

/-- ENCODE_RESULT (40 R421). -/
def execEncodeResult (row : BitVec 8) (half : Half) (color : Color) (s : State) : Outcome :=
  returning ((encodeResultOf row.toNat half color).map .cell) s

/-- DECODE_CELL (40 R424). -/
def execDecodeCell (cell : Cell) (s : State) : Outcome := .next (setRet (.lines (decodeCellOf cell)) s)

end Sys2Proof.Machine
end

