-- ==== Sys2Proof/Machine/FrameBuffer.lean ====
section
/-! DEFINITION. The frame-buffer operations FB_SET, FB_READ, FB_RESET_TO_IDLE (41). -/

namespace Sys2Proof.Machine

/-- FB_SET (41 R450). -/
def execFbSet (row col : BitVec 8) (cell : Cell) (s : State) : Outcome := fbSet row.toNat col.toNat cell s

/-- FB_READ (41 R451). -/
def execFbRead (row col : BitVec 5) (s : State) : Outcome := .next (setRet (.cell (fbRead row col s)) s)

/-- FB_RESET_TO_IDLE (41 R452). -/
def execFbResetToIdle (s : State) : Outcome := .next (setFb (fillIdle s.fb) s)

end Sys2Proof.Machine
end

