-- ==== Sys2Proof/Machine/Frames.lean ====
section
/-! DEFINITION. The wire frames FRAME_NOTIFY, FRAME_POLL_REQ, FRAME_POLL_RSP (30 R303 to R305): formats, whose meaning is the
frame standing in the framer's buffer, as NOTIFY_SEND, POLL_EXCHANGE and a received response leave it (log entry 14). -/

namespace Sys2Proof.Machine

/-- FRAME_NOTIFY (30 R303): the frame in `TX_BUF[0..1]`, its length in `LINK_LEN`. -/
def execFrameNotify (mask : BitVec 4) (s : State) : Outcome := .next (loadFrame (notifyBytes s.cfg mask) s.cfg.notifyLen s)

/-- FRAME_POLL_REQ (30 R304): the frame in `TX_BUF[0..10]`, its length in `LINK_LEN`. -/
def execFramePollReq (s : State) : Outcome := .next (loadFrame (pollRequestBytes s.cfg) s.cfg.pollLen s)

/-- FRAME_POLL_RSP (30 R305): the response in `RX_BUF[0..10]`, accepted by POLL_ACCEPT. -/
def execFramePollRsp (ignored : BitVec 32) (check hi mid lo pos : Byte) (s : State) : Outcome :=
  .next (pollAccept { s with rxBuf := FrameBuf.fill s.rxBuf 0 (pollResponseBytes s.cfg ignored check hi mid lo pos) })

end Sys2Proof.Machine
end

