-- ==== Sys2Proof/Machine/Link.lean ====
section
/-! DEFINITION. The polling-protocol client TICK, SELECT, NOTIFY_SEND, POLL_EXCHANGE, XFER, XFER_BYTE, XFER_BIT, POLL_ACCEPT
(44). -/

namespace Sys2Proof.Machine

/-- TICK (44 R710). -/
def execTick (s : State) : Outcome := .next (tickCounters s)

/-- SELECT (44 R720). -/
def execSelect (s : State) : Outcome := .next (select s)

/-- NOTIFY_SEND (44 R730). -/
def execNotifySend (s : State) : Outcome := .next (notifySend s)

/-- POLL_EXCHANGE (44 R735). -/
def execPollExchange (s : State) : Outcome := .next (pollExchange s)

/-- XFER (44 R740): a frame has `NOTIFY_LEN` or `POLL_LEN` bytes. DESIGN CHOICE, log entry 18: the length is the one in the
operation's word, and the register `LINK_LEN` is neither read nor checked nor written. -/
def execXfer (n : BitVec 4) (s : State) : Outcome :=
  if n = s.cfg.notifyLen.bytes ∨ n = s.cfg.pollLen.bytes then .next (xfer n.toNat s) else .refused .frameLength

/-- XFER_BYTE (44 R741): the buffers have bytes 0 to 10. The index is the one in the word, not `LINK_BYTE` (log entry 18). -/
def execXferByte (k : BitVec 4) (s : State) : Outcome :=
  if 10 < k.toNat then .fault .noSuchByte else .next (xferByte k.toNat s)

/-- XFER_BIT (44 R743) for bit `b` of the byte at `LINK_BYTE`, the bit received being returned (log entry 18). -/
def execXferBit (b : BitVec 3) (s : State) : Outcome :=
  if 10 < s.linkByte.toNat then .fault .noSuchByte
  else
    let r := xferBit ((FrameBuf.byte s.txBuf s.linkByte.toNat).getLsbD b.toNat) { s with linkBit := b }
    .next (setRet (.bit r.1) r.2)

/-- POLL_ACCEPT (44 R750). -/
def execPollAccept (s : State) : Outcome := .next (pollAccept s)

end Sys2Proof.Machine
end

