-- ==== Sys2Proof/Machine/Mapper.lean ====
section
/-! DEFINITION. The sensor-result mapper RESULT_OF, COLOR_OF, MAP_APPLY, MAP_ALL (42). -/

namespace Sys2Proof.Machine

/-- RESULT_OF (42 R501). -/
def execResultOf (bits : BitVec 24) (sensor : BitVec 5) (s : State) : Outcome :=
  returning (if 23 < sensor.toNat then .error faultSensorRange else .ok (.result (sensorResult bits sensor.toNat))) s

/-- COLOR_OF (42 R502). -/
def execColorOf (result : ResultCode) (sensor : BitVec 5) (pos : Byte) (s : State) : Outcome :=
  .next (setRet (.color (colorOfResult result sensor pos)) s)

/-- MAP_APPLY (42 R503). -/
def execMapApply (sensor : BitVec 5) (result : ResultCode) (pos : Byte) (s : State) : Outcome :=
  if 23 < sensor.toNat then .next (raiseFault faultSensorRange s) else .next (paintSensor sensor result pos s)

/-- MAP_ALL (42 R504). -/
def execMapAll (s : State) : Outcome := .next (mapAll s)

end Sys2Proof.Machine
end

