-- ==== Sys2Proof/Machine/Scan.lean ====
section
/-! DEFINITION. The scan driver SCAN_REFRESH, ROW_BEGIN, SHIFT_CELL and its sub-steps, ROW_COMMIT, ROW_DWELL, REFRESH_END (43). -/

namespace Sys2Proof.Machine

/-- SCAN_REFRESH (43 R601). -/
def execScanRefresh (s : State) : Outcome := refreshOrFault s

/-- ROW_BEGIN (43 R602). -/
def execRowBegin (s : State) : Outcome := .next (rowBegin s)

/-- SHIFT_SETUP (43 R603). -/
def execShiftSetup (s : State) : Outcome := .next (shiftSetup s)

/-- SHIFT_HIGH (43 R603). -/
def execShiftHigh (s : State) : Outcome := .next (shiftHigh s)

/-- SHIFT_CELL (43 R603). -/
def execShiftCell (s : State) : Outcome := .next (shiftCell s)

/-- ROW_COMMIT (43 R604). -/
def execRowCommit (s : State) : Outcome := .next (rowCommit s)

/-- ROW_DWELL (43 R605). -/
def execRowDwell (s : State) : Outcome := .next (rowDwell s)

/-- REFRESH_END (43 R606). -/
def execRefreshEnd (s : State) : Outcome := .next (refreshEnd s)

end Sys2Proof.Machine
end

