-- ==== Sys2Proof/Machine/Sequencer.lean ====
section
/-! DEFINITION. The cycle sequencer, reset and the fault state: CYCLE (45), INIT and RESET (70), HALT (60). -/

namespace Sys2Proof.Machine

/-- CYCLE (45 R801). -/
def execCycle (s : State) : Outcome := refreshOrFault (mapAll (exchange (select s)))

/-- INIT (70 R1002). -/
def execInit (s : State) : Outcome := .next (initFrame s)

/-- RESET (70 R1000). -/
def execReset (s : State) : Outcome := .next (resetState s)

/-- HALT (60 R910). -/
def execHalt (s : State) : Outcome := .next (haltStep s)

end Sys2Proof.Machine
end

