-- ==== Sys2Proof/Machine/Dispatch.lean ====
section
/-! DEFINITION. One arm per operation (00_scope R6). -/

namespace Sys2Proof.Machine

def exec (i : Instr) (s : State) : Host.Outcome State Fault Refusal :=
  match i with
  | .cellRedTop a => Sys2Proof.Machine.execCellRedTop a s
  | .cellGreenTop a => Sys2Proof.Machine.execCellGreenTop a s
  | .cellBlueTop a => Sys2Proof.Machine.execCellBlueTop a s
  | .cellRedBot a => Sys2Proof.Machine.execCellRedBot a s
  | .cellGreenBot a => Sys2Proof.Machine.execCellGreenBot a s
  | .cellBlueBot a => Sys2Proof.Machine.execCellBlueBot a s
  | .frameNotify mask => Sys2Proof.Machine.execFrameNotify mask s
  | .framePollReq => Sys2Proof.Machine.execFramePollReq s
  | .framePollRsp ignored check hi mid lo pos => Sys2Proof.Machine.execFramePollRsp ignored check hi mid lo pos s
  | .init => Sys2Proof.Machine.execInit s
  | .select => Sys2Proof.Machine.execSelect s
  | .notifySend => Sys2Proof.Machine.execNotifySend s
  | .pollExchange => Sys2Proof.Machine.execPollExchange s
  | .mapAll => Sys2Proof.Machine.execMapAll s
  | .scanRefresh => Sys2Proof.Machine.execScanRefresh s
  | .halt => Sys2Proof.Machine.execHalt s
  | .rowBegin => Sys2Proof.Machine.execRowBegin s
  | .shiftSetup => Sys2Proof.Machine.execShiftSetup s
  | .shiftHigh => Sys2Proof.Machine.execShiftHigh s
  | .rowCommit => Sys2Proof.Machine.execRowCommit s
  | .rowDwell => Sys2Proof.Machine.execRowDwell s
  | .shiftCell => Sys2Proof.Machine.execShiftCell s
  | .refreshEnd => Sys2Proof.Machine.execRefreshEnd s
  | .cycle => Sys2Proof.Machine.execCycle s
  | .reset => Sys2Proof.Machine.execReset s
  | .tick => Sys2Proof.Machine.execTick s
  | .xfer n => Sys2Proof.Machine.execXfer n s
  | .xferByte k => Sys2Proof.Machine.execXferByte k s
  | .xferBit b => Sys2Proof.Machine.execXferBit b s
  | .pollAccept => Sys2Proof.Machine.execPollAccept s
  | .rowAddr row => Sys2Proof.Machine.execRowAddr row s
  | .encodeIdle row => Sys2Proof.Machine.execEncodeIdle row s
  | .encodeResult row half color => Sys2Proof.Machine.execEncodeResult row half color s
  | .decodeCell cell => Sys2Proof.Machine.execDecodeCell cell s
  | .fbSet row col cell => Sys2Proof.Machine.execFbSet row col cell s
  | .fbRead row col => Sys2Proof.Machine.execFbRead row col s
  | .fbResetToIdle => Sys2Proof.Machine.execFbResetToIdle s
  | .resultOf bits sensor => Sys2Proof.Machine.execResultOf bits sensor s
  | .colorOf result sensor pos => Sys2Proof.Machine.execColorOf result sensor pos s
  | .mapApply sensor result pos => Sys2Proof.Machine.execMapApply sensor result pos s

end Sys2Proof.Machine
end

