-- ==== Sys2Proof/Machine/Step.lean ====
section
/-! DEFINITION. One step of the machine: a turn of the environment's choosing (00_scope R9, 45 R806, 60 R921). -/

namespace Sys2Proof.Machine

/-- The sequencer's turn: the next operation, whole. -/
def sequencerTurn (s : State) : Outcome :=
  match fetch s with
  | .ok i => exec i (takeRequest s)
  | .error e => turnedAway e (takeRequest s)

/-- The sequencer's turn with a `TICK` strobe in the same `CLK_SYS` cycle (44 R712, 60 R921): a reload wins over the tick
for its counter, so the tick acts first; SELECT reads the counters as they stand at the start of the cycle (20 R221), so
there the tick acts after. Log entry 6. -/
def sequencerTurnWithTick (s : State) : Outcome :=
  if fetch s = .ok .select then tickAfter (sequencerTurn s) else sequencerTurn (tickCounters s)

/-- One step: reset wins over everything (60 R921), a tick acts alone, or the sequencer moves, with a tick or without. -/
def step (s : State) : Host.Outcome State Fault Refusal :=
  match nextTurn s with
  | .reset cut => exec .reset (abandon cut (takeTurn s) (sequencerTurn (takeTurn s)))
  | .tick => exec .tick (takeTurn s)
  | .sequencer => sequencerTurn (takeTurn s)
  | .sequencerWithTick => sequencerTurnWithTick (takeTurn s)

/-- The state with its next turn fixed. -/
def State.withTurn (t : Turn) (s : State) : State := { s with env := { s.env with turns := t :: s.env.turns } }

/-- The state whose next step runs a word of the table: a sequencer word stands in `PHASE` and `SCAN_STEP`, `RST` and
`TICK` are turns of the environment, and any other word is presented as a request. Log entry 2. -/
def State.withFetchWord (s : State) (nbits w : Nat) : State :=
  match (tableWord nbits w).lane with
  | .sequencer =>
    if w < 64 then
      State.withTurn .sequencer
        { s with phase := BitVec.ofNat 3 (w / 8), scanStep := BitVec.ofNat 3 (w % 8), request := none }
    else State.withTurn .sequencer { s with request := some (tableWord nbits w) }
  | .portRst => State.withTurn (.reset 0) s
  | .portTick => State.withTurn .tick s
  | _ => State.withTurn .sequencer { s with request := some (tableWord nbits w) }

end Sys2Proof.Machine
end

