-- ==== Sys2Proof/Machine/Trace.lean ====
section
/-! DEFINITION. The observable behaviour (00_scope R11): the panel trace, the link trace, and the frames read from the link
trace. -/

namespace Sys2Proof.Machine

/-- The panel events of a trace, in its order. -/
def panelEvents : List Event → List PanelEvent
  | [] => []
  | .panel e :: es => e :: panelEvents es
  | .link _ :: es => panelEvents es

/-- The link events of a trace, in its order. -/
def linkEvents : List Event → List LinkEvent
  | [] => []
  | .panel _ :: es => linkEvents es
  | .link e :: es => e :: linkEvents es

/-- The panel trace, oldest event first. -/
def panelTrace (s : State) : List PanelEvent := panelEvents s.trace.reverse

/-- The link trace, oldest event first. -/
def linkTrace (s : State) : List LinkEvent := linkEvents s.trace.reverse

/-- Whole bytes from a row of bits, most significant first (20 R206, 44 R700); bits short of a byte are dropped. -/
def packBytes : List Bool → List Byte
  | b7 :: b6 :: b5 :: b4 :: b3 :: b2 :: b1 :: b0 :: bs =>
    (BitVec.ofBool b7 ++ BitVec.ofBool b6 ++ BitVec.ofBool b5 ++ BitVec.ofBool b4
      ++ BitVec.ofBool b3 ++ BitVec.ofBool b2 ++ BitVec.ofBool b1 ++ BitVec.ofBool b0) :: packBytes bs
  | _ => []

/-- The bits of a row of bytes, most significant first. -/
def unpackBytes : List Byte → List Bool
  | [] => []
  | w :: ws =>
    w.getLsbD 7 :: w.getLsbD 6 :: w.getLsbD 5 :: w.getLsbD 4 :: w.getLsbD 3 :: w.getLsbD 2 :: w.getLsbD 1
      :: w.getLsbD 0 :: unpackBytes ws

/-- A frame on the wire: the bytes the block sent and the bytes it received. -/
structure WireFrame where
  mosi : List Byte
  miso : List Byte
deriving DecidableEq, Repr

/-- What an observer of the link has seen: the levels of `CS_N` and `MOSI`, the bits of the frame under way, newest first,
and the frames ended, newest first. -/
structure LinkWatch where
  csN : Bool
  mosi : Bool
  sent : List Bool
  received : List Bool
  frames : List WireFrame
deriving DecidableEq, Repr

/-- One link event seen. A bit passes each way where `MISO` is sampled, on the rising edge of `SCK` (44 R743); `CS_N`
falls at the start of a frame and rises at its end (44 R740). -/
def LinkWatch.observe (w : LinkWatch) (e : LinkEvent) : LinkWatch :=
  match e with
  | .csN v =>
    { w with
      csN := v, sent := [], received := []
      frames :=
        if v = true ∧ w.csN = false then
          { mosi := packBytes w.sent.reverse, miso := packBytes w.received.reverse } :: w.frames
        else w.frames }
  | .mosi v => { w with mosi := v }
  | .miso v => { w with sent := w.mosi :: w.sent, received := v :: w.received }
  | .sck _ => w
  | .hold _ => w

/-- An observer that has seen nothing of a link at rest. -/
def LinkWatch.atRest : LinkWatch := { csN := true, mosi := false, sent := [], received := [], frames := [] }

/-- The frames on a link trace that begins with the link at rest, oldest first. -/
def wireFrames (es : List LinkEvent) : List WireFrame := (es.foldl LinkWatch.observe LinkWatch.atRest).frames.reverse

end Sys2Proof.Machine
end

