-- ==== Sys2Proof/Machine/Panel.lean ====
section
/-! DEFINITION. The external panel of 43 R640: an observer of the panel trace, no state of the block (10 R161, log entry 24). -/

namespace Sys2Proof.Machine

/-- The panel: `CH[0..31]`, `OL[0..31]`, the levels of its inputs, the cycles held since the data lines and since `SCLK`
last changed, and whether every pulse so far kept the clock timing of 43 R642 and 70 R1010. -/
structure Panel where
  chain : List (BitVec 6)
  latch : List (BitVec 6)
  lines : PanelLines
  sclk : Bool
  lat : Bool
  oe : Bool
  stable : Nat
  high : Nat
  timely : Bool
deriving DecidableEq, Repr

/-- One panel event seen (43 R640): a rising `SCLK` edge shifts the colour lines in at `CH[0]`; a falling `LAT` edge copies
the chain to the latch. `need` is 1 µs in cycles: the data lines are stable for it before a rising edge and up to the next
falling edge, and `SCLK` is high for it (70 R1010). -/
def Panel.observe (need : Nat) (p : Panel) (e : PanelEvent) : Panel :=
  match e with
  | .lines l => { p with lines := l, stable := 0, timely := p.timely && !p.sclk }
  | .sclk v =>
    { p with
      sclk := v
      chain := if v = true ∧ p.sclk = false then p.lines.rgb :: p.chain.take 31 else p.chain
      high := 0
      timely :=
        p.timely && (if v = true ∧ p.sclk = false then decide (need ≤ p.stable)
          else if v = false ∧ p.sclk = true then decide (need ≤ p.high) else true) }
  | .lat v =>
    { p with
      lat := v
      latch := if v = false ∧ p.lat = true then p.chain else p.latch }
  | .oe v => { p with oe := v }
  | .hold h => { p with stable := p.stable + h.cycles, high := p.high + h.cycles }

/-- The panel after a panel trace, oldest event first. -/
def Panel.watch (need : Nat) (p : Panel) (es : List PanelEvent) : Panel := es.foldl (Panel.observe need) p

/-- The colour, red in bit 0, that a physical row shows at chain position `k` (43 R640): while `OE` is 1, row `ADDR` shows
the top triplet of the latch and row `ADDR + 16` the bottom triplet; all else is dark. A broken clock timing leaves what
was shifted open: a free value (43 R642). -/
def Panel.shows (p : Panel) (row k : Nat) : BitVec 3 :=
  if p.oe = false then 0#3
  else if p.timely = false then Config.freePixel row k
  else if row = p.lines.addr.toNat then (p.latch[k]?.getD 0#6).extractLsb' 0 3
  else if row = p.lines.addr.toNat + 16 then (p.latch[k]?.getD 0#6).extractLsb' 3 3
  else 0#3

/-- The colour of a physical pixel, for a wiring `PANEL_COL_MAP` of physical columns to chain positions (92 D41). -/
def Panel.pixel (colMap : Nat → Nat) (p : Panel) (row col : Nat) : BitVec 3 := p.shows row (colMap col)

end Sys2Proof.Machine
end

