-- ==== Sys2Proof/Safety.lean ====
section
/-! DEFINITION. What holds of every state a run reaches, and what a safe run is. -/

namespace Sys2Proof.Safety

open Sys2Proof.Machine

/-- What every step keeps, whatever is requested: the frame buffer in canonical form, the cooldowns in range (10 R104), a
recorded fault in HALT (10 R126), the positions in range (10 R122, 20 R200), and a configuration that meets its minima. -/
structure Inv (s : State) : Prop where
  memory : Memory.wf s.fb = true
  notifyRange : s.cdNotify.toNat ≤ s.cfg.maxCooldown
  pollRange : s.cdPoll.toNat ≤ s.cfg.maxCooldown
  faultHalts : s.fault = true → s.phase = phaseHalt
  sensorRange : s.mapS.toNat ≤ 23
  byteRange : s.linkByte.toNat ≤ 10
  lengthLegal : s.linkLen = 0#4 ∨ s.linkLen = s.cfg.notifyLen.bytes ∨ s.linkLen = s.cfg.pollLen.bytes
  config : s.cfg.wellFormed = true

/-- A legal cell of a row: one of the three of its half (30 R310). -/
def legalCell (row : Nat) (w : Cell) : Prop := ∃ c : Color, w = resultCell row (halfOf row) c

/-- Every cell of the frame is legal for its row (30 R310, 40 R402). -/
def frameLegal (m : Memory) : Prop := ∀ a, a < 1024 → legalCell (a / 32) (Memory.read m a)

/-- The level of `OE` after a trace, newest event first, if every data, `SCLK` and `LAT` event in it fell while `OE` was 0
(43 R613, R614, 70 R1011, R1012); none if one did not. -/
def oeAfter : List Event → Option Bool
  | [] => some false
  | .panel (.oe v) :: es =>
    match oeAfter es with
    | some _ => some v
    | none => none
  | .panel (.hold _) :: es => oeAfter es
  | .panel (.lines _) :: es => if oeAfter es = some false then some false else none
  | .panel (.sclk _) :: es => if oeAfter es = some false then some false else none
  | .panel (.lat _) :: es => if oeAfter es = some false then some false else none
  | .link _ :: es => oeAfter es

/-- The levels of the panel lines at each position of the `SCAN` phase, between operations (43 R602 to R605). -/
def scanPosition (s : State) : Prop :=
  (s.scanStep = stepRowBegin ∧ s.outLat = false)
  ∨ (s.scanStep = stepShiftSetup ∧ s.outLat = true ∧ s.outOe = false
      ∧ (0 < s.scanCol.toNat → s.outAddr = romRow s.scanRow.toNat))
  ∨ (s.scanStep = stepShiftHigh ∧ s.outLat = true ∧ s.outOe = false ∧ s.outAddr = romRow s.scanRow.toNat)
  ∨ (s.scanStep = stepRowCommit ∧ s.outLat = true ∧ s.outOe = false ∧ s.outAddr = romRow s.scanRow.toNat
      ∧ s.scanCol = 31#5)
  ∨ (s.scanStep = stepRowDwell ∧ s.outLat = false ∧ s.outOe = false ∧ s.outAddr = romRow s.scanRow.toNat
      ∧ s.scanCol = 31#5)

/-- The position outside the `SCAN` phase. -/
def restPosition (s : State) : Prop :=
  s.scanStep = stepRowBegin ∧ s.scanRow = 0#5 ∧ s.scanCol = 0#5 ∧ s.outLat = false

/-- A block that runs as the sequencer runs it: nothing is requested from outside, no fault has been raised, the phase is
one of the six that run, the lines stand as the position says, the link is at rest between frames, every cell is legal,
and so far no data, `SCLK` or `LAT` event fell while the display was enabled. -/
structure Running (s : State) : Prop where
  inv : Inv s
  noRequest : s.request = none
  noFault : s.fault = false
  phaseLegal : s.phase.toNat ≤ 5
  position : if s.phase = phaseScan then scanPosition s else restPosition s
  clockLow : s.outSclk = false
  deselected : s.outCsN = true
  linkClockLow : s.outSck = false
  legal : frameLegal s.fb
  blanked : oeAfter s.trace = some s.outOe

/-- The render function of 42 R505 at a cell index, for a region table: the colour of the sensor whose region holds the
cell, idle where no region does. The regions are disjoint, so the first one found is the only one. -/
def render (t : RegionTable) (bits : BitVec 24) (pos : Byte) (a : Nat) : Cell :=
  match (List.range 24).find? fun k => (regionOf t k).contains (a / 32) (a % 32) with
  | some k => resultCell (a / 32) (halfOf (a / 32)) (colorOfResult (sensorResult bits k) (BitVec.ofNat 5 k) pos)
  | none => idleCell (a / 32)

/-- The panel trace of one row (43 R610), oldest event first: E1, E2, then E3 to E5 for each column, E6, E7, with the
separation the rule gives before each, and the dwell after E7. -/
def rowTrace (c : Config) (m : Memory) (r : Nat) : List PanelEvent :=
  [.oe false, .hold (holdGap c c.tOeGap), .lat true]
    ++ (List.range 32).flatMap (fun col =>
      [.hold holdOne, .lines (decodeCellOf (Memory.read m (cellIndex r col))), .hold (holdAtLeast c c.tSetup), .sclk true,
        .hold (holdAtLeast c c.tSclkHigh), .sclk false])
    ++ [.hold (holdGap c c.tLatGap), .lat false, .hold (holdGap c c.tOeGap), .oe true,
      .hold (holdExactly c c.tDwell)]

/-- The panel trace of one refresh (43 R610). -/
def refreshTrace (c : Config) (m : Memory) : List PanelEvent :=
  (List.range 32).flatMap (rowTrace c m) ++ (if c.blankBetweenRefresh then [.oe false] else [])

/-- The environment after `n` bits are sampled on `MISO`. -/
def envAfterBits : Nat → Env → Env
  | 0, e => e
  | n + 1, e =>
    match e.miso with
    | _ :: bs => envAfterBits n { e with miso := bs }
    | [] => envAfterBits n { e with draws := e.draws + 1 }

/-- The next `n` bits the environment supplies on `MISO`, scheduled or free (44 R742). -/
def misoBits : Nat → Env → List Bool
  | 0, _ => []
  | n + 1, e =>
    match e.miso with
    | b :: bs => b :: misoBits n { e with miso := bs }
    | [] => Config.freeMiso e.draws :: misoBits n { e with draws := e.draws + 1 }

/-- The next `n` bytes the environment supplies, most significant bit first (44 R741). -/
def misoBytes (n : Nat) (e : Env) : List Byte := packBytes (misoBits (8 * n) e)

/-- The link trace of one bit (44 R743), oldest event first. -/
def bitTrace (c : Config) (sent received : Bool) : List LinkEvent :=
  [.mosi sent, .hold (holdHalf c), .sck true, .miso received, .hold (holdHalf c), .sck false]

/-- The link trace of a row of bits, the first after a gap given, the others one cycle after `SCK` fell (00_scope R15). -/
def bitsTrace (c : Config) (gap : List LinkEvent) : List Bool → List Bool → List LinkEvent
  | t :: ts, r :: rs => gap ++ bitTrace c t r ++ bitsTrace c [.hold holdOne] ts rs
  | _, _ => []

/-- The link trace of a frame (44 R740), oldest event first. -/
def frameTrace (c : Config) (sent : List Byte) (received : List Bool) : List LinkEvent :=
  [.csN false, .hold (holdHalf c)] ++ bitsTrace c [] (unpackBytes sent) received
    ++ [.hold (holdHalf c), .csN true, .hold (holdAtLeast c c.tCsIdle)]

/-- The first `n` bytes of a buffer. -/
def firstBytes (n : Nat) (b : FrameBuf) : List Byte := b.toList.take n

/-- The block after `n` ticks in a row. -/
def afterTicks : Nat → State → Outcome
  | 0, s => .next s
  | n + 1, s =>
    match exec .tick s with
    | .next t => afterTicks n t
    | .fault f => .fault f
    | .refused r => .refused r

/-- The block after a row of FB_SETs. -/
def afterFbSets : List (BitVec 8 × BitVec 8 × Cell) → State → Outcome
  | [], s => .next s
  | (row, col, cell) :: l, s =>
    match exec (.fbSet row col cell) s with
    | .next t => afterFbSets l t
    | .fault f => .fault f
    | .refused r => .refused r

/-- The block after complete MAP_ALLs, the held registers standing at each as the list says (42 R505). -/
def afterMapAlls : List (BitVec 24 × Byte) → State → Outcome
  | [], s => .next s
  | (bits, pos) :: l, s =>
    match exec .mapAll { s with heldBits := bits, heldPos := pos } with
    | .next t => afterMapAlls l t
    | .fault f => .fault f
    | .refused r => .refused r

/-- The block after `n` turns of the sequencer in a row. -/
def afterTurns : Nat → State → Outcome
  | 0, s => .next s
  | n + 1, s =>
    match sequencerTurn s with
    | .next t => afterTurns n t
    | .fault f => .fault f
    | .refused r => .refused r

/-- The elements of 10 R100. -/
inductive Element where
  | fb | heldBits | heldPos | heldCheck | cdNotify | cdPoll | btnSample | txBuf | rxBuf | phase | initIdx | mapS | scanRow
  | scanCol | scanStep | linkLen | linkByte | linkBit | waitCnt | fault | faultCode | outAddr | outRgb | outSclk | outLat
  | outOe | outCsN | outSck | outMosi
deriving DecidableEq, Repr

/-- Two states agree on an element. -/
def sameElement (e : Element) (s t : State) : Prop :=
  match e with
  | .fb => t.fb = s.fb
  | .heldBits => t.heldBits = s.heldBits
  | .heldPos => t.heldPos = s.heldPos
  | .heldCheck => t.heldCheck = s.heldCheck
  | .cdNotify => t.cdNotify = s.cdNotify
  | .cdPoll => t.cdPoll = s.cdPoll
  | .btnSample => t.btnSample = s.btnSample
  | .txBuf => t.txBuf = s.txBuf
  | .rxBuf => t.rxBuf = s.rxBuf
  | .phase => t.phase = s.phase
  | .initIdx => t.initIdx = s.initIdx
  | .mapS => t.mapS = s.mapS
  | .scanRow => t.scanRow = s.scanRow
  | .scanCol => t.scanCol = s.scanCol
  | .scanStep => t.scanStep = s.scanStep
  | .linkLen => t.linkLen = s.linkLen
  | .linkByte => t.linkByte = s.linkByte
  | .linkBit => t.linkBit = s.linkBit
  | .waitCnt => t.waitCnt = s.waitCnt
  | .fault => t.fault = s.fault
  | .faultCode => t.faultCode = s.faultCode
  | .outAddr => t.outAddr = s.outAddr
  | .outRgb => t.outRgb = s.outRgb
  | .outSclk => t.outSclk = s.outSclk
  | .outLat => t.outLat = s.outLat
  | .outOe => t.outOe = s.outOe
  | .outCsN => t.outCsN = s.outCsN
  | .outSck => t.outSck = s.outSck
  | .outMosi => t.outMosi = s.outMosi

/-- What the framer writes in a frame (44 R740 to R743). -/
def frameWrites : List Element := [.rxBuf, .linkByte, .linkBit, .waitCnt, .outCsN, .outSck, .outMosi]

/-- What POLL_ACCEPT writes (44 R750). -/
def heldWrites : List Element := [.heldBits, .heldPos, .heldCheck]

/-- What the fault state writes (60 R910). -/
def haltWrites : List Element := [.fault, .faultCode, .phase, .outOe, .outSclk, .outLat, .outCsN, .outSck]

/-- What a refresh writes (43 R601). -/
def refreshWrites : List Element :=
  [.outAddr, .outRgb, .outSclk, .outLat, .outOe, .scanRow, .scanCol, .scanStep, .waitCnt, .phase]

/-- The state an operation writes, from the rules' lists of state written and the writer column of 10 R100; what raising a
fault writes is apart, but for CYCLE, which has written before it faults. The composites and whole phases write what
their parts write (log entries 13 and 14 for the formats). -/
def writes : Instr → List Element
  | .cellRedTop _ => []
  | .cellGreenTop _ => []
  | .cellBlueTop _ => []
  | .cellRedBot _ => []
  | .cellGreenBot _ => []
  | .cellBlueBot _ => []
  | .frameNotify _ => [.txBuf, .linkLen]
  | .framePollReq => [.txBuf, .linkLen]
  | .framePollRsp _ _ _ _ _ _ => .rxBuf :: heldWrites
  | .init => [.fb, .initIdx, .phase]
  | .select => [.btnSample, .phase]
  | .notifySend => [.txBuf, .linkLen, .cdNotify, .phase] ++ frameWrites
  | .pollExchange => [.txBuf, .linkLen, .cdPoll, .phase] ++ frameWrites ++ heldWrites
  | .mapAll => [.fb, .mapS, .phase]
  | .scanRefresh => refreshWrites
  | .halt => []
  | .rowBegin => [.outOe, .outLat, .scanCol, .scanStep, .waitCnt]
  | .shiftSetup => [.outAddr, .outRgb, .scanStep, .waitCnt]
  | .shiftHigh => [.outSclk, .scanCol, .scanStep, .waitCnt]
  | .rowCommit => [.outLat, .scanStep, .waitCnt]
  | .rowDwell => [.outOe, .scanRow, .scanCol, .scanStep, .waitCnt, .phase]
  | .shiftCell => [.outAddr, .outRgb, .outSclk, .scanCol, .scanStep, .waitCnt]
  | .refreshEnd => [.outOe, .scanRow, .scanCol, .scanStep, .phase]
  | .cycle =>
    [.btnSample, .txBuf, .linkLen, .cdNotify, .cdPoll, .fb, .mapS] ++ frameWrites ++ heldWrites ++ refreshWrites ++ haltWrites
  | .reset =>
    [.fb, .cdNotify, .cdPoll, .btnSample, .txBuf, .initIdx, .mapS, .linkLen] ++ frameWrites ++ heldWrites ++ refreshWrites
      ++ haltWrites
  | .tick => [.cdNotify, .cdPoll]
  | .xfer _ => frameWrites
  | .xferByte _ => [.rxBuf, .linkBit, .waitCnt, .outSck, .outMosi]
  | .xferBit _ => [.linkBit, .waitCnt, .outSck, .outMosi]
  | .pollAccept => heldWrites
  | .rowAddr _ => []
  | .encodeIdle _ => []
  | .encodeResult _ _ _ => []
  | .decodeCell _ => []
  | .fbSet _ _ _ => [.fb]
  | .fbRead _ _ => []
  | .fbResetToIdle => [.fb]
  | .resultOf _ _ => []
  | .colorOf _ _ _ => []
  | .mapApply _ _ _ => [.fb]

/-- Whether a cell of the frame is in the region of one of the 24 sensors. -/
def inRegion (t : RegionTable) (row col : Nat) : Prop := ∃ k, k < 24 ∧ (regionOf t k).contains row col = true

/-- The data lines driven in a panel trace, in its order. -/
def drivenLines : List PanelEvent → List PanelLines
  | [] => []
  | .lines l :: es => l :: drivenLines es
  | .sclk _ :: es => drivenLines es
  | .lat _ :: es => drivenLines es
  | .oe _ :: es => drivenLines es
  | .hold _ :: es => drivenLines es

/-- A data, `SCLK` or `LAT` event: one that shifts or latches, whatever `OE` and the holds are (43 R612, R613). -/
def shiftsOrLatches : PanelEvent → Bool
  | .lines _ => true
  | .sclk _ => true
  | .lat _ => true
  | .oe _ => false
  | .hold _ => false

end Sys2Proof.Safety
end

