-- ==== Sys2Proof/Certificates/Slice0/Obligations.lean ====
section
/-! DEFINITION. The statements about the block. Each docstring says which rule a statement formalises, and which log entry
where it says a choice of the model. A statement about a free value (`nextButtons`, `misoBits`, `nextTurn`) holds whatever
it is. -/

open Sys2Proof Sys2Proof.Machine Sys2Proof.Safety

/-! ## Encodings -/

/-- Decoding the encoding of a well-formed operation gives it back, for every operation and every operand (30 R300 to R310,
spec/opcode_table.json; the lanes are log entry 3). -/
def Obligations.DecodeEncodeAgree : Prop :=
  ∀ i : Instr, i.wellFormed = true → decode (encode i) = .ok i

/-- Every word that decodes gives a well-formed operation, the notify frame with mask 0 apart, which decodes and is never
sent (30 R303, R320; log entry 25). -/
def Obligations.DecodedOperationsAreWellFormed : Prop :=
  ∀ (w : OpWord) (i : Instr), decode w = .ok i → i.wellFormed = true ∨ i = .frameNotify 0#4

/-- On a lane without don't-care bits, a word that decodes is the encoding of what it decodes to: no bit is dropped and no
reserved encoding falls through to a neighbour (30 R320; log entry 3). -/
def Obligations.DecodedWordsEncodeBack : Prop :=
  ∀ (w : OpWord) (i : Instr), decode w = .ok i → w.lane ≠ .sequencer → w.lane ≠ .refresh → w.lane ≠ .shift →
    w.lane ≠ .cycle → encode i = w

/-- A few words written out from the spec: cells (30 R310), frames (30 R303, R304), sequencer words (30 R330, R331), and
words the spec reserves (30 R320). The model's choice, log entry 3: a 16-bit word of a cell or a frame also fits DECODE_CELL,
and a word of a scan step also fits a composite operation; `decodeTableWord` reads the row named here. -/
def Obligations.SpecWordsDecode : Prop :=
  decodeTableWord 16 0x0049 = some (.cellBlueTop 9#4)
    ∧ decodeTableWord 16 0x0105 = some (.cellGreenBot 5#4)
    ∧ decodeTableWord 16 0x5505 = some (.frameNotify 5#4)
    ∧ decodeTableWord 88 0x5510000000000000000000 = some .framePollReq
    ∧ decodeTableWord 88 0x1234567855100180000517 = some (.framePollRsp 0x12345678#32 0x01#8 0x80#8 0x00#8 0x05#8 0x17#8)
    ∧ decodeTableWord 8 0b010000 = some .notifySend
    ∧ decodeTableWord 8 0b101011 = some .rowCommit
    ∧ decodeTableWord 8 0b111000 = some .halt
    ∧ decodeTableWord 8 0b110000 = none
    ∧ decodeTableWord 8 0b101101 = none

/-! ## Steps, ticks, reset, faults -/

/-- A sequencer's turn runs the operation its word decodes to: the sequencer word `PHASE ++ SCAN_STEP`, or the request that
stands outside HALT (30 R330, R331; what a request is, log entries 2 and 23). -/
def Obligations.StepRunsDecodedOperation : Prop :=
  ∀ (s : State) (i : Instr), nextTurn s = .sequencer →
    decode (if s.phase = phaseHalt then opWord .sequencer (s.phase ++ s.scanStep)
      else s.request.getD (opWord .sequencer (s.phase ++ s.scanStep))) = .ok i →
    step s = exec i { s with env := (takeTurn s).env, request := none }

/-- A sequencer's turn at a reserved `PHASE`, or at a reserved `SCAN_STEP` in the `SCAN` phase, raises `RESERVED_STATE`
(30 R320, R330, R331, 60 R901; `SCAN_STEP` outside `SCAN` is log entry 22). -/
def Obligations.ReservedStateRaisesFault : Prop :=
  ∀ s : State, nextTurn s = .sequencer → s.request = none →
    (s.phase = 0b110#3 ∨ (s.phase = 0b101#3 ∧ 5 ≤ s.scanStep.toNat)) →
    step s = .next (raiseFault 4#4 { s with env := (takeTurn s).env })

/-- TICK, as an operation and as a turn of its own: both counters go down by one, floored at 0, and nothing else changes
(44 R710). -/
def Obligations.TickDecrementsBothCounters : Prop :=
  (∀ s : State, exec .tick s = .next { s with
      cdNotify := if 0 < s.cdNotify.toNat then s.cdNotify - 1#16 else 0#16
      cdPoll := if 0 < s.cdPoll.toNat then s.cdPoll - 1#16 else 0#16 })
    ∧ ∀ s : State, nextTurn s = .tick → step s = .next { s with
      env := (takeTurn s).env
      cdNotify := if 0 < s.cdNotify.toNat then s.cdNotify - 1#16 else 0#16
      cdPoll := if 0 < s.cdPoll.toNat then s.cdPoll - 1#16 else 0#16 }

/-- The cooldown law: after `n` ticks a counter that started at `v` is `max(0, v - n)`, so it never rises (44 R713). -/
def Obligations.CooldownFloorsAtZero : Prop :=
  ∀ (n : Nat) (s : State), ∃ a b : BitVec 16,
    afterTicks n s = .next { s with cdNotify := a, cdPoll := b }
      ∧ a.toNat = max 0 (s.cdNotify.toNat - n) ∧ b.toNat = max 0 (s.cdPoll.toNat - n)
      ∧ a.toNat ≤ s.cdNotify.toNat ∧ b.toNat ≤ s.cdPoll.toNat

/-- A tick in the cycle of a reload: the reloaded counter takes the reload value and the other one still goes down (44
R712). -/
def Obligations.ReloadWinsOverTick : Prop :=
  (∀ s : State, nextTurn s = .sequencerWithTick → s.request = none → s.phase = phaseNotify →
      ∃ t, step s = .next t ∧ t.cdNotify = s.cfg.cooldownNotify ∧ t.cdPoll.toNat = s.cdPoll.toNat - 1)
    ∧ ∀ s : State, nextTurn s = .sequencerWithTick → s.request = none → s.phase = phasePoll →
      ∃ t, step s = .next t ∧ t.cdPoll = s.cfg.cooldownPoll ∧ t.cdNotify.toNat = s.cdNotify.toNat - 1

/-- A tick in the cycle of a SELECT: the branch is taken on the counters as they stood at the start of the cycle, and both
then go down (20 R221, 44 R720; the order within the step is log entry 6). -/
def Obligations.SelectReadsBeforeTheTick : Prop :=
  ∀ s : State, nextTurn s = .sequencerWithTick → s.request = none → s.phase = phaseSelect →
    ∃ t u, exec .select { s with env := (takeTurn s).env } = .next t ∧ exec .tick t = .next u ∧ step s = .next u

/-- A reset turn gives every element its reset value, wherever it cuts the operation under way short; only the
configuration, the environment and what was seen on the traces are left (60 R921, 70 R1000; log entries 7 and 20). That the
frame buffer already reads idle at the reset turn is the model's choice, log entry 8: 70 R1001 leaves it open until INIT
completes. -/
def Obligations.ResetTurnReinitialises : Prop :=
  ∀ (s : State) (cut : Nat), nextTurn s = .reset cut →
    ∃ (e : Env) (tr : List Event), step s = .next { State.resetWith s.cfg with env := e, trace := resetTrace ++ tr }
      ∧ (cut = 0 → e = (takeTurn s).env ∧ tr = s.trace)

/-- The reset values: what RESET leaves, with the frame buffer idle once INIT completes (70 R1001), and the same values in
the state the machine starts from. -/
def Obligations.ResetLeavesResetValues : Prop :=
  (∀ s : State, ∃ t u : State, exec .reset s = .next t ∧ exec .init t = .next u
      ∧ (∀ row col, row < 32 → col < 32 → Memory.read u.fb (row * 32 + col) = idleCell row)
      ∧ t.heldBits = s.cfg.resetBitfield ∧ t.heldPos = s.cfg.resetPos ∧ t.heldCheck = 0#8
      ∧ t.cdNotify = s.cfg.resetCooldown ∧ t.cdPoll = s.cfg.resetCooldown ∧ t.btnSample = 0#4
      ∧ (∀ k, k ≤ 10 → FrameBuf.byte t.txBuf k = 0#8 ∧ FrameBuf.byte t.rxBuf k = 0#8)
      ∧ t.phase = 0b000#3 ∧ t.initIdx = 0#10 ∧ t.mapS = 0#5 ∧ t.scanRow = 0#5 ∧ t.scanCol = 0#5 ∧ t.linkByte = 0#4
      ∧ t.linkLen = 0#4 ∧ t.waitCnt = 0 ∧ t.scanStep = 0#3 ∧ t.linkBit = 7#3 ∧ t.fault = false ∧ t.faultCode = 0#4
      ∧ t.outOe = false ∧ t.outLat = false ∧ t.outSclk = false ∧ t.outAddr = 0#4 ∧ t.outRgb = 0#6
      ∧ t.outCsN = true ∧ t.outSck = false ∧ t.outMosi = false)
    ∧ State.reset = State.resetWith State.reset.cfg
    ∧ State.reset.cfg.resetBitfield = 0x000000#24 ∧ State.reset.cfg.resetPos = 0x00#8 ∧ State.reset.cfg.resetCooldown = 0#16

/-- Entry into HALT writes `FAULT`, `FAULT_CODE`, `PHASE` and the five named outputs and nothing else (60 R910); the HALT
row enters it with the code that stands in `FAULT_CODE`, and does nothing once the fault is recorded (log entry 17). -/
def Obligations.HaltEntryQuietsTheOutputs : Prop :=
  (∀ (code : BitVec 4) (s : State), raiseFault code s = { s with
      fault := true, faultCode := code, phase := 0b111#3
      outOe := false, outSclk := false, outLat := false, outCsN := true, outSck := false
      trace := [.link (.sck false), .link (.csN true), .panel (.lat false), .panel (.sclk false), .panel (.oe false)]
        ++ s.trace })
    ∧ ∀ s : State, exec .halt s =
      .next (if s.fault = true ∧ s.phase = 0b111#3 then s else raiseFault s.faultCode s)

/-- A halted block executes nothing, whatever is requested; ticks still go down; only a reset leaves HALT (60 R910, R911;
log entry 23). -/
def Obligations.HaltLeftOnlyByReset : Prop :=
  ∀ s : State, s.fault = true → s.phase = phaseHalt →
    match nextTurn s with
    | .sequencer => step s = .next { s with env := (takeTurn s).env, request := none }
    | .tick => step s = .next { s with
        env := (takeTurn s).env, cdNotify := countDown s.cdNotify, cdPoll := countDown s.cdPoll }
    | .sequencerWithTick => step s = .next { s with
        env := (takeTurn s).env, request := none, cdNotify := countDown s.cdNotify, cdPoll := countDown s.cdPoll }
    | .reset _ => ∃ t, step s = .next t ∧ t.phase = phaseInit ∧ t.fault = false ∧ t.faultCode = 0#4

/-! ## The cell codec -/

/-- ROW_ADDR returns `r mod 16`, and raises `ROW_RANGE` above 31 (40 R410). -/
def Obligations.RowAddrGivesRowModSixteen : Prop :=
  ∀ (row : BitVec 8) (s : State), exec (.rowAddr row) s =
    .next (if row.toNat ≤ 31 then { s with ret := .addr (BitVec.ofNat 4 (row.toNat % 16)) } else raiseFault 1#4 s)

/-- ENCODE_IDLE returns `0x0040 | a` for a top row and `0x0200 | a` for a bottom row, `a` being `r mod 16` (40 R420). -/
def Obligations.EncodeIdleGivesBlueCell : Prop :=
  ∀ (row : BitVec 8) (s : State), exec (.encodeIdle row) s =
    .next (if row.toNat ≤ 15 then { s with ret := .cell (0x0040#16 ||| BitVec.ofNat 16 (row.toNat % 16)) }
      else if row.toNat ≤ 31 then { s with ret := .cell (0x0200#16 ||| BitVec.ofNat 16 (row.toNat % 16)) }
      else raiseFault 1#4 s)

/-- ENCODE_RESULT returns the row's address bits OR'd with the one bit of the half and the colour, whatever the row's half;
with the row's own half, blue is the idle cell (40 R421). -/
def Obligations.EncodeResultGivesOneColourCell : Prop :=
  (∀ (row : BitVec 8) (h : Half) (c : Color) (s : State), exec (.encodeResult row h c) s =
      .next (if row.toNat ≤ 31 then
        { s with ret := .cell (BitVec.ofNat 16 (row.toNat % 16) ||| (match h, c with
          | .top, .red => 0x0010#16
          | .top, .green => 0x0020#16
          | .top, .blue => 0x0040#16
          | .bottom, .red => 0x0080#16
          | .bottom, .green => 0x0100#16
          | .bottom, .blue => 0x0200#16)) }
        else raiseFault 1#4 s))
    ∧ ∀ (row : BitVec 8) (s : State), row.toNat ≤ 31 →
      exec (.encodeResult row (if row.toNat ≤ 15 then .top else .bottom) .blue) s = exec (.encodeIdle row) s

/-- DECODE_CELL returns `ADDR` from bits 3:0 and the colour lines R1 to B2 from bits 4 to 9, and drops bits 15:10 (40
R424). -/
def Obligations.DecodeCellReadsTenBits : Prop :=
  ∀ (w : Cell) (s : State), ∃ l : PanelLines, exec (.decodeCell w) s = .next { s with ret := .lines l }
    ∧ (∀ i, i < 4 → l.addr.getLsbD i = w.getLsbD i) ∧ ∀ i, i < 6 → l.rgb.getLsbD i = w.getLsbD (4 + i)

/-- The laws of the codec: the address bits never depend on the colour (40 R430), exactly one colour bit is set and the
reserved bits are clear (40 R431), and decoding a result cell gives back its address and its one line (40 R432). -/
def Obligations.CodecSeparatesAddressAndColour : Prop :=
  ∀ (row : BitVec 8) (h : Half) (c : Color) (s : State), row.toNat ≤ 31 →
    ∃ w v : Cell, exec (.encodeResult row h c) s = .next { s with ret := .cell w }
      ∧ exec (.encodeIdle row) s = .next { s with ret := .cell v }
      ∧ w.extractLsb' 0 4 = BitVec.ofNat 4 (row.toNat % 16) ∧ v.extractLsb' 0 4 = BitVec.ofNat 4 (row.toNat % 16)
      ∧ (∃ i, i < 6 ∧ w.getLsbD (4 + i) = true ∧ ∀ j, j < 6 → w.getLsbD (4 + j) = true → j = i)
      ∧ (∃ i, i < 6 ∧ v.getLsbD (4 + i) = true ∧ ∀ j, j < 6 → v.getLsbD (4 + j) = true → j = i)
      ∧ w.extractLsb' 10 6 = 0#6 ∧ v.extractLsb' 10 6 = 0#6
      ∧ exec (.decodeCell w) s =
        .next { s with ret := .lines ⟨BitVec.ofNat 4 (row.toNat % 16), 1#6 <<< (colourBit h c - 4)⟩ }

/-- The six legal cells: each returns the lines it drives and changes nothing else (30 R302, R310; that a cell pattern is
an operation of this form is log entry 13). -/
def Obligations.LegalCellsDriveOneColourLine : Prop :=
  ∀ (a : BitVec 4) (s : State),
    exec (.cellRedTop a) s = .next { s with ret := .lines { addr := a, rgb := 0b000001#6 } }
      ∧ exec (.cellGreenTop a) s = .next { s with ret := .lines { addr := a, rgb := 0b000010#6 } }
      ∧ exec (.cellBlueTop a) s = .next { s with ret := .lines { addr := a, rgb := 0b000100#6 } }
      ∧ exec (.cellRedBot a) s = .next { s with ret := .lines { addr := a, rgb := 0b001000#6 } }
      ∧ exec (.cellGreenBot a) s = .next { s with ret := .lines { addr := a, rgb := 0b010000#6 } }
      ∧ exec (.cellBlueBot a) s = .next { s with ret := .lines { addr := a, rgb := 0b100000#6 } }

/-! ## The wire frames -/

/-- The request frames: FRAME_NOTIFY puts `SYNC` and the mask in `TX_BUF[0..1]`, FRAME_POLL_REQ puts `SYNC`, `CMD_READY` and
nine zeros in `TX_BUF`, each with its length in `LINK_LEN`, and nothing else changes; by default they are `55 0m` and 2,
`55 10 00 ..` and 11 (30 R303, R304, 44 R730, R735; log entry 14). -/
def Obligations.RequestFramesStandInTxBuf : Prop :=
  (∀ (mask : BitVec 4) (s : State), exec (.frameNotify mask) s = .next { s with
      txBuf := (s.txBuf.set 0 s.cfg.sync).set 1 (0#4 ++ mask : BitVec 8), linkLen := s.cfg.notifyLen.bytes })
    ∧ (∀ s : State, exec .framePollReq s = .next { s with
      txBuf := #v[s.cfg.sync, s.cfg.cmdReady, 0#8, 0#8, 0#8, 0#8, 0#8, 0#8, 0#8, 0#8, 0#8]
      linkLen := s.cfg.pollLen.bytes })
    ∧ State.reset.cfg.sync = 0x55#8 ∧ State.reset.cfg.cmdReady = 0x10#8 ∧ State.reset.cfg.notifyLen.bytes = 2#4
    ∧ State.reset.cfg.pollLen.bytes = 11#4

/-- The response frame: FRAME_POLL_RSP puts its bytes in `RX_BUF` and is accepted, its bitfield big-endian, bytes 0 to 3
having no effect on the held registers (30 R305, R306, 20 R205; log entry 14). -/
def Obligations.ResponseFrameIsAccepted : Prop :=
  ∀ (x : BitVec 32) (check hi mid lo pos : Byte) (s : State), exec (.framePollRsp x check hi mid lo pos) s =
    .next { s with
      rxBuf := #v[x.extractLsb' 24 8, x.extractLsb' 16 8, x.extractLsb' 8 8, x.extractLsb' 0 8, s.cfg.sync, s.cfg.cmdReady,
        check, hi, mid, lo, pos]
      heldCheck := check
      heldBits := (hi.setWidth 24 <<< 16) ||| (mid.setWidth 24 <<< 8) ||| lo.setWidth 24
      heldPos := pos }

/-! ## The frame buffer -/

/-- FB_SET writes one cell, or raises `ROW_RANGE` or `COL_RANGE`; writing what the cell holds changes nothing (41 R450). -/
def Obligations.FbSetWritesOneCell : Prop :=
  ∀ (row col : BitVec 8) (w : Cell) (s : State), Memory.wf s.fb = true →
    if 31 < row.toNat then exec (.fbSet row col w) s = .next (raiseFault 1#4 s)
    else if 31 < col.toNat then exec (.fbSet row col w) s = .next (raiseFault 2#4 s)
    else ∃ m : Memory, exec (.fbSet row col w) s = .next { s with fb := m } ∧ Memory.wf m = true
      ∧ (∀ a, Memory.read m a = if a = row.toNat * 32 + col.toNat then w else Memory.read s.fb a)
      ∧ (Memory.read s.fb (row.toNat * 32 + col.toNat) = w → m = s.fb)

/-- FB_READ returns the cell at `row × 32 + col` (41 R451), the last value written there (20 R229). -/
def Obligations.FbReadReturnsLastWrite : Prop :=
  (∀ (row col : BitVec 5) (s : State),
      exec (.fbRead row col) s = .next { s with ret := .cell (Memory.read s.fb (row.toNat * 32 + col.toNat)) })
    ∧ ∀ (row col : BitVec 5) (w : Cell) (s : State), Memory.wf s.fb = true →
      ∃ t, exec (.fbSet (row.setWidth 8) (col.setWidth 8) w) s = .next t
        ∧ exec (.fbRead row col) t = .next { t with ret := .cell w }

/-- FB_RESET_TO_IDLE fills every cell with its row's idle encoding, whatever the buffer held (41 R452, R454). -/
def Obligations.ResetToIdleFillsTheFrame : Prop :=
  ∀ s : State, Memory.wf s.fb = true →
    ∃ m : Memory, exec .fbResetToIdle s = .next { s with fb := m } ∧ Memory.wf m = true
      ∧ (∀ row col, row < 32 → col < 32 → Memory.read m (row * 32 + col) = idleCell row)
      ∧ ∀ s' : State, Memory.wf s'.fb = true → exec .fbResetToIdle s' = .next { s' with fb := m }

/-- INIT fills the frame buffer with the idle pattern, counts `INIT_IDX` to 1023 and goes on to SELECT; no output changes
(70 R1002). -/
def Obligations.InitFillsTheFrameAndSelects : Prop :=
  ∀ s : State, Memory.wf s.fb = true →
    ∃ m : Memory, exec .init s = .next { s with fb := m, initIdx := 1023#10, phase := 0b001#3 } ∧ Memory.wf m = true
      ∧ ∀ row col, row < 32 → col < 32 → Memory.read m (row * 32 + col) = idleCell row

/-- FB_SETs to distinct cells leave one buffer, in whatever order they run (41 R453). -/
def Obligations.FbSetOrderIsImmaterial : Prop :=
  ∀ (l l' : List (BitVec 8 × BitVec 8 × Cell)) (s : State), Memory.wf s.fb = true →
    (∀ p ∈ l, p.1.toNat ≤ 31 ∧ p.2.1.toNat ≤ 31) → (l.map fun p => (p.1, p.2.1)).Nodup → l.Perm l' →
    ∃ m : Memory, afterFbSets l s = .next { s with fb := m } ∧ afterFbSets l' s = .next { s with fb := m }

/-! ## The mapper -/

/-- RESULT_OF returns Pass (1) for a bit that is 1 and Fail (0) for a bit that is 0, and raises `SENSOR_RANGE` above 23 (42
R501). -/
def Obligations.ResultOfReadsTheSensorBit : Prop :=
  ∀ (bits : BitVec 24) (k : BitVec 5) (s : State), exec (.resultOf bits k) s =
    .next (if k.toNat ≤ 23 then { s with ret := .result (if bits.getLsbD k.toNat = true then 1#2 else 0#2) }
      else raiseFault 3#4 s)

/-- COLOR_OF: red for a Fail that is reached, green for a Pass that is reached, else blue, `RESULT` codes 2 and 3 among
them; the compare is of unsigned 8-bit numbers (42 R502). -/
def Obligations.ColorOfDecidesByReach : Prop :=
  ∀ (result : ResultCode) (k : BitVec 5) (pos : Byte) (s : State), exec (.colorOf result k pos) s =
    .next { s with ret := .color (if result = 0#2 ∧ k.toNat ≤ pos.toNat then .red
      else if result = 1#2 ∧ k.toNat ≤ pos.toNat then .green else .blue) }

/-- MAP_APPLY paints the 12 cells of the sensor's region in one colour, the cell variant being that of the row's half, and
no other cell; above 23 it raises `SENSOR_RANGE` (42 R503). -/
def Obligations.MapApplyPaintsTheRegion : Prop :=
  ∀ (k : BitVec 5) (result : ResultCode) (pos : Byte) (s : State), Memory.wf s.fb = true →
    if 23 < k.toNat then exec (.mapApply k result pos) s = .next (raiseFault 3#4 s)
    else ∃ m : Memory, exec (.mapApply k result pos) s = .next { s with fb := m } ∧ Memory.wf m = true
      ∧ ∀ row col, row < 32 → col < 32 → Memory.read m (row * 32 + col) =
        if (regionOf s.cfg.regionTable k.toNat).baseRow.toNat ≤ row
            ∧ row ≤ (regionOf s.cfg.regionTable k.toNat).baseRow.toNat + 3
            ∧ (regionOf s.cfg.regionTable k.toNat).baseCol.toNat ≤ col
            ∧ col ≤ (regionOf s.cfg.regionTable k.toNat).baseCol.toNat + 2
        then resultCell row (halfOf row) (colorOfResult result k pos) else Memory.read s.fb (row * 32 + col)

/-- Not reached dominates: below the sensor's index the region is painted blue for Fail and for Pass (42 R506); from it on,
Fail paints red and Pass paints green (42 R507). -/
def Obligations.ReachDecidesThePaint : Prop :=
  ∀ (k : BitVec 5) (pos : Byte) (s : State), k.toNat ≤ 23 → Memory.wf s.fb = true →
    ∃ f p : Memory, exec (.mapApply k 0#2 pos) s = .next { s with fb := f }
      ∧ exec (.mapApply k 1#2 pos) s = .next { s with fb := p }
      ∧ ∀ row col, (regionOf s.cfg.regionTable k.toNat).contains row col = true →
        Memory.read f (row * 32 + col) = resultCell row (halfOf row) (if pos.toNat < k.toNat then .blue else .red)
          ∧ Memory.read p (row * 32 + col) = resultCell row (halfOf row) (if pos.toNat < k.toNat then .blue else .green)

/-- MAP_ALL paints all 24 regions from the held registers, leaves every cell outside them, ends with `MAP_S` at 23 and goes
on to SCAN; nothing else changes (42 R504). -/
def Obligations.MapAllPaintsEveryRegion : Prop :=
  ∀ s : State, Memory.wf s.fb = true →
    ∃ m : Memory, exec .mapAll s = .next { s with fb := m, mapS := 23#5, phase := 0b101#3 } ∧ Memory.wf m = true
      ∧ ∀ row col, row < 32 → col < 32 →
        (∀ k, k < 24 → (regionOf s.cfg.regionTable k).contains row col = true →
          Memory.read m (row * 32 + col) = resultCell row (halfOf row)
            (colorOfResult (if s.heldBits.getLsbD k = true then 1#2 else 0#2) (BitVec.ofNat 5 k) s.heldPos))
        ∧ (¬ inRegion s.cfg.regionTable row col → Memory.read m (row * 32 + col) = Memory.read s.fb (row * 32 + col))

/-- After INIT and any number of MAP_ALLs the frame is the render of the registers as they stood at the last one, and the
cells outside every region stay idle (42 R505). -/
def Obligations.MapAllsRenderTheLastResults : Prop :=
  ∀ (s : State) (l : List (BitVec 24 × Byte)) (bits : BitVec 24) (pos : Byte), Memory.wf s.fb = true →
    ∃ t u v : State, exec .init s = .next t ∧ afterMapAlls l t = .next u ∧ afterMapAlls (l ++ [(bits, pos)]) t = .next v
      ∧ (∀ row col, row < 32 → col < 32 → ¬ inRegion s.cfg.regionTable row col →
        Memory.read u.fb (row * 32 + col) = idleCell row)
      ∧ ∀ a, a < 1024 → Memory.read v.fb a = render s.cfg.regionTable bits pos a

/-- Every region table a block is built with meets W1 to W5 (42 R511, 60 R903; log entry 12). -/
def Obligations.RegionTablesMeetTheChecks : Prop :=
  ∀ t : RegionTable,
    (∀ k, k < 24 →
      (regionOf t k).baseRow.toNat + 3 ≤ 31 ∧ (regionOf t k).baseCol.toNat + 2 ≤ 31
        ∧ ((regionOf t k).baseRow.toNat ≤ 12 ∨ (16 ≤ (regionOf t k).baseRow.toNat ∧ (regionOf t k).baseRow.toNat ≤ 28))
        ∧ ((regionOf t k).baseCol.toNat ≤ 13 ∨ (16 ≤ (regionOf t k).baseCol.toNat ∧ (regionOf t k).baseCol.toNat ≤ 29))
        ∧ (regionOf t k).half = (if (regionOf t k).baseRow.toNat ≤ 15 then .top else .bottom))
    ∧ ∀ j k row col, j < 24 → k < 24 → (regionOf t j).contains row col = true → (regionOf t k).contains row col = true →
      j = k

/-! ## The scan driver -/

/-- ROW_BEGIN blanks the panel, then opens the latch (43 R602); ROW_COMMIT closes the latch (43 R604). -/
def Obligations.LatchOpensBlankedAndCloses : Prop :=
  (∀ s : State, exec .rowBegin s = .next { s with
      outOe := false, outLat := true, waitCnt := 0, scanCol := 0#5, scanStep := 1#3
      trace := [.panel (.lat true), .panel (.hold ⟨max 1 (s.cfg.cycles s.cfg.tOeGap), false⟩), .panel (.oe false)]
        ++ s.trace })
    ∧ ∀ s : State, exec .rowCommit s = .next { s with
      outLat := false, waitCnt := 0, scanStep := 4#3
      trace := [.panel (.lat false), .panel (.hold ⟨max 1 (s.cfg.cycles s.cfg.tLatGap), false⟩)] ++ s.trace }

/-- SHIFT_SETUP drives the lines of the cell at the scan position, at least one cycle after the event before; SHIFT_HIGH
pulses `SCLK` and moves the position on; SHIFT_CELL is the one after the other (43 R603). -/
def Obligations.ShiftCellDrivesThenPulses : Prop :=
  (∀ s : State, exec .shiftSetup s = .next { s with
      outAddr := (Memory.read s.fb (s.scanRow.toNat * 32 + s.scanCol.toNat)).extractLsb' 0 4
      outRgb := (Memory.read s.fb (s.scanRow.toNat * 32 + s.scanCol.toNat)).extractLsb' 4 6
      waitCnt := 0, scanStep := 2#3
      trace := [.panel (.hold ⟨s.cfg.cycles s.cfg.tSetup, false⟩),
        .panel (.lines
          { addr := (Memory.read s.fb (s.scanRow.toNat * 32 + s.scanCol.toNat)).extractLsb' 0 4
            rgb := (Memory.read s.fb (s.scanRow.toNat * 32 + s.scanCol.toNat)).extractLsb' 4 6 }),
        .panel (.hold ⟨1, false⟩)] ++ s.trace })
    ∧ (∀ s : State, exec .shiftHigh s = .next { s with
      outSclk := false, waitCnt := 0
      scanCol := if s.scanCol.toNat < 31 then s.scanCol + 1#5 else s.scanCol
      scanStep := if s.scanCol.toNat < 31 then 1#3 else 3#3
      trace := [.panel (.sclk false), .panel (.hold ⟨s.cfg.cycles s.cfg.tSclkHigh, false⟩), .panel (.sclk true)]
        ++ s.trace })
    ∧ ∀ s : State, ∃ t u, exec .shiftSetup s = .next t ∧ exec .shiftHigh t = .next u ∧ exec .shiftCell s = .next u

/-- ROW_DWELL lights the row for exactly the dwell and goes on to the next row, or ends the refresh after row 31 (43 R605);
REFRESH_END rewinds the position and goes on to SELECT, dropping `OE` only if the parameter says so (43 R606). -/
def Obligations.DwellLightsTheRowThenMovesOn : Prop :=
  (∀ s : State, exec .refreshEnd s = .next { s with
      outOe := if s.cfg.blankBetweenRefresh = true then false else s.outOe
      scanRow := 0#5, scanCol := 0#5, scanStep := 0#3, phase := 0b001#3
      trace := (if s.cfg.blankBetweenRefresh = true then [.panel (.oe false)] else []) ++ s.trace })
    ∧ ∀ s : State, ∃ t : State, t = { s with
        outOe := true, waitCnt := 0
        trace := [.panel (.hold ⟨s.cfg.cycles s.cfg.tDwell, true⟩), .panel (.oe true),
          .panel (.hold ⟨max 1 (s.cfg.cycles s.cfg.tOeGap), false⟩)] ++ s.trace }
      ∧ exec .rowDwell s = if s.scanRow.toNat < 31 then .next { t with scanRow := s.scanRow + 1#5, scanStep := 0#3 }
        else exec .refreshEnd t

/-- SCAN_REFRESH puts on the panel exactly the trace of 43 R610, row by row, reads the frame and never writes it, ends at
SELECT with row 31 latched, and raises `RESERVED_STATE` at a reserved `SCAN_STEP` (43 R601). That it starts at row 0 wherever
the scan position stands is log entry 28. -/
def Obligations.RefreshEmitsTheRowTraces : Prop :=
  ∀ s : State, exec .scanRefresh s = .next (if 5 ≤ s.scanStep.toNat then raiseFault 4#4 s else { s with
    outAddr := (Memory.read s.fb 1023).extractLsb' 0 4, outRgb := (Memory.read s.fb 1023).extractLsb' 4 6
    outSclk := false, outLat := false, outOe := !s.cfg.blankBetweenRefresh, waitCnt := 0
    scanRow := 0#5, scanCol := 0#5, scanStep := 0#3, phase := 0b001#3
    trace := ((refreshTrace s.cfg s.fb).map Event.panel).reverse ++ s.trace })

/-- Coverage: what SCAN_REFRESH puts on the panel drives every cell of the frame once, in row-major order, each drive followed
by its one `SCLK` pulse before the next; 1024 pulses, 32 within each of the 32 `LAT` pulses (43 R612). -/
def Obligations.RefreshVisitsEveryCellOnce : Prop :=
  ∀ s : State, s.scanStep.toNat < 5 → ∃ (t : State) (tr : List Event) (rows : List (List PanelEvent)),
    exec .scanRefresh s = .next t ∧ t.trace = tr ++ s.trace
      ∧ drivenLines (panelEvents tr.reverse) = (List.range 1024).map (fun a => decodeCellOf (Memory.read s.fb a))
      ∧ (panelEvents tr.reverse).count (.sclk true) = 1024 ∧ (panelEvents tr.reverse).count (.sclk false) = 1024
      ∧ panelEvents tr.reverse = rows.flatten ++ (if s.cfg.blankBetweenRefresh = true then [.oe false] else [])
      ∧ rows.length = 32
      ∧ (∀ row ∈ rows, row.count (.sclk true) = 32 ∧ row.count (.sclk false) = 32 ∧ row.count (.lat true) = 1
        ∧ row.count (.lat false) = 1)
      ∧ (panelEvents tr.reverse).filter shiftsOrLatches = (List.range 32).flatMap fun row =>
        [.lat true]
          ++ ((List.range 32).flatMap fun col =>
            [.lines (decodeCellOf (Memory.read s.fb (row * 32 + col))), .sclk true, .sclk false])
          ++ [.lat false]

/-- Output-enable discipline: through a refresh no data, `SCLK` or `LAT` event falls while the display is enabled, from
any trace of which that holds (43 R613, R614, 70 R1011, R1012). -/
def Obligations.RefreshShiftsOnlyWhileBlanked : Prop :=
  ∀ (s : State) (b : Bool), s.scanStep.toNat < 5 → oeAfter s.trace = some b →
    ∃ t, exec .scanRefresh s = .next t ∧ oeAfter t.trace = some t.outOe

/-- What the panel shows in the dwell of row `r`: the 67 steps of a row put on the panel the row's trace (43 R610), and a
panel that watches it shows, through its wiring, the colours of the row's 32 cells on physical row `r` and nothing on any
other row (43 R641). That the configuration meets the minima of `T_SCLK_HIGH` and `T_SETUP` is the premise of 43 R642 and 70
R1010. The panel is an observer, log entry 24. -/
def Obligations.DwellShowsTheRowAlone : Prop :=
  ∀ (s : State) (p : Panel) (colMap : Nat → Nat), s.cfg.wellFormed = true → s.request = none → s.phase = phaseScan →
    s.scanStep = stepRowBegin → frameLegal s.fb → p.sclk = false → p.timely = true →
    ∃ (t : State) (tr : List Event) (seen after : List PanelEvent), afterTurns 67 s = .next t ∧ t.trace = tr ++ s.trace
      ∧ panelEvents tr.reverse = seen ++ after ∧ seen = rowTrace s.cfg s.fb s.scanRow.toNat
      ∧ (after = if s.scanRow = 31#5 ∧ s.cfg.blankBetweenRefresh = true then [.oe false] else [])
      ∧ (∀ x col, col < 32 → colMap x = 31 - col →
        Panel.pixel colMap (p.watch (s.cfg.cycles 1000) seen) s.scanRow.toNat x =
          if s.scanRow.toNat < 16 then (Memory.read s.fb (s.scanRow.toNat * 32 + col)).extractLsb' 4 3
          else (Memory.read s.fb (s.scanRow.toNat * 32 + col)).extractLsb' 7 3)
      ∧ ∀ row x, row ≠ s.scanRow.toNat → Panel.pixel colMap (p.watch (s.cfg.cycles 1000) seen) row x = 0#3

/-- The refresh is its steps: 2144 turns of the sequencer from the start of the `SCAN` phase leave what SCAN_REFRESH leaves
(30 R336, 43 R601, R615). -/
def Obligations.RefreshEqualsItsSteps : Prop :=
  ∀ s : State, s.request = none → s.phase = phaseScan → s.scanStep = stepRowBegin → s.scanRow = 0#5 →
    ∃ t, exec .scanRefresh s = .next t ∧ afterTurns 2144 s = .next t ∧ t.phase = phaseSelect

/-! ## The protocol client -/

/-- SELECT samples the buttons and takes exactly one of the three outcomes (44 R720, R721). -/
def Obligations.SelectTakesOneBranch : Prop :=
  ∀ s : State, exec .select s = .next { s with
    env := (takeButtons s).env, btnSample := nextButtons s
    phase :=
      if nextButtons s ≠ 0#4 then (if s.cdNotify = 0#16 then 0b010#3 else 0b100#3)
      else (if s.cdPoll = 0#16 then 0b011#3 else 0b100#3) }

/-- XFER_BIT sends one bit and returns the one sampled on the rising edge of `SCK` (44 R743); that the bit sent is bit `b` of
the byte at `LINK_BYTE` is log entry 18. Where `SCK` has just fallen, one cycle stands before `MOSI` changes (00_scope R15). -/
def Obligations.XferBitExchangesOneBit : Prop :=
  ∀ (b : BitVec 3) (s : State), s.linkByte.toNat ≤ 10 → exec (.xferBit b) s = .next { s with
    outMosi := (FrameBuf.byte s.txBuf s.linkByte.toNat).getLsbD b.toNat
    outSck := false, linkBit := b, waitCnt := 0, env := envAfterBits 1 s.env, ret := .bit (nextMiso s)
    trace := [.link (.sck false), .link (.hold ⟨s.cfg.halfPeriodCycles, false⟩), .link (.miso (nextMiso s)),
      .link (.sck true), .link (.hold ⟨s.cfg.halfPeriodCycles, false⟩),
      .link (.mosi ((FrameBuf.byte s.txBuf s.linkByte.toNat).getLsbD b.toNat))] ++ (sckGap s.trace).map Event.link ++ s.trace }

/-- XFER_BYTE sends byte `k` most significant bit first and stores the byte received at `RX_BUF[k]`, and nowhere else (44
R741). That the byte index is the word's, whatever stands in `LINK_BYTE`, is log entry 18. -/
def Obligations.XferByteStoresTheByteReceived : Prop :=
  ∀ (k : BitVec 4) (s : State), k.toNat ≤ 10 →
    ∃ v : Byte, (∀ b, b < 8 → v.getLsbD b = (misoBits 8 s.env).getD (7 - b) false)
      ∧ exec (.xferByte k) s = .next { s with
        rxBuf := s.rxBuf.setIfInBounds k.toNat v
        outMosi := (FrameBuf.byte s.txBuf k.toNat).getLsbD 0, outSck := false, linkBit := 0#3, waitCnt := 0
        env := envAfterBits 8 s.env
        trace := ((bitsTrace s.cfg (sckGap s.trace) (unpackBytes [FrameBuf.byte s.txBuf k.toNat]) (misoBits 8 s.env)).map
          Event.link).reverse ++ s.trace }

/-- XFER puts one whole frame on the link: `CS_N` low for `NOTIFY_LEN` or `POLL_LEN` bytes (2 or 11), sent from `TX_BUF` and
received into `RX_BUF` (44 R740). That the length is the word's, whatever stands in `LINK_LEN`, is log entry 18. -/
def Obligations.XferExchangesOneFrame : Prop :=
  ∀ (n : BitVec 4) (s : State), n = s.cfg.notifyLen.bytes ∨ n = s.cfg.pollLen.bytes → exec (.xfer n) s = .next { s with
    rxBuf := FrameBuf.fill s.rxBuf 0 (misoBytes n.toNat s.env)
    outMosi := (FrameBuf.byte s.txBuf (n.toNat - 1)).getLsbD 0, outSck := false, outCsN := true, waitCnt := 0
    linkByte := n - 1#4, linkBit := 0#3, env := envAfterBits (8 * n.toNat) s.env
    trace := ((frameTrace s.cfg (firstBytes n.toNat s.txBuf) (misoBits (8 * n.toNat) s.env)).map Event.link).reverse
      ++ s.trace }

/-- The model's choice (log entry 29): the framer stops outside its buffers and frame lengths, which the spec says do not
occur (20 R200, R211). -/
def Obligations.FramerStopsOutsideItsBuffers : Prop :=
  (∀ (n : BitVec 4) (s : State), n ≠ s.cfg.notifyLen.bytes → n ≠ s.cfg.pollLen.bytes → exec (.xfer n) s = .refused .frameLength)
    ∧ (∀ (k : BitVec 4) (s : State), 10 < k.toNat → exec (.xferByte k) s = .fault .noSuchByte)
    ∧ ∀ (b : BitVec 3) (s : State), 10 < s.linkByte.toNat → exec (.xferBit b) s = .fault .noSuchByte

/-- What XFER puts on the link is, to an observer, one frame: the first bytes of `TX_BUF` sent and the bytes the peer drove
received, byte 0 first and most significant bit first (20 R206, 44 R700, 00_scope R11). -/
def Obligations.FrameTraceCarriesItsBytes : Prop :=
  ∀ (n : BitVec 4) (s : State), n = s.cfg.notifyLen.bytes ∨ n = s.cfg.pollLen.bytes →
    ∃ (t : State) (tr : List Event), exec (.xfer n) s = .next t ∧ t.trace = tr ++ s.trace
      ∧ panelEvents tr.reverse = []
      ∧ wireFrames (linkEvents tr.reverse) = [{ mosi := firstBytes n.toNat s.txBuf, miso := misoBytes n.toNat s.env }]

/-- NOTIFY_SEND sends `SYNC` and the mask as one frame, by default the two bytes `55 0m`, reloads the notify cooldown, and
goes on to MAP; the poll cooldown and the held results are not touched (44 R730). -/
def Obligations.NotifySendsTheMask : Prop :=
  (∀ s : State, ∃ tx : FrameBuf, tx = (s.txBuf.set 0 s.cfg.sync).set 1 (0#4 ++ s.btnSample : BitVec 8)
    ∧ exec .notifySend s = .next { s with
      txBuf := tx, rxBuf := FrameBuf.fill s.rxBuf 0 (misoBytes s.cfg.notifyLen.bytes.toNat s.env)
      linkLen := s.cfg.notifyLen.bytes, linkByte := s.cfg.notifyLen.bytes - 1#4, linkBit := 0#3, waitCnt := 0
      outMosi := (FrameBuf.byte tx (s.cfg.notifyLen.bytes.toNat - 1)).getLsbD 0, outSck := false, outCsN := true
      cdNotify := s.cfg.cooldownNotify, phase := 0b100#3, env := envAfterBits (8 * s.cfg.notifyLen.bytes.toNat) s.env
      trace := ((frameTrace s.cfg (firstBytes s.cfg.notifyLen.bytes.toNat tx)
        (misoBits (8 * s.cfg.notifyLen.bytes.toNat) s.env)).map Event.link).reverse ++ s.trace }
    ∧ firstBytes 2 tx = [s.cfg.sync, (0#4 ++ s.btnSample : BitVec 8)])
    ∧ State.reset.cfg.sync = 0x55#8 ∧ State.reset.cfg.notifyLen.bytes = 2#4 ∧ State.reset.cfg.cooldownNotify = 500#16

/-- POLL_EXCHANGE sends the ready-check, by default the eleven bytes `55 10 00 ..`, reloads the poll cooldown whatever comes
back, latches the results if and only if bytes 4 and 5 of the answer are the header, and goes on to MAP (44 R735, R752). -/
def Obligations.PollExchangeLatchesAValidAnswer : Prop :=
  (∀ s : State, ∃ tx rx : FrameBuf, tx = #v[s.cfg.sync, s.cfg.cmdReady, 0#8, 0#8, 0#8, 0#8, 0#8, 0#8, 0#8, 0#8, 0#8]
    ∧ rx = FrameBuf.fill s.rxBuf 0 (misoBytes s.cfg.pollLen.bytes.toNat s.env)
    ∧ exec .pollExchange s = .next { s with
      txBuf := tx, rxBuf := rx
      linkLen := s.cfg.pollLen.bytes, linkByte := s.cfg.pollLen.bytes - 1#4, linkBit := 0#3, waitCnt := 0
      outMosi := (FrameBuf.byte tx (s.cfg.pollLen.bytes.toNat - 1)).getLsbD 0, outSck := false, outCsN := true
      cdPoll := s.cfg.cooldownPoll, phase := 0b100#3, env := envAfterBits (8 * s.cfg.pollLen.bytes.toNat) s.env
      heldCheck := if rx[4] = s.cfg.sync ∧ rx[5] = s.cfg.cmdReady then rx[6] else s.heldCheck
      heldBits := if rx[4] = s.cfg.sync ∧ rx[5] = s.cfg.cmdReady then rx[7] ++ rx[8] ++ rx[9] else s.heldBits
      heldPos := if rx[4] = s.cfg.sync ∧ rx[5] = s.cfg.cmdReady then rx[10] else s.heldPos
      trace := ((frameTrace s.cfg (firstBytes s.cfg.pollLen.bytes.toNat tx)
        (misoBits (8 * s.cfg.pollLen.bytes.toNat) s.env)).map Event.link).reverse ++ s.trace })
    ∧ State.reset.cfg.sync = 0x55#8 ∧ State.reset.cfg.cmdReady = 0x10#8 ∧ State.reset.cfg.pollLen.bytes = 11#4
    ∧ State.reset.cfg.cooldownPoll = 500#16

/-- POLL_ACCEPT writes all three held registers if and only if the header matches, else nothing (44 R750, R751). -/
def Obligations.PollAcceptIsTheHeaderMatch : Prop :=
  (∀ s : State, exec .pollAccept s = .next (if s.rxBuf[4] = s.cfg.sync ∧ s.rxBuf[5] = s.cfg.cmdReady then
    { s with heldCheck := s.rxBuf[6], heldBits := s.rxBuf[7] ++ s.rxBuf[8] ++ s.rxBuf[9], heldPos := s.rxBuf[10] } else s))
    ∧ State.reset.cfg.sync = 0x55#8 ∧ State.reset.cfg.cmdReady = 0x10#8

/-! ## The cycle -/

/-- CYCLE is SELECT, then NOTIFY_SEND, POLL_EXCHANGE or nothing as SELECT chose, then MAP_ALL, then SCAN_REFRESH, whose fault
at a reserved `SCAN_STEP` is the cycle's; else it ends at SELECT (45 R801). That a reserved `SCAN_STEP` stops the cycle only
where its refresh begins is the model's reading, log entry 22. -/
def Obligations.CycleIsItsPhasesInOrder : Prop :=
  ∀ s : State, ∃ a b c d : State, exec .select s = .next a
    ∧ ((a.phase = phaseNotify ∧ exec .notifySend a = .next b) ∨ (a.phase = phasePoll ∧ exec .pollExchange a = .next b)
      ∨ (a.phase = phaseMap ∧ b = a))
    ∧ b.phase = phaseMap ∧ exec .mapAll b = .next c ∧ c.phase = phaseScan ∧ exec .scanRefresh c = .next d
    ∧ exec .cycle s = .next d ∧ d.phase = (if s.scanStep.toNat < 5 then phaseSelect else phaseHalt)

/-- A cycle sends no frame, one notify frame or one poll frame, as the sample and the counters say (45 R802). -/
def Obligations.CycleSendsAtMostOneFrame : Prop :=
  ∀ s : State, s.scanStep.toNat < 5 →
    ∃ (t : State) (tr : List Event), exec .cycle s = .next t ∧ t.trace = tr ++ s.trace
      ∧ wireFrames (linkEvents tr.reverse) =
        if nextButtons s ≠ 0#4 then
          (if s.cdNotify = 0#16 then
            [{ mosi := firstBytes s.cfg.notifyLen.bytes.toNat
                 ((s.txBuf.set 0 s.cfg.sync).set 1 (0#4 ++ nextButtons s : BitVec 8))
               miso := misoBytes s.cfg.notifyLen.bytes.toNat (takeButtons s).env }] else [])
        else
          (if s.cdPoll = 0#16 then
            [{ mosi := firstBytes s.cfg.pollLen.bytes.toNat
                 #v[s.cfg.sync, s.cfg.cmdReady, 0#8, 0#8, 0#8, 0#8, 0#8, 0#8, 0#8, 0#8, 0#8]
               miso := misoBytes s.cfg.pollLen.bytes.toNat (takeButtons s).env }] else [])

/-- Same-cycle display: what the peer answers in a cycle is accepted, rendered and shown in that cycle; the panel trace of a
cycle is the refresh of the rendered frame (45 R803, 42 R505, 20 R220, R222). -/
def Obligations.CycleShowsWhatItAccepts : Prop :=
  ∀ s : State, s.scanStep.toNat < 5 → Memory.wf s.fb = true →
    (∀ row col, row < 32 → col < 32 → ¬ inRegion s.cfg.regionTable row col →
      Memory.read s.fb (row * 32 + col) = idleCell row) →
    ∃ (t : State) (tr : List Event) (rx : FrameBuf),
      rx = FrameBuf.fill s.rxBuf 0 (misoBytes s.cfg.pollLen.bytes.toNat (takeButtons s).env)
      ∧ exec .cycle s = .next t ∧ t.trace = tr ++ s.trace
      ∧ panelEvents tr.reverse = refreshTrace s.cfg t.fb
      ∧ (∀ a, a < 1024 → Memory.read t.fb a = render s.cfg.regionTable t.heldBits t.heldPos a)
      ∧ (if nextButtons s = 0#4 ∧ s.cdPoll = 0#16 ∧ rx[4] = s.cfg.sync ∧ rx[5] = s.cfg.cmdReady
        then t.heldBits = rx[7] ++ rx[8] ++ rx[9] ∧ t.heldPos = rx[10] ∧ t.heldCheck = rx[6]
        else t.heldBits = s.heldBits ∧ t.heldPos = s.heldPos ∧ t.heldCheck = s.heldCheck)

/-! ## Invariants -/

/-- Every step keeps the invariant `Inv`: the frame buffer in canonical form, the counters and positions in range, a
recorded fault in HALT, a configuration that meets its minima (10 R104, R122, R126). -/
def Obligations.StepKeepsInv : Prop :=
  ∀ s t : State, Inv s → step s = .next t → Inv t

/-- The state after reset runs, and so meets the invariants (70 R1001; the idle buffer and the parameters of reset are log
entries 8 and 10). -/
def Obligations.ResetStateIsRunning : Prop := Running State.reset

/-- Progress: a running block always steps, and still runs; so it never stops, halts or faults by itself, and no data,
`SCLK` or `LAT` event ever falls while the display is enabled (45 R807, 43 R613, R615, 60 R901). -/
def Obligations.RunningBlockNeverStops : Prop :=
  ∀ s : State, Running s → ∃ t, step s = .next t ∧ Running t

/-- Phase order: a running block's turn moves `PHASE` only as SELECT, (NOTIFY, POLL or none), MAP, SCAN, SELECT allow, INIT
being left once; SCAN ends only with the dwell of row 31 (10 R120, 45 R800). A tick alone moves nothing. -/
def Obligations.PhasesFollowTheCycle : Prop :=
  ∀ s t : State, Running s → step s = .next t →
    (nextTurn s = .tick → t.phase = s.phase)
    ∧ (nextTurn s = .sequencer ∨ nextTurn s = .sequencerWithTick →
      (s.phase = phaseInit → t.phase = phaseSelect)
      ∧ (s.phase = phaseSelect → t.phase = phaseNotify ∨ t.phase = phasePoll ∨ t.phase = phaseMap)
      ∧ (s.phase = phaseNotify → t.phase = phaseMap)
      ∧ (s.phase = phasePoll → t.phase = phaseMap)
      ∧ (s.phase = phaseMap → t.phase = phaseScan)
      ∧ (s.phase = phaseScan →
        if s.scanStep = stepRowDwell ∧ s.scanRow = 31#5 then t.phase = phaseSelect else t.phase = phaseScan))

/-- Address changes are blanked: in a running block, a step that changes `ADDR` is a reset, or the data lines of a row's
first column, driven while the display is disabled (43 R614, 70 R1011). -/
def Obligations.AddressChangesWhileBlanked : Prop :=
  ∀ s t : State, Running s → step s = .next t → t.outAddr ≠ s.outAddr →
    (∃ cut, nextTurn s = .reset cut)
      ∨ (s.phase = phaseScan ∧ s.scanStep = stepShiftSetup ∧ s.scanCol = 0#5 ∧ s.outOe = false ∧ t.outOe = false)

/-- Who writes what, for every element of 10 R100: an operation that goes on either enters the fault state, which writes what
60 R910 names, or leaves every element that is not in its rule's list of state written (`Safety.writes`). No operation changes
the configuration (10 R130); only POLL_ACCEPT, the operations that contain it and reset write the held registers (10 R101 to
R103); only the mapper, the fills, FB_SET and reset write the frame buffer (45 R805); only ticks, sends and reset write the
counters (20 R221); only reset clears `FAULT` (10 R126). That the accepted response row contains POLL_ACCEPT, and what the
frame rows write, is log entry 14. -/
def Obligations.EveryRegisterHasItsWriters : Prop :=
  ∀ (i : Instr) (s t : State), exec i s = .next t →
    ((∃ code, t = raiseFault code s) ∨ ∀ e : Element, e ∉ writes i → sameElement e s t)
    ∧ t.cfg = s.cfg
    ∧ (i ≠ .pollAccept → i ≠ .pollExchange → i ≠ .cycle → i ≠ .reset →
      (∀ x c h m l p, i ≠ .framePollRsp x c h m l p) →
      t.heldBits = s.heldBits ∧ t.heldPos = s.heldPos ∧ t.heldCheck = s.heldCheck)
    ∧ (i ≠ .init → i ≠ .fbResetToIdle → i ≠ .mapAll → i ≠ .cycle → i ≠ .reset → (∀ r c w, i ≠ .fbSet r c w) →
      (∀ k r p, i ≠ .mapApply k r p) → t.fb = s.fb)
    ∧ (i ≠ .tick → i ≠ .notifySend → i ≠ .pollExchange → i ≠ .cycle → i ≠ .reset →
      t.cdNotify = s.cdNotify ∧ t.cdPoll = s.cdPoll)
    ∧ (i ≠ .reset → s.fault = true → t.fault = true)
end

