-- ==== Sys2Proof/Laws/State.lean ====
section
/-! SUPPORT. One lemma per field per named update of State: no later proof unfolds a record update. -/

namespace Sys2Proof.Machine

/-! ### settleSck -/

@[simp] theorem settleSck_fb (s : State) : (settleSck s).fb = s.fb := rfl
@[simp] theorem settleSck_heldBits (s : State) : (settleSck s).heldBits = s.heldBits := rfl
@[simp] theorem settleSck_heldPos (s : State) : (settleSck s).heldPos = s.heldPos := rfl
@[simp] theorem settleSck_heldCheck (s : State) : (settleSck s).heldCheck = s.heldCheck := rfl
@[simp] theorem settleSck_cdNotify (s : State) : (settleSck s).cdNotify = s.cdNotify := rfl
@[simp] theorem settleSck_cdPoll (s : State) : (settleSck s).cdPoll = s.cdPoll := rfl
@[simp] theorem settleSck_btnSample (s : State) : (settleSck s).btnSample = s.btnSample := rfl
@[simp] theorem settleSck_txBuf (s : State) : (settleSck s).txBuf = s.txBuf := rfl
@[simp] theorem settleSck_rxBuf (s : State) : (settleSck s).rxBuf = s.rxBuf := rfl
@[simp] theorem settleSck_phase (s : State) : (settleSck s).phase = s.phase := rfl
@[simp] theorem settleSck_initIdx (s : State) : (settleSck s).initIdx = s.initIdx := rfl
@[simp] theorem settleSck_mapS (s : State) : (settleSck s).mapS = s.mapS := rfl
@[simp] theorem settleSck_scanRow (s : State) : (settleSck s).scanRow = s.scanRow := rfl
@[simp] theorem settleSck_scanCol (s : State) : (settleSck s).scanCol = s.scanCol := rfl
@[simp] theorem settleSck_scanStep (s : State) : (settleSck s).scanStep = s.scanStep := rfl
@[simp] theorem settleSck_linkLen (s : State) : (settleSck s).linkLen = s.linkLen := rfl
@[simp] theorem settleSck_linkByte (s : State) : (settleSck s).linkByte = s.linkByte := rfl
@[simp] theorem settleSck_linkBit (s : State) : (settleSck s).linkBit = s.linkBit := rfl
@[simp] theorem settleSck_waitCnt (s : State) : (settleSck s).waitCnt = s.waitCnt := rfl
@[simp] theorem settleSck_fault (s : State) : (settleSck s).fault = s.fault := rfl
@[simp] theorem settleSck_faultCode (s : State) : (settleSck s).faultCode = s.faultCode := rfl
@[simp] theorem settleSck_outAddr (s : State) : (settleSck s).outAddr = s.outAddr := rfl
@[simp] theorem settleSck_outRgb (s : State) : (settleSck s).outRgb = s.outRgb := rfl
@[simp] theorem settleSck_outSclk (s : State) : (settleSck s).outSclk = s.outSclk := rfl
@[simp] theorem settleSck_outLat (s : State) : (settleSck s).outLat = s.outLat := rfl
@[simp] theorem settleSck_outOe (s : State) : (settleSck s).outOe = s.outOe := rfl
@[simp] theorem settleSck_outCsN (s : State) : (settleSck s).outCsN = s.outCsN := rfl
@[simp] theorem settleSck_outSck (s : State) : (settleSck s).outSck = s.outSck := rfl
@[simp] theorem settleSck_outMosi (s : State) : (settleSck s).outMosi = s.outMosi := rfl
@[simp] theorem settleSck_cfg (s : State) : (settleSck s).cfg = s.cfg := rfl
@[simp] theorem settleSck_env (s : State) : (settleSck s).env = s.env := rfl
@[simp] theorem settleSck_trace (s : State) : (settleSck s).trace = (sckGap s.trace).map Event.link ++ s.trace := rfl
@[simp] theorem settleSck_request (s : State) : (settleSck s).request = s.request := rfl
@[simp] theorem settleSck_ret (s : State) : (settleSck s).ret = s.ret := rfl

/-! ### driveLines -/

@[simp] theorem driveLines_fb (l : PanelLines) (s : State) : (driveLines l s).fb = s.fb := rfl
@[simp] theorem driveLines_heldBits (l : PanelLines) (s : State) : (driveLines l s).heldBits = s.heldBits := rfl
@[simp] theorem driveLines_heldPos (l : PanelLines) (s : State) : (driveLines l s).heldPos = s.heldPos := rfl
@[simp] theorem driveLines_heldCheck (l : PanelLines) (s : State) : (driveLines l s).heldCheck = s.heldCheck := rfl
@[simp] theorem driveLines_cdNotify (l : PanelLines) (s : State) : (driveLines l s).cdNotify = s.cdNotify := rfl
@[simp] theorem driveLines_cdPoll (l : PanelLines) (s : State) : (driveLines l s).cdPoll = s.cdPoll := rfl
@[simp] theorem driveLines_btnSample (l : PanelLines) (s : State) : (driveLines l s).btnSample = s.btnSample := rfl
@[simp] theorem driveLines_txBuf (l : PanelLines) (s : State) : (driveLines l s).txBuf = s.txBuf := rfl
@[simp] theorem driveLines_rxBuf (l : PanelLines) (s : State) : (driveLines l s).rxBuf = s.rxBuf := rfl
@[simp] theorem driveLines_phase (l : PanelLines) (s : State) : (driveLines l s).phase = s.phase := rfl
@[simp] theorem driveLines_initIdx (l : PanelLines) (s : State) : (driveLines l s).initIdx = s.initIdx := rfl
@[simp] theorem driveLines_mapS (l : PanelLines) (s : State) : (driveLines l s).mapS = s.mapS := rfl
@[simp] theorem driveLines_scanRow (l : PanelLines) (s : State) : (driveLines l s).scanRow = s.scanRow := rfl
@[simp] theorem driveLines_scanCol (l : PanelLines) (s : State) : (driveLines l s).scanCol = s.scanCol := rfl
@[simp] theorem driveLines_scanStep (l : PanelLines) (s : State) : (driveLines l s).scanStep = s.scanStep := rfl
@[simp] theorem driveLines_linkLen (l : PanelLines) (s : State) : (driveLines l s).linkLen = s.linkLen := rfl
@[simp] theorem driveLines_linkByte (l : PanelLines) (s : State) : (driveLines l s).linkByte = s.linkByte := rfl
@[simp] theorem driveLines_linkBit (l : PanelLines) (s : State) : (driveLines l s).linkBit = s.linkBit := rfl
@[simp] theorem driveLines_waitCnt (l : PanelLines) (s : State) : (driveLines l s).waitCnt = s.waitCnt := rfl
@[simp] theorem driveLines_fault (l : PanelLines) (s : State) : (driveLines l s).fault = s.fault := rfl
@[simp] theorem driveLines_faultCode (l : PanelLines) (s : State) : (driveLines l s).faultCode = s.faultCode := rfl
@[simp] theorem driveLines_outAddr (l : PanelLines) (s : State) : (driveLines l s).outAddr = l.addr := rfl
@[simp] theorem driveLines_outRgb (l : PanelLines) (s : State) : (driveLines l s).outRgb = l.rgb := rfl
@[simp] theorem driveLines_outSclk (l : PanelLines) (s : State) : (driveLines l s).outSclk = s.outSclk := rfl
@[simp] theorem driveLines_outLat (l : PanelLines) (s : State) : (driveLines l s).outLat = s.outLat := rfl
@[simp] theorem driveLines_outOe (l : PanelLines) (s : State) : (driveLines l s).outOe = s.outOe := rfl
@[simp] theorem driveLines_outCsN (l : PanelLines) (s : State) : (driveLines l s).outCsN = s.outCsN := rfl
@[simp] theorem driveLines_outSck (l : PanelLines) (s : State) : (driveLines l s).outSck = s.outSck := rfl
@[simp] theorem driveLines_outMosi (l : PanelLines) (s : State) : (driveLines l s).outMosi = s.outMosi := rfl
@[simp] theorem driveLines_cfg (l : PanelLines) (s : State) : (driveLines l s).cfg = s.cfg := rfl
@[simp] theorem driveLines_env (l : PanelLines) (s : State) : (driveLines l s).env = s.env := rfl
@[simp] theorem driveLines_trace (l : PanelLines) (s : State) : (driveLines l s).trace = .panel (.lines l) :: s.trace := rfl
@[simp] theorem driveLines_request (l : PanelLines) (s : State) : (driveLines l s).request = s.request := rfl
@[simp] theorem driveLines_ret (l : PanelLines) (s : State) : (driveLines l s).ret = s.ret := rfl

/-! ### driveSclk -/

@[simp] theorem driveSclk_fb (v : Bool) (s : State) : (driveSclk v s).fb = s.fb := rfl
@[simp] theorem driveSclk_heldBits (v : Bool) (s : State) : (driveSclk v s).heldBits = s.heldBits := rfl
@[simp] theorem driveSclk_heldPos (v : Bool) (s : State) : (driveSclk v s).heldPos = s.heldPos := rfl
@[simp] theorem driveSclk_heldCheck (v : Bool) (s : State) : (driveSclk v s).heldCheck = s.heldCheck := rfl
@[simp] theorem driveSclk_cdNotify (v : Bool) (s : State) : (driveSclk v s).cdNotify = s.cdNotify := rfl
@[simp] theorem driveSclk_cdPoll (v : Bool) (s : State) : (driveSclk v s).cdPoll = s.cdPoll := rfl
@[simp] theorem driveSclk_btnSample (v : Bool) (s : State) : (driveSclk v s).btnSample = s.btnSample := rfl
@[simp] theorem driveSclk_txBuf (v : Bool) (s : State) : (driveSclk v s).txBuf = s.txBuf := rfl
@[simp] theorem driveSclk_rxBuf (v : Bool) (s : State) : (driveSclk v s).rxBuf = s.rxBuf := rfl
@[simp] theorem driveSclk_phase (v : Bool) (s : State) : (driveSclk v s).phase = s.phase := rfl
@[simp] theorem driveSclk_initIdx (v : Bool) (s : State) : (driveSclk v s).initIdx = s.initIdx := rfl
@[simp] theorem driveSclk_mapS (v : Bool) (s : State) : (driveSclk v s).mapS = s.mapS := rfl
@[simp] theorem driveSclk_scanRow (v : Bool) (s : State) : (driveSclk v s).scanRow = s.scanRow := rfl
@[simp] theorem driveSclk_scanCol (v : Bool) (s : State) : (driveSclk v s).scanCol = s.scanCol := rfl
@[simp] theorem driveSclk_scanStep (v : Bool) (s : State) : (driveSclk v s).scanStep = s.scanStep := rfl
@[simp] theorem driveSclk_linkLen (v : Bool) (s : State) : (driveSclk v s).linkLen = s.linkLen := rfl
@[simp] theorem driveSclk_linkByte (v : Bool) (s : State) : (driveSclk v s).linkByte = s.linkByte := rfl
@[simp] theorem driveSclk_linkBit (v : Bool) (s : State) : (driveSclk v s).linkBit = s.linkBit := rfl
@[simp] theorem driveSclk_waitCnt (v : Bool) (s : State) : (driveSclk v s).waitCnt = s.waitCnt := rfl
@[simp] theorem driveSclk_fault (v : Bool) (s : State) : (driveSclk v s).fault = s.fault := rfl
@[simp] theorem driveSclk_faultCode (v : Bool) (s : State) : (driveSclk v s).faultCode = s.faultCode := rfl
@[simp] theorem driveSclk_outAddr (v : Bool) (s : State) : (driveSclk v s).outAddr = s.outAddr := rfl
@[simp] theorem driveSclk_outRgb (v : Bool) (s : State) : (driveSclk v s).outRgb = s.outRgb := rfl
@[simp] theorem driveSclk_outSclk (v : Bool) (s : State) : (driveSclk v s).outSclk = v := rfl
@[simp] theorem driveSclk_outLat (v : Bool) (s : State) : (driveSclk v s).outLat = s.outLat := rfl
@[simp] theorem driveSclk_outOe (v : Bool) (s : State) : (driveSclk v s).outOe = s.outOe := rfl
@[simp] theorem driveSclk_outCsN (v : Bool) (s : State) : (driveSclk v s).outCsN = s.outCsN := rfl
@[simp] theorem driveSclk_outSck (v : Bool) (s : State) : (driveSclk v s).outSck = s.outSck := rfl
@[simp] theorem driveSclk_outMosi (v : Bool) (s : State) : (driveSclk v s).outMosi = s.outMosi := rfl
@[simp] theorem driveSclk_cfg (v : Bool) (s : State) : (driveSclk v s).cfg = s.cfg := rfl
@[simp] theorem driveSclk_env (v : Bool) (s : State) : (driveSclk v s).env = s.env := rfl
@[simp] theorem driveSclk_trace (v : Bool) (s : State) : (driveSclk v s).trace = .panel (.sclk v) :: s.trace := rfl
@[simp] theorem driveSclk_request (v : Bool) (s : State) : (driveSclk v s).request = s.request := rfl
@[simp] theorem driveSclk_ret (v : Bool) (s : State) : (driveSclk v s).ret = s.ret := rfl

/-! ### driveLat -/

@[simp] theorem driveLat_fb (v : Bool) (s : State) : (driveLat v s).fb = s.fb := rfl
@[simp] theorem driveLat_heldBits (v : Bool) (s : State) : (driveLat v s).heldBits = s.heldBits := rfl
@[simp] theorem driveLat_heldPos (v : Bool) (s : State) : (driveLat v s).heldPos = s.heldPos := rfl
@[simp] theorem driveLat_heldCheck (v : Bool) (s : State) : (driveLat v s).heldCheck = s.heldCheck := rfl
@[simp] theorem driveLat_cdNotify (v : Bool) (s : State) : (driveLat v s).cdNotify = s.cdNotify := rfl
@[simp] theorem driveLat_cdPoll (v : Bool) (s : State) : (driveLat v s).cdPoll = s.cdPoll := rfl
@[simp] theorem driveLat_btnSample (v : Bool) (s : State) : (driveLat v s).btnSample = s.btnSample := rfl
@[simp] theorem driveLat_txBuf (v : Bool) (s : State) : (driveLat v s).txBuf = s.txBuf := rfl
@[simp] theorem driveLat_rxBuf (v : Bool) (s : State) : (driveLat v s).rxBuf = s.rxBuf := rfl
@[simp] theorem driveLat_phase (v : Bool) (s : State) : (driveLat v s).phase = s.phase := rfl
@[simp] theorem driveLat_initIdx (v : Bool) (s : State) : (driveLat v s).initIdx = s.initIdx := rfl
@[simp] theorem driveLat_mapS (v : Bool) (s : State) : (driveLat v s).mapS = s.mapS := rfl
@[simp] theorem driveLat_scanRow (v : Bool) (s : State) : (driveLat v s).scanRow = s.scanRow := rfl
@[simp] theorem driveLat_scanCol (v : Bool) (s : State) : (driveLat v s).scanCol = s.scanCol := rfl
@[simp] theorem driveLat_scanStep (v : Bool) (s : State) : (driveLat v s).scanStep = s.scanStep := rfl
@[simp] theorem driveLat_linkLen (v : Bool) (s : State) : (driveLat v s).linkLen = s.linkLen := rfl
@[simp] theorem driveLat_linkByte (v : Bool) (s : State) : (driveLat v s).linkByte = s.linkByte := rfl
@[simp] theorem driveLat_linkBit (v : Bool) (s : State) : (driveLat v s).linkBit = s.linkBit := rfl
@[simp] theorem driveLat_waitCnt (v : Bool) (s : State) : (driveLat v s).waitCnt = s.waitCnt := rfl
@[simp] theorem driveLat_fault (v : Bool) (s : State) : (driveLat v s).fault = s.fault := rfl
@[simp] theorem driveLat_faultCode (v : Bool) (s : State) : (driveLat v s).faultCode = s.faultCode := rfl
@[simp] theorem driveLat_outAddr (v : Bool) (s : State) : (driveLat v s).outAddr = s.outAddr := rfl
@[simp] theorem driveLat_outRgb (v : Bool) (s : State) : (driveLat v s).outRgb = s.outRgb := rfl
@[simp] theorem driveLat_outSclk (v : Bool) (s : State) : (driveLat v s).outSclk = s.outSclk := rfl
@[simp] theorem driveLat_outLat (v : Bool) (s : State) : (driveLat v s).outLat = v := rfl
@[simp] theorem driveLat_outOe (v : Bool) (s : State) : (driveLat v s).outOe = s.outOe := rfl
@[simp] theorem driveLat_outCsN (v : Bool) (s : State) : (driveLat v s).outCsN = s.outCsN := rfl
@[simp] theorem driveLat_outSck (v : Bool) (s : State) : (driveLat v s).outSck = s.outSck := rfl
@[simp] theorem driveLat_outMosi (v : Bool) (s : State) : (driveLat v s).outMosi = s.outMosi := rfl
@[simp] theorem driveLat_cfg (v : Bool) (s : State) : (driveLat v s).cfg = s.cfg := rfl
@[simp] theorem driveLat_env (v : Bool) (s : State) : (driveLat v s).env = s.env := rfl
@[simp] theorem driveLat_trace (v : Bool) (s : State) : (driveLat v s).trace = .panel (.lat v) :: s.trace := rfl
@[simp] theorem driveLat_request (v : Bool) (s : State) : (driveLat v s).request = s.request := rfl
@[simp] theorem driveLat_ret (v : Bool) (s : State) : (driveLat v s).ret = s.ret := rfl

/-! ### driveOe -/

@[simp] theorem driveOe_fb (v : Bool) (s : State) : (driveOe v s).fb = s.fb := rfl
@[simp] theorem driveOe_heldBits (v : Bool) (s : State) : (driveOe v s).heldBits = s.heldBits := rfl
@[simp] theorem driveOe_heldPos (v : Bool) (s : State) : (driveOe v s).heldPos = s.heldPos := rfl
@[simp] theorem driveOe_heldCheck (v : Bool) (s : State) : (driveOe v s).heldCheck = s.heldCheck := rfl
@[simp] theorem driveOe_cdNotify (v : Bool) (s : State) : (driveOe v s).cdNotify = s.cdNotify := rfl
@[simp] theorem driveOe_cdPoll (v : Bool) (s : State) : (driveOe v s).cdPoll = s.cdPoll := rfl
@[simp] theorem driveOe_btnSample (v : Bool) (s : State) : (driveOe v s).btnSample = s.btnSample := rfl
@[simp] theorem driveOe_txBuf (v : Bool) (s : State) : (driveOe v s).txBuf = s.txBuf := rfl
@[simp] theorem driveOe_rxBuf (v : Bool) (s : State) : (driveOe v s).rxBuf = s.rxBuf := rfl
@[simp] theorem driveOe_phase (v : Bool) (s : State) : (driveOe v s).phase = s.phase := rfl
@[simp] theorem driveOe_initIdx (v : Bool) (s : State) : (driveOe v s).initIdx = s.initIdx := rfl
@[simp] theorem driveOe_mapS (v : Bool) (s : State) : (driveOe v s).mapS = s.mapS := rfl
@[simp] theorem driveOe_scanRow (v : Bool) (s : State) : (driveOe v s).scanRow = s.scanRow := rfl
@[simp] theorem driveOe_scanCol (v : Bool) (s : State) : (driveOe v s).scanCol = s.scanCol := rfl
@[simp] theorem driveOe_scanStep (v : Bool) (s : State) : (driveOe v s).scanStep = s.scanStep := rfl
@[simp] theorem driveOe_linkLen (v : Bool) (s : State) : (driveOe v s).linkLen = s.linkLen := rfl
@[simp] theorem driveOe_linkByte (v : Bool) (s : State) : (driveOe v s).linkByte = s.linkByte := rfl
@[simp] theorem driveOe_linkBit (v : Bool) (s : State) : (driveOe v s).linkBit = s.linkBit := rfl
@[simp] theorem driveOe_waitCnt (v : Bool) (s : State) : (driveOe v s).waitCnt = s.waitCnt := rfl
@[simp] theorem driveOe_fault (v : Bool) (s : State) : (driveOe v s).fault = s.fault := rfl
@[simp] theorem driveOe_faultCode (v : Bool) (s : State) : (driveOe v s).faultCode = s.faultCode := rfl
@[simp] theorem driveOe_outAddr (v : Bool) (s : State) : (driveOe v s).outAddr = s.outAddr := rfl
@[simp] theorem driveOe_outRgb (v : Bool) (s : State) : (driveOe v s).outRgb = s.outRgb := rfl
@[simp] theorem driveOe_outSclk (v : Bool) (s : State) : (driveOe v s).outSclk = s.outSclk := rfl
@[simp] theorem driveOe_outLat (v : Bool) (s : State) : (driveOe v s).outLat = s.outLat := rfl
@[simp] theorem driveOe_outOe (v : Bool) (s : State) : (driveOe v s).outOe = v := rfl
@[simp] theorem driveOe_outCsN (v : Bool) (s : State) : (driveOe v s).outCsN = s.outCsN := rfl
@[simp] theorem driveOe_outSck (v : Bool) (s : State) : (driveOe v s).outSck = s.outSck := rfl
@[simp] theorem driveOe_outMosi (v : Bool) (s : State) : (driveOe v s).outMosi = s.outMosi := rfl
@[simp] theorem driveOe_cfg (v : Bool) (s : State) : (driveOe v s).cfg = s.cfg := rfl
@[simp] theorem driveOe_env (v : Bool) (s : State) : (driveOe v s).env = s.env := rfl
@[simp] theorem driveOe_trace (v : Bool) (s : State) : (driveOe v s).trace = .panel (.oe v) :: s.trace := rfl
@[simp] theorem driveOe_request (v : Bool) (s : State) : (driveOe v s).request = s.request := rfl
@[simp] theorem driveOe_ret (v : Bool) (s : State) : (driveOe v s).ret = s.ret := rfl

/-! ### driveCsN -/

@[simp] theorem driveCsN_fb (v : Bool) (s : State) : (driveCsN v s).fb = s.fb := rfl
@[simp] theorem driveCsN_heldBits (v : Bool) (s : State) : (driveCsN v s).heldBits = s.heldBits := rfl
@[simp] theorem driveCsN_heldPos (v : Bool) (s : State) : (driveCsN v s).heldPos = s.heldPos := rfl
@[simp] theorem driveCsN_heldCheck (v : Bool) (s : State) : (driveCsN v s).heldCheck = s.heldCheck := rfl
@[simp] theorem driveCsN_cdNotify (v : Bool) (s : State) : (driveCsN v s).cdNotify = s.cdNotify := rfl
@[simp] theorem driveCsN_cdPoll (v : Bool) (s : State) : (driveCsN v s).cdPoll = s.cdPoll := rfl
@[simp] theorem driveCsN_btnSample (v : Bool) (s : State) : (driveCsN v s).btnSample = s.btnSample := rfl
@[simp] theorem driveCsN_txBuf (v : Bool) (s : State) : (driveCsN v s).txBuf = s.txBuf := rfl
@[simp] theorem driveCsN_rxBuf (v : Bool) (s : State) : (driveCsN v s).rxBuf = s.rxBuf := rfl
@[simp] theorem driveCsN_phase (v : Bool) (s : State) : (driveCsN v s).phase = s.phase := rfl
@[simp] theorem driveCsN_initIdx (v : Bool) (s : State) : (driveCsN v s).initIdx = s.initIdx := rfl
@[simp] theorem driveCsN_mapS (v : Bool) (s : State) : (driveCsN v s).mapS = s.mapS := rfl
@[simp] theorem driveCsN_scanRow (v : Bool) (s : State) : (driveCsN v s).scanRow = s.scanRow := rfl
@[simp] theorem driveCsN_scanCol (v : Bool) (s : State) : (driveCsN v s).scanCol = s.scanCol := rfl
@[simp] theorem driveCsN_scanStep (v : Bool) (s : State) : (driveCsN v s).scanStep = s.scanStep := rfl
@[simp] theorem driveCsN_linkLen (v : Bool) (s : State) : (driveCsN v s).linkLen = s.linkLen := rfl
@[simp] theorem driveCsN_linkByte (v : Bool) (s : State) : (driveCsN v s).linkByte = s.linkByte := rfl
@[simp] theorem driveCsN_linkBit (v : Bool) (s : State) : (driveCsN v s).linkBit = s.linkBit := rfl
@[simp] theorem driveCsN_waitCnt (v : Bool) (s : State) : (driveCsN v s).waitCnt = s.waitCnt := rfl
@[simp] theorem driveCsN_fault (v : Bool) (s : State) : (driveCsN v s).fault = s.fault := rfl
@[simp] theorem driveCsN_faultCode (v : Bool) (s : State) : (driveCsN v s).faultCode = s.faultCode := rfl
@[simp] theorem driveCsN_outAddr (v : Bool) (s : State) : (driveCsN v s).outAddr = s.outAddr := rfl
@[simp] theorem driveCsN_outRgb (v : Bool) (s : State) : (driveCsN v s).outRgb = s.outRgb := rfl
@[simp] theorem driveCsN_outSclk (v : Bool) (s : State) : (driveCsN v s).outSclk = s.outSclk := rfl
@[simp] theorem driveCsN_outLat (v : Bool) (s : State) : (driveCsN v s).outLat = s.outLat := rfl
@[simp] theorem driveCsN_outOe (v : Bool) (s : State) : (driveCsN v s).outOe = s.outOe := rfl
@[simp] theorem driveCsN_outCsN (v : Bool) (s : State) : (driveCsN v s).outCsN = v := rfl
@[simp] theorem driveCsN_outSck (v : Bool) (s : State) : (driveCsN v s).outSck = s.outSck := rfl
@[simp] theorem driveCsN_outMosi (v : Bool) (s : State) : (driveCsN v s).outMosi = s.outMosi := rfl
@[simp] theorem driveCsN_cfg (v : Bool) (s : State) : (driveCsN v s).cfg = s.cfg := rfl
@[simp] theorem driveCsN_env (v : Bool) (s : State) : (driveCsN v s).env = s.env := rfl
@[simp] theorem driveCsN_trace (v : Bool) (s : State) : (driveCsN v s).trace = .link (.csN v) :: s.trace := rfl
@[simp] theorem driveCsN_request (v : Bool) (s : State) : (driveCsN v s).request = s.request := rfl
@[simp] theorem driveCsN_ret (v : Bool) (s : State) : (driveCsN v s).ret = s.ret := rfl

/-! ### driveSck -/

@[simp] theorem driveSck_fb (v : Bool) (s : State) : (driveSck v s).fb = s.fb := rfl
@[simp] theorem driveSck_heldBits (v : Bool) (s : State) : (driveSck v s).heldBits = s.heldBits := rfl
@[simp] theorem driveSck_heldPos (v : Bool) (s : State) : (driveSck v s).heldPos = s.heldPos := rfl
@[simp] theorem driveSck_heldCheck (v : Bool) (s : State) : (driveSck v s).heldCheck = s.heldCheck := rfl
@[simp] theorem driveSck_cdNotify (v : Bool) (s : State) : (driveSck v s).cdNotify = s.cdNotify := rfl
@[simp] theorem driveSck_cdPoll (v : Bool) (s : State) : (driveSck v s).cdPoll = s.cdPoll := rfl
@[simp] theorem driveSck_btnSample (v : Bool) (s : State) : (driveSck v s).btnSample = s.btnSample := rfl
@[simp] theorem driveSck_txBuf (v : Bool) (s : State) : (driveSck v s).txBuf = s.txBuf := rfl
@[simp] theorem driveSck_rxBuf (v : Bool) (s : State) : (driveSck v s).rxBuf = s.rxBuf := rfl
@[simp] theorem driveSck_phase (v : Bool) (s : State) : (driveSck v s).phase = s.phase := rfl
@[simp] theorem driveSck_initIdx (v : Bool) (s : State) : (driveSck v s).initIdx = s.initIdx := rfl
@[simp] theorem driveSck_mapS (v : Bool) (s : State) : (driveSck v s).mapS = s.mapS := rfl
@[simp] theorem driveSck_scanRow (v : Bool) (s : State) : (driveSck v s).scanRow = s.scanRow := rfl
@[simp] theorem driveSck_scanCol (v : Bool) (s : State) : (driveSck v s).scanCol = s.scanCol := rfl
@[simp] theorem driveSck_scanStep (v : Bool) (s : State) : (driveSck v s).scanStep = s.scanStep := rfl
@[simp] theorem driveSck_linkLen (v : Bool) (s : State) : (driveSck v s).linkLen = s.linkLen := rfl
@[simp] theorem driveSck_linkByte (v : Bool) (s : State) : (driveSck v s).linkByte = s.linkByte := rfl
@[simp] theorem driveSck_linkBit (v : Bool) (s : State) : (driveSck v s).linkBit = s.linkBit := rfl
@[simp] theorem driveSck_waitCnt (v : Bool) (s : State) : (driveSck v s).waitCnt = s.waitCnt := rfl
@[simp] theorem driveSck_fault (v : Bool) (s : State) : (driveSck v s).fault = s.fault := rfl
@[simp] theorem driveSck_faultCode (v : Bool) (s : State) : (driveSck v s).faultCode = s.faultCode := rfl
@[simp] theorem driveSck_outAddr (v : Bool) (s : State) : (driveSck v s).outAddr = s.outAddr := rfl
@[simp] theorem driveSck_outRgb (v : Bool) (s : State) : (driveSck v s).outRgb = s.outRgb := rfl
@[simp] theorem driveSck_outSclk (v : Bool) (s : State) : (driveSck v s).outSclk = s.outSclk := rfl
@[simp] theorem driveSck_outLat (v : Bool) (s : State) : (driveSck v s).outLat = s.outLat := rfl
@[simp] theorem driveSck_outOe (v : Bool) (s : State) : (driveSck v s).outOe = s.outOe := rfl
@[simp] theorem driveSck_outCsN (v : Bool) (s : State) : (driveSck v s).outCsN = s.outCsN := rfl
@[simp] theorem driveSck_outSck (v : Bool) (s : State) : (driveSck v s).outSck = v := rfl
@[simp] theorem driveSck_outMosi (v : Bool) (s : State) : (driveSck v s).outMosi = s.outMosi := rfl
@[simp] theorem driveSck_cfg (v : Bool) (s : State) : (driveSck v s).cfg = s.cfg := rfl
@[simp] theorem driveSck_env (v : Bool) (s : State) : (driveSck v s).env = s.env := rfl
@[simp] theorem driveSck_trace (v : Bool) (s : State) : (driveSck v s).trace = .link (.sck v) :: s.trace := rfl
@[simp] theorem driveSck_request (v : Bool) (s : State) : (driveSck v s).request = s.request := rfl
@[simp] theorem driveSck_ret (v : Bool) (s : State) : (driveSck v s).ret = s.ret := rfl

/-! ### driveMosi -/

@[simp] theorem driveMosi_fb (v : Bool) (s : State) : (driveMosi v s).fb = s.fb := rfl
@[simp] theorem driveMosi_heldBits (v : Bool) (s : State) : (driveMosi v s).heldBits = s.heldBits := rfl
@[simp] theorem driveMosi_heldPos (v : Bool) (s : State) : (driveMosi v s).heldPos = s.heldPos := rfl
@[simp] theorem driveMosi_heldCheck (v : Bool) (s : State) : (driveMosi v s).heldCheck = s.heldCheck := rfl
@[simp] theorem driveMosi_cdNotify (v : Bool) (s : State) : (driveMosi v s).cdNotify = s.cdNotify := rfl
@[simp] theorem driveMosi_cdPoll (v : Bool) (s : State) : (driveMosi v s).cdPoll = s.cdPoll := rfl
@[simp] theorem driveMosi_btnSample (v : Bool) (s : State) : (driveMosi v s).btnSample = s.btnSample := rfl
@[simp] theorem driveMosi_txBuf (v : Bool) (s : State) : (driveMosi v s).txBuf = s.txBuf := rfl
@[simp] theorem driveMosi_rxBuf (v : Bool) (s : State) : (driveMosi v s).rxBuf = s.rxBuf := rfl
@[simp] theorem driveMosi_phase (v : Bool) (s : State) : (driveMosi v s).phase = s.phase := rfl
@[simp] theorem driveMosi_initIdx (v : Bool) (s : State) : (driveMosi v s).initIdx = s.initIdx := rfl
@[simp] theorem driveMosi_mapS (v : Bool) (s : State) : (driveMosi v s).mapS = s.mapS := rfl
@[simp] theorem driveMosi_scanRow (v : Bool) (s : State) : (driveMosi v s).scanRow = s.scanRow := rfl
@[simp] theorem driveMosi_scanCol (v : Bool) (s : State) : (driveMosi v s).scanCol = s.scanCol := rfl
@[simp] theorem driveMosi_scanStep (v : Bool) (s : State) : (driveMosi v s).scanStep = s.scanStep := rfl
@[simp] theorem driveMosi_linkLen (v : Bool) (s : State) : (driveMosi v s).linkLen = s.linkLen := rfl
@[simp] theorem driveMosi_linkByte (v : Bool) (s : State) : (driveMosi v s).linkByte = s.linkByte := rfl
@[simp] theorem driveMosi_linkBit (v : Bool) (s : State) : (driveMosi v s).linkBit = s.linkBit := rfl
@[simp] theorem driveMosi_waitCnt (v : Bool) (s : State) : (driveMosi v s).waitCnt = s.waitCnt := rfl
@[simp] theorem driveMosi_fault (v : Bool) (s : State) : (driveMosi v s).fault = s.fault := rfl
@[simp] theorem driveMosi_faultCode (v : Bool) (s : State) : (driveMosi v s).faultCode = s.faultCode := rfl
@[simp] theorem driveMosi_outAddr (v : Bool) (s : State) : (driveMosi v s).outAddr = s.outAddr := rfl
@[simp] theorem driveMosi_outRgb (v : Bool) (s : State) : (driveMosi v s).outRgb = s.outRgb := rfl
@[simp] theorem driveMosi_outSclk (v : Bool) (s : State) : (driveMosi v s).outSclk = s.outSclk := rfl
@[simp] theorem driveMosi_outLat (v : Bool) (s : State) : (driveMosi v s).outLat = s.outLat := rfl
@[simp] theorem driveMosi_outOe (v : Bool) (s : State) : (driveMosi v s).outOe = s.outOe := rfl
@[simp] theorem driveMosi_outCsN (v : Bool) (s : State) : (driveMosi v s).outCsN = s.outCsN := rfl
@[simp] theorem driveMosi_outSck (v : Bool) (s : State) : (driveMosi v s).outSck = s.outSck := rfl
@[simp] theorem driveMosi_outMosi (v : Bool) (s : State) : (driveMosi v s).outMosi = v := rfl
@[simp] theorem driveMosi_cfg (v : Bool) (s : State) : (driveMosi v s).cfg = s.cfg := rfl
@[simp] theorem driveMosi_env (v : Bool) (s : State) : (driveMosi v s).env = s.env := rfl
@[simp] theorem driveMosi_trace (v : Bool) (s : State) : (driveMosi v s).trace = .link (.mosi v) :: s.trace := rfl
@[simp] theorem driveMosi_request (v : Bool) (s : State) : (driveMosi v s).request = s.request := rfl
@[simp] theorem driveMosi_ret (v : Bool) (s : State) : (driveMosi v s).ret = s.ret := rfl

/-! ### holdPanel -/

@[simp] theorem holdPanel_fb (h : Hold) (s : State) : (holdPanel h s).fb = s.fb := rfl
@[simp] theorem holdPanel_heldBits (h : Hold) (s : State) : (holdPanel h s).heldBits = s.heldBits := rfl
@[simp] theorem holdPanel_heldPos (h : Hold) (s : State) : (holdPanel h s).heldPos = s.heldPos := rfl
@[simp] theorem holdPanel_heldCheck (h : Hold) (s : State) : (holdPanel h s).heldCheck = s.heldCheck := rfl
@[simp] theorem holdPanel_cdNotify (h : Hold) (s : State) : (holdPanel h s).cdNotify = s.cdNotify := rfl
@[simp] theorem holdPanel_cdPoll (h : Hold) (s : State) : (holdPanel h s).cdPoll = s.cdPoll := rfl
@[simp] theorem holdPanel_btnSample (h : Hold) (s : State) : (holdPanel h s).btnSample = s.btnSample := rfl
@[simp] theorem holdPanel_txBuf (h : Hold) (s : State) : (holdPanel h s).txBuf = s.txBuf := rfl
@[simp] theorem holdPanel_rxBuf (h : Hold) (s : State) : (holdPanel h s).rxBuf = s.rxBuf := rfl
@[simp] theorem holdPanel_phase (h : Hold) (s : State) : (holdPanel h s).phase = s.phase := rfl
@[simp] theorem holdPanel_initIdx (h : Hold) (s : State) : (holdPanel h s).initIdx = s.initIdx := rfl
@[simp] theorem holdPanel_mapS (h : Hold) (s : State) : (holdPanel h s).mapS = s.mapS := rfl
@[simp] theorem holdPanel_scanRow (h : Hold) (s : State) : (holdPanel h s).scanRow = s.scanRow := rfl
@[simp] theorem holdPanel_scanCol (h : Hold) (s : State) : (holdPanel h s).scanCol = s.scanCol := rfl
@[simp] theorem holdPanel_scanStep (h : Hold) (s : State) : (holdPanel h s).scanStep = s.scanStep := rfl
@[simp] theorem holdPanel_linkLen (h : Hold) (s : State) : (holdPanel h s).linkLen = s.linkLen := rfl
@[simp] theorem holdPanel_linkByte (h : Hold) (s : State) : (holdPanel h s).linkByte = s.linkByte := rfl
@[simp] theorem holdPanel_linkBit (h : Hold) (s : State) : (holdPanel h s).linkBit = s.linkBit := rfl
@[simp] theorem holdPanel_waitCnt (h : Hold) (s : State) : (holdPanel h s).waitCnt = 0 := rfl
@[simp] theorem holdPanel_fault (h : Hold) (s : State) : (holdPanel h s).fault = s.fault := rfl
@[simp] theorem holdPanel_faultCode (h : Hold) (s : State) : (holdPanel h s).faultCode = s.faultCode := rfl
@[simp] theorem holdPanel_outAddr (h : Hold) (s : State) : (holdPanel h s).outAddr = s.outAddr := rfl
@[simp] theorem holdPanel_outRgb (h : Hold) (s : State) : (holdPanel h s).outRgb = s.outRgb := rfl
@[simp] theorem holdPanel_outSclk (h : Hold) (s : State) : (holdPanel h s).outSclk = s.outSclk := rfl
@[simp] theorem holdPanel_outLat (h : Hold) (s : State) : (holdPanel h s).outLat = s.outLat := rfl
@[simp] theorem holdPanel_outOe (h : Hold) (s : State) : (holdPanel h s).outOe = s.outOe := rfl
@[simp] theorem holdPanel_outCsN (h : Hold) (s : State) : (holdPanel h s).outCsN = s.outCsN := rfl
@[simp] theorem holdPanel_outSck (h : Hold) (s : State) : (holdPanel h s).outSck = s.outSck := rfl
@[simp] theorem holdPanel_outMosi (h : Hold) (s : State) : (holdPanel h s).outMosi = s.outMosi := rfl
@[simp] theorem holdPanel_cfg (h : Hold) (s : State) : (holdPanel h s).cfg = s.cfg := rfl
@[simp] theorem holdPanel_env (h : Hold) (s : State) : (holdPanel h s).env = s.env := rfl
@[simp] theorem holdPanel_trace (h : Hold) (s : State) : (holdPanel h s).trace = .panel (.hold h) :: s.trace := rfl
@[simp] theorem holdPanel_request (h : Hold) (s : State) : (holdPanel h s).request = s.request := rfl
@[simp] theorem holdPanel_ret (h : Hold) (s : State) : (holdPanel h s).ret = s.ret := rfl

/-! ### holdLink -/

@[simp] theorem holdLink_fb (h : Hold) (s : State) : (holdLink h s).fb = s.fb := rfl
@[simp] theorem holdLink_heldBits (h : Hold) (s : State) : (holdLink h s).heldBits = s.heldBits := rfl
@[simp] theorem holdLink_heldPos (h : Hold) (s : State) : (holdLink h s).heldPos = s.heldPos := rfl
@[simp] theorem holdLink_heldCheck (h : Hold) (s : State) : (holdLink h s).heldCheck = s.heldCheck := rfl
@[simp] theorem holdLink_cdNotify (h : Hold) (s : State) : (holdLink h s).cdNotify = s.cdNotify := rfl
@[simp] theorem holdLink_cdPoll (h : Hold) (s : State) : (holdLink h s).cdPoll = s.cdPoll := rfl
@[simp] theorem holdLink_btnSample (h : Hold) (s : State) : (holdLink h s).btnSample = s.btnSample := rfl
@[simp] theorem holdLink_txBuf (h : Hold) (s : State) : (holdLink h s).txBuf = s.txBuf := rfl
@[simp] theorem holdLink_rxBuf (h : Hold) (s : State) : (holdLink h s).rxBuf = s.rxBuf := rfl
@[simp] theorem holdLink_phase (h : Hold) (s : State) : (holdLink h s).phase = s.phase := rfl
@[simp] theorem holdLink_initIdx (h : Hold) (s : State) : (holdLink h s).initIdx = s.initIdx := rfl
@[simp] theorem holdLink_mapS (h : Hold) (s : State) : (holdLink h s).mapS = s.mapS := rfl
@[simp] theorem holdLink_scanRow (h : Hold) (s : State) : (holdLink h s).scanRow = s.scanRow := rfl
@[simp] theorem holdLink_scanCol (h : Hold) (s : State) : (holdLink h s).scanCol = s.scanCol := rfl
@[simp] theorem holdLink_scanStep (h : Hold) (s : State) : (holdLink h s).scanStep = s.scanStep := rfl
@[simp] theorem holdLink_linkLen (h : Hold) (s : State) : (holdLink h s).linkLen = s.linkLen := rfl
@[simp] theorem holdLink_linkByte (h : Hold) (s : State) : (holdLink h s).linkByte = s.linkByte := rfl
@[simp] theorem holdLink_linkBit (h : Hold) (s : State) : (holdLink h s).linkBit = s.linkBit := rfl
@[simp] theorem holdLink_waitCnt (h : Hold) (s : State) : (holdLink h s).waitCnt = 0 := rfl
@[simp] theorem holdLink_fault (h : Hold) (s : State) : (holdLink h s).fault = s.fault := rfl
@[simp] theorem holdLink_faultCode (h : Hold) (s : State) : (holdLink h s).faultCode = s.faultCode := rfl
@[simp] theorem holdLink_outAddr (h : Hold) (s : State) : (holdLink h s).outAddr = s.outAddr := rfl
@[simp] theorem holdLink_outRgb (h : Hold) (s : State) : (holdLink h s).outRgb = s.outRgb := rfl
@[simp] theorem holdLink_outSclk (h : Hold) (s : State) : (holdLink h s).outSclk = s.outSclk := rfl
@[simp] theorem holdLink_outLat (h : Hold) (s : State) : (holdLink h s).outLat = s.outLat := rfl
@[simp] theorem holdLink_outOe (h : Hold) (s : State) : (holdLink h s).outOe = s.outOe := rfl
@[simp] theorem holdLink_outCsN (h : Hold) (s : State) : (holdLink h s).outCsN = s.outCsN := rfl
@[simp] theorem holdLink_outSck (h : Hold) (s : State) : (holdLink h s).outSck = s.outSck := rfl
@[simp] theorem holdLink_outMosi (h : Hold) (s : State) : (holdLink h s).outMosi = s.outMosi := rfl
@[simp] theorem holdLink_cfg (h : Hold) (s : State) : (holdLink h s).cfg = s.cfg := rfl
@[simp] theorem holdLink_env (h : Hold) (s : State) : (holdLink h s).env = s.env := rfl
@[simp] theorem holdLink_trace (h : Hold) (s : State) : (holdLink h s).trace = .link (.hold h) :: s.trace := rfl
@[simp] theorem holdLink_request (h : Hold) (s : State) : (holdLink h s).request = s.request := rfl
@[simp] theorem holdLink_ret (h : Hold) (s : State) : (holdLink h s).ret = s.ret := rfl

/-! ### setRet -/

@[simp] theorem setRet_fb (r : Returned) (s : State) : (setRet r s).fb = s.fb := rfl
@[simp] theorem setRet_heldBits (r : Returned) (s : State) : (setRet r s).heldBits = s.heldBits := rfl
@[simp] theorem setRet_heldPos (r : Returned) (s : State) : (setRet r s).heldPos = s.heldPos := rfl
@[simp] theorem setRet_heldCheck (r : Returned) (s : State) : (setRet r s).heldCheck = s.heldCheck := rfl
@[simp] theorem setRet_cdNotify (r : Returned) (s : State) : (setRet r s).cdNotify = s.cdNotify := rfl
@[simp] theorem setRet_cdPoll (r : Returned) (s : State) : (setRet r s).cdPoll = s.cdPoll := rfl
@[simp] theorem setRet_btnSample (r : Returned) (s : State) : (setRet r s).btnSample = s.btnSample := rfl
@[simp] theorem setRet_txBuf (r : Returned) (s : State) : (setRet r s).txBuf = s.txBuf := rfl
@[simp] theorem setRet_rxBuf (r : Returned) (s : State) : (setRet r s).rxBuf = s.rxBuf := rfl
@[simp] theorem setRet_phase (r : Returned) (s : State) : (setRet r s).phase = s.phase := rfl
@[simp] theorem setRet_initIdx (r : Returned) (s : State) : (setRet r s).initIdx = s.initIdx := rfl
@[simp] theorem setRet_mapS (r : Returned) (s : State) : (setRet r s).mapS = s.mapS := rfl
@[simp] theorem setRet_scanRow (r : Returned) (s : State) : (setRet r s).scanRow = s.scanRow := rfl
@[simp] theorem setRet_scanCol (r : Returned) (s : State) : (setRet r s).scanCol = s.scanCol := rfl
@[simp] theorem setRet_scanStep (r : Returned) (s : State) : (setRet r s).scanStep = s.scanStep := rfl
@[simp] theorem setRet_linkLen (r : Returned) (s : State) : (setRet r s).linkLen = s.linkLen := rfl
@[simp] theorem setRet_linkByte (r : Returned) (s : State) : (setRet r s).linkByte = s.linkByte := rfl
@[simp] theorem setRet_linkBit (r : Returned) (s : State) : (setRet r s).linkBit = s.linkBit := rfl
@[simp] theorem setRet_waitCnt (r : Returned) (s : State) : (setRet r s).waitCnt = s.waitCnt := rfl
@[simp] theorem setRet_fault (r : Returned) (s : State) : (setRet r s).fault = s.fault := rfl
@[simp] theorem setRet_faultCode (r : Returned) (s : State) : (setRet r s).faultCode = s.faultCode := rfl
@[simp] theorem setRet_outAddr (r : Returned) (s : State) : (setRet r s).outAddr = s.outAddr := rfl
@[simp] theorem setRet_outRgb (r : Returned) (s : State) : (setRet r s).outRgb = s.outRgb := rfl
@[simp] theorem setRet_outSclk (r : Returned) (s : State) : (setRet r s).outSclk = s.outSclk := rfl
@[simp] theorem setRet_outLat (r : Returned) (s : State) : (setRet r s).outLat = s.outLat := rfl
@[simp] theorem setRet_outOe (r : Returned) (s : State) : (setRet r s).outOe = s.outOe := rfl
@[simp] theorem setRet_outCsN (r : Returned) (s : State) : (setRet r s).outCsN = s.outCsN := rfl
@[simp] theorem setRet_outSck (r : Returned) (s : State) : (setRet r s).outSck = s.outSck := rfl
@[simp] theorem setRet_outMosi (r : Returned) (s : State) : (setRet r s).outMosi = s.outMosi := rfl
@[simp] theorem setRet_cfg (r : Returned) (s : State) : (setRet r s).cfg = s.cfg := rfl
@[simp] theorem setRet_env (r : Returned) (s : State) : (setRet r s).env = s.env := rfl
@[simp] theorem setRet_trace (r : Returned) (s : State) : (setRet r s).trace = s.trace := rfl
@[simp] theorem setRet_request (r : Returned) (s : State) : (setRet r s).request = s.request := rfl
@[simp] theorem setRet_ret (r : Returned) (s : State) : (setRet r s).ret = r := rfl

/-! ### setPhase -/

@[simp] theorem setPhase_fb (p : BitVec 3) (s : State) : (setPhase p s).fb = s.fb := rfl
@[simp] theorem setPhase_heldBits (p : BitVec 3) (s : State) : (setPhase p s).heldBits = s.heldBits := rfl
@[simp] theorem setPhase_heldPos (p : BitVec 3) (s : State) : (setPhase p s).heldPos = s.heldPos := rfl
@[simp] theorem setPhase_heldCheck (p : BitVec 3) (s : State) : (setPhase p s).heldCheck = s.heldCheck := rfl
@[simp] theorem setPhase_cdNotify (p : BitVec 3) (s : State) : (setPhase p s).cdNotify = s.cdNotify := rfl
@[simp] theorem setPhase_cdPoll (p : BitVec 3) (s : State) : (setPhase p s).cdPoll = s.cdPoll := rfl
@[simp] theorem setPhase_btnSample (p : BitVec 3) (s : State) : (setPhase p s).btnSample = s.btnSample := rfl
@[simp] theorem setPhase_txBuf (p : BitVec 3) (s : State) : (setPhase p s).txBuf = s.txBuf := rfl
@[simp] theorem setPhase_rxBuf (p : BitVec 3) (s : State) : (setPhase p s).rxBuf = s.rxBuf := rfl
@[simp] theorem setPhase_phase (p : BitVec 3) (s : State) : (setPhase p s).phase = p := rfl
@[simp] theorem setPhase_initIdx (p : BitVec 3) (s : State) : (setPhase p s).initIdx = s.initIdx := rfl
@[simp] theorem setPhase_mapS (p : BitVec 3) (s : State) : (setPhase p s).mapS = s.mapS := rfl
@[simp] theorem setPhase_scanRow (p : BitVec 3) (s : State) : (setPhase p s).scanRow = s.scanRow := rfl
@[simp] theorem setPhase_scanCol (p : BitVec 3) (s : State) : (setPhase p s).scanCol = s.scanCol := rfl
@[simp] theorem setPhase_scanStep (p : BitVec 3) (s : State) : (setPhase p s).scanStep = s.scanStep := rfl
@[simp] theorem setPhase_linkLen (p : BitVec 3) (s : State) : (setPhase p s).linkLen = s.linkLen := rfl
@[simp] theorem setPhase_linkByte (p : BitVec 3) (s : State) : (setPhase p s).linkByte = s.linkByte := rfl
@[simp] theorem setPhase_linkBit (p : BitVec 3) (s : State) : (setPhase p s).linkBit = s.linkBit := rfl
@[simp] theorem setPhase_waitCnt (p : BitVec 3) (s : State) : (setPhase p s).waitCnt = s.waitCnt := rfl
@[simp] theorem setPhase_fault (p : BitVec 3) (s : State) : (setPhase p s).fault = s.fault := rfl
@[simp] theorem setPhase_faultCode (p : BitVec 3) (s : State) : (setPhase p s).faultCode = s.faultCode := rfl
@[simp] theorem setPhase_outAddr (p : BitVec 3) (s : State) : (setPhase p s).outAddr = s.outAddr := rfl
@[simp] theorem setPhase_outRgb (p : BitVec 3) (s : State) : (setPhase p s).outRgb = s.outRgb := rfl
@[simp] theorem setPhase_outSclk (p : BitVec 3) (s : State) : (setPhase p s).outSclk = s.outSclk := rfl
@[simp] theorem setPhase_outLat (p : BitVec 3) (s : State) : (setPhase p s).outLat = s.outLat := rfl
@[simp] theorem setPhase_outOe (p : BitVec 3) (s : State) : (setPhase p s).outOe = s.outOe := rfl
@[simp] theorem setPhase_outCsN (p : BitVec 3) (s : State) : (setPhase p s).outCsN = s.outCsN := rfl
@[simp] theorem setPhase_outSck (p : BitVec 3) (s : State) : (setPhase p s).outSck = s.outSck := rfl
@[simp] theorem setPhase_outMosi (p : BitVec 3) (s : State) : (setPhase p s).outMosi = s.outMosi := rfl
@[simp] theorem setPhase_cfg (p : BitVec 3) (s : State) : (setPhase p s).cfg = s.cfg := rfl
@[simp] theorem setPhase_env (p : BitVec 3) (s : State) : (setPhase p s).env = s.env := rfl
@[simp] theorem setPhase_trace (p : BitVec 3) (s : State) : (setPhase p s).trace = s.trace := rfl
@[simp] theorem setPhase_request (p : BitVec 3) (s : State) : (setPhase p s).request = s.request := rfl
@[simp] theorem setPhase_ret (p : BitVec 3) (s : State) : (setPhase p s).ret = s.ret := rfl

/-! ### setFb -/

@[simp] theorem setFb_fb (m : Memory) (s : State) : (setFb m s).fb = m := rfl
@[simp] theorem setFb_heldBits (m : Memory) (s : State) : (setFb m s).heldBits = s.heldBits := rfl
@[simp] theorem setFb_heldPos (m : Memory) (s : State) : (setFb m s).heldPos = s.heldPos := rfl
@[simp] theorem setFb_heldCheck (m : Memory) (s : State) : (setFb m s).heldCheck = s.heldCheck := rfl
@[simp] theorem setFb_cdNotify (m : Memory) (s : State) : (setFb m s).cdNotify = s.cdNotify := rfl
@[simp] theorem setFb_cdPoll (m : Memory) (s : State) : (setFb m s).cdPoll = s.cdPoll := rfl
@[simp] theorem setFb_btnSample (m : Memory) (s : State) : (setFb m s).btnSample = s.btnSample := rfl
@[simp] theorem setFb_txBuf (m : Memory) (s : State) : (setFb m s).txBuf = s.txBuf := rfl
@[simp] theorem setFb_rxBuf (m : Memory) (s : State) : (setFb m s).rxBuf = s.rxBuf := rfl
@[simp] theorem setFb_phase (m : Memory) (s : State) : (setFb m s).phase = s.phase := rfl
@[simp] theorem setFb_initIdx (m : Memory) (s : State) : (setFb m s).initIdx = s.initIdx := rfl
@[simp] theorem setFb_mapS (m : Memory) (s : State) : (setFb m s).mapS = s.mapS := rfl
@[simp] theorem setFb_scanRow (m : Memory) (s : State) : (setFb m s).scanRow = s.scanRow := rfl
@[simp] theorem setFb_scanCol (m : Memory) (s : State) : (setFb m s).scanCol = s.scanCol := rfl
@[simp] theorem setFb_scanStep (m : Memory) (s : State) : (setFb m s).scanStep = s.scanStep := rfl
@[simp] theorem setFb_linkLen (m : Memory) (s : State) : (setFb m s).linkLen = s.linkLen := rfl
@[simp] theorem setFb_linkByte (m : Memory) (s : State) : (setFb m s).linkByte = s.linkByte := rfl
@[simp] theorem setFb_linkBit (m : Memory) (s : State) : (setFb m s).linkBit = s.linkBit := rfl
@[simp] theorem setFb_waitCnt (m : Memory) (s : State) : (setFb m s).waitCnt = s.waitCnt := rfl
@[simp] theorem setFb_fault (m : Memory) (s : State) : (setFb m s).fault = s.fault := rfl
@[simp] theorem setFb_faultCode (m : Memory) (s : State) : (setFb m s).faultCode = s.faultCode := rfl
@[simp] theorem setFb_outAddr (m : Memory) (s : State) : (setFb m s).outAddr = s.outAddr := rfl
@[simp] theorem setFb_outRgb (m : Memory) (s : State) : (setFb m s).outRgb = s.outRgb := rfl
@[simp] theorem setFb_outSclk (m : Memory) (s : State) : (setFb m s).outSclk = s.outSclk := rfl
@[simp] theorem setFb_outLat (m : Memory) (s : State) : (setFb m s).outLat = s.outLat := rfl
@[simp] theorem setFb_outOe (m : Memory) (s : State) : (setFb m s).outOe = s.outOe := rfl
@[simp] theorem setFb_outCsN (m : Memory) (s : State) : (setFb m s).outCsN = s.outCsN := rfl
@[simp] theorem setFb_outSck (m : Memory) (s : State) : (setFb m s).outSck = s.outSck := rfl
@[simp] theorem setFb_outMosi (m : Memory) (s : State) : (setFb m s).outMosi = s.outMosi := rfl
@[simp] theorem setFb_cfg (m : Memory) (s : State) : (setFb m s).cfg = s.cfg := rfl
@[simp] theorem setFb_env (m : Memory) (s : State) : (setFb m s).env = s.env := rfl
@[simp] theorem setFb_trace (m : Memory) (s : State) : (setFb m s).trace = s.trace := rfl
@[simp] theorem setFb_request (m : Memory) (s : State) : (setFb m s).request = s.request := rfl
@[simp] theorem setFb_ret (m : Memory) (s : State) : (setFb m s).ret = s.ret := rfl

/-! ### raiseFault -/

@[simp] theorem raiseFault_fb (c : BitVec 4) (s : State) : (raiseFault c s).fb = s.fb := rfl
@[simp] theorem raiseFault_heldBits (c : BitVec 4) (s : State) : (raiseFault c s).heldBits = s.heldBits := rfl
@[simp] theorem raiseFault_heldPos (c : BitVec 4) (s : State) : (raiseFault c s).heldPos = s.heldPos := rfl
@[simp] theorem raiseFault_heldCheck (c : BitVec 4) (s : State) : (raiseFault c s).heldCheck = s.heldCheck := rfl
@[simp] theorem raiseFault_cdNotify (c : BitVec 4) (s : State) : (raiseFault c s).cdNotify = s.cdNotify := rfl
@[simp] theorem raiseFault_cdPoll (c : BitVec 4) (s : State) : (raiseFault c s).cdPoll = s.cdPoll := rfl
@[simp] theorem raiseFault_btnSample (c : BitVec 4) (s : State) : (raiseFault c s).btnSample = s.btnSample := rfl
@[simp] theorem raiseFault_txBuf (c : BitVec 4) (s : State) : (raiseFault c s).txBuf = s.txBuf := rfl
@[simp] theorem raiseFault_rxBuf (c : BitVec 4) (s : State) : (raiseFault c s).rxBuf = s.rxBuf := rfl
@[simp] theorem raiseFault_phase (c : BitVec 4) (s : State) : (raiseFault c s).phase = phaseHalt := rfl
@[simp] theorem raiseFault_initIdx (c : BitVec 4) (s : State) : (raiseFault c s).initIdx = s.initIdx := rfl
@[simp] theorem raiseFault_mapS (c : BitVec 4) (s : State) : (raiseFault c s).mapS = s.mapS := rfl
@[simp] theorem raiseFault_scanRow (c : BitVec 4) (s : State) : (raiseFault c s).scanRow = s.scanRow := rfl
@[simp] theorem raiseFault_scanCol (c : BitVec 4) (s : State) : (raiseFault c s).scanCol = s.scanCol := rfl
@[simp] theorem raiseFault_scanStep (c : BitVec 4) (s : State) : (raiseFault c s).scanStep = s.scanStep := rfl
@[simp] theorem raiseFault_linkLen (c : BitVec 4) (s : State) : (raiseFault c s).linkLen = s.linkLen := rfl
@[simp] theorem raiseFault_linkByte (c : BitVec 4) (s : State) : (raiseFault c s).linkByte = s.linkByte := rfl
@[simp] theorem raiseFault_linkBit (c : BitVec 4) (s : State) : (raiseFault c s).linkBit = s.linkBit := rfl
@[simp] theorem raiseFault_waitCnt (c : BitVec 4) (s : State) : (raiseFault c s).waitCnt = s.waitCnt := rfl
@[simp] theorem raiseFault_fault (c : BitVec 4) (s : State) : (raiseFault c s).fault = true := rfl
@[simp] theorem raiseFault_faultCode (c : BitVec 4) (s : State) : (raiseFault c s).faultCode = c := rfl
@[simp] theorem raiseFault_outAddr (c : BitVec 4) (s : State) : (raiseFault c s).outAddr = s.outAddr := rfl
@[simp] theorem raiseFault_outRgb (c : BitVec 4) (s : State) : (raiseFault c s).outRgb = s.outRgb := rfl
@[simp] theorem raiseFault_outSclk (c : BitVec 4) (s : State) : (raiseFault c s).outSclk = false := rfl
@[simp] theorem raiseFault_outLat (c : BitVec 4) (s : State) : (raiseFault c s).outLat = false := rfl
@[simp] theorem raiseFault_outOe (c : BitVec 4) (s : State) : (raiseFault c s).outOe = false := rfl
@[simp] theorem raiseFault_outCsN (c : BitVec 4) (s : State) : (raiseFault c s).outCsN = true := rfl
@[simp] theorem raiseFault_outSck (c : BitVec 4) (s : State) : (raiseFault c s).outSck = false := rfl
@[simp] theorem raiseFault_outMosi (c : BitVec 4) (s : State) : (raiseFault c s).outMosi = s.outMosi := rfl
@[simp] theorem raiseFault_cfg (c : BitVec 4) (s : State) : (raiseFault c s).cfg = s.cfg := rfl
@[simp] theorem raiseFault_env (c : BitVec 4) (s : State) : (raiseFault c s).env = s.env := rfl
@[simp] theorem raiseFault_trace (c : BitVec 4) (s : State) : (raiseFault c s).trace = .link (.sck false) :: .link (.csN true) :: .panel (.lat false) :: .panel (.sclk false) :: .panel (.oe false) :: s.trace := rfl
@[simp] theorem raiseFault_request (c : BitVec 4) (s : State) : (raiseFault c s).request = s.request := rfl
@[simp] theorem raiseFault_ret (c : BitVec 4) (s : State) : (raiseFault c s).ret = s.ret := rfl

/-! ### tickCounters -/

@[simp] theorem tickCounters_fb (s : State) : (tickCounters s).fb = s.fb := rfl
@[simp] theorem tickCounters_heldBits (s : State) : (tickCounters s).heldBits = s.heldBits := rfl
@[simp] theorem tickCounters_heldPos (s : State) : (tickCounters s).heldPos = s.heldPos := rfl
@[simp] theorem tickCounters_heldCheck (s : State) : (tickCounters s).heldCheck = s.heldCheck := rfl
@[simp] theorem tickCounters_cdNotify (s : State) : (tickCounters s).cdNotify = countDown s.cdNotify := rfl
@[simp] theorem tickCounters_cdPoll (s : State) : (tickCounters s).cdPoll = countDown s.cdPoll := rfl
@[simp] theorem tickCounters_btnSample (s : State) : (tickCounters s).btnSample = s.btnSample := rfl
@[simp] theorem tickCounters_txBuf (s : State) : (tickCounters s).txBuf = s.txBuf := rfl
@[simp] theorem tickCounters_rxBuf (s : State) : (tickCounters s).rxBuf = s.rxBuf := rfl
@[simp] theorem tickCounters_phase (s : State) : (tickCounters s).phase = s.phase := rfl
@[simp] theorem tickCounters_initIdx (s : State) : (tickCounters s).initIdx = s.initIdx := rfl
@[simp] theorem tickCounters_mapS (s : State) : (tickCounters s).mapS = s.mapS := rfl
@[simp] theorem tickCounters_scanRow (s : State) : (tickCounters s).scanRow = s.scanRow := rfl
@[simp] theorem tickCounters_scanCol (s : State) : (tickCounters s).scanCol = s.scanCol := rfl
@[simp] theorem tickCounters_scanStep (s : State) : (tickCounters s).scanStep = s.scanStep := rfl
@[simp] theorem tickCounters_linkLen (s : State) : (tickCounters s).linkLen = s.linkLen := rfl
@[simp] theorem tickCounters_linkByte (s : State) : (tickCounters s).linkByte = s.linkByte := rfl
@[simp] theorem tickCounters_linkBit (s : State) : (tickCounters s).linkBit = s.linkBit := rfl
@[simp] theorem tickCounters_waitCnt (s : State) : (tickCounters s).waitCnt = s.waitCnt := rfl
@[simp] theorem tickCounters_fault (s : State) : (tickCounters s).fault = s.fault := rfl
@[simp] theorem tickCounters_faultCode (s : State) : (tickCounters s).faultCode = s.faultCode := rfl
@[simp] theorem tickCounters_outAddr (s : State) : (tickCounters s).outAddr = s.outAddr := rfl
@[simp] theorem tickCounters_outRgb (s : State) : (tickCounters s).outRgb = s.outRgb := rfl
@[simp] theorem tickCounters_outSclk (s : State) : (tickCounters s).outSclk = s.outSclk := rfl
@[simp] theorem tickCounters_outLat (s : State) : (tickCounters s).outLat = s.outLat := rfl
@[simp] theorem tickCounters_outOe (s : State) : (tickCounters s).outOe = s.outOe := rfl
@[simp] theorem tickCounters_outCsN (s : State) : (tickCounters s).outCsN = s.outCsN := rfl
@[simp] theorem tickCounters_outSck (s : State) : (tickCounters s).outSck = s.outSck := rfl
@[simp] theorem tickCounters_outMosi (s : State) : (tickCounters s).outMosi = s.outMosi := rfl
@[simp] theorem tickCounters_cfg (s : State) : (tickCounters s).cfg = s.cfg := rfl
@[simp] theorem tickCounters_env (s : State) : (tickCounters s).env = s.env := rfl
@[simp] theorem tickCounters_trace (s : State) : (tickCounters s).trace = s.trace := rfl
@[simp] theorem tickCounters_request (s : State) : (tickCounters s).request = s.request := rfl
@[simp] theorem tickCounters_ret (s : State) : (tickCounters s).ret = s.ret := rfl

/-! ### takeTurn -/

@[simp] theorem takeTurn_fb (s : State) : (takeTurn s).fb = s.fb := rfl
@[simp] theorem takeTurn_heldBits (s : State) : (takeTurn s).heldBits = s.heldBits := rfl
@[simp] theorem takeTurn_heldPos (s : State) : (takeTurn s).heldPos = s.heldPos := rfl
@[simp] theorem takeTurn_heldCheck (s : State) : (takeTurn s).heldCheck = s.heldCheck := rfl
@[simp] theorem takeTurn_cdNotify (s : State) : (takeTurn s).cdNotify = s.cdNotify := rfl
@[simp] theorem takeTurn_cdPoll (s : State) : (takeTurn s).cdPoll = s.cdPoll := rfl
@[simp] theorem takeTurn_btnSample (s : State) : (takeTurn s).btnSample = s.btnSample := rfl
@[simp] theorem takeTurn_txBuf (s : State) : (takeTurn s).txBuf = s.txBuf := rfl
@[simp] theorem takeTurn_rxBuf (s : State) : (takeTurn s).rxBuf = s.rxBuf := rfl
@[simp] theorem takeTurn_phase (s : State) : (takeTurn s).phase = s.phase := rfl
@[simp] theorem takeTurn_initIdx (s : State) : (takeTurn s).initIdx = s.initIdx := rfl
@[simp] theorem takeTurn_mapS (s : State) : (takeTurn s).mapS = s.mapS := rfl
@[simp] theorem takeTurn_scanRow (s : State) : (takeTurn s).scanRow = s.scanRow := rfl
@[simp] theorem takeTurn_scanCol (s : State) : (takeTurn s).scanCol = s.scanCol := rfl
@[simp] theorem takeTurn_scanStep (s : State) : (takeTurn s).scanStep = s.scanStep := rfl
@[simp] theorem takeTurn_linkLen (s : State) : (takeTurn s).linkLen = s.linkLen := rfl
@[simp] theorem takeTurn_linkByte (s : State) : (takeTurn s).linkByte = s.linkByte := rfl
@[simp] theorem takeTurn_linkBit (s : State) : (takeTurn s).linkBit = s.linkBit := rfl
@[simp] theorem takeTurn_waitCnt (s : State) : (takeTurn s).waitCnt = s.waitCnt := rfl
@[simp] theorem takeTurn_fault (s : State) : (takeTurn s).fault = s.fault := rfl
@[simp] theorem takeTurn_faultCode (s : State) : (takeTurn s).faultCode = s.faultCode := rfl
@[simp] theorem takeTurn_outAddr (s : State) : (takeTurn s).outAddr = s.outAddr := rfl
@[simp] theorem takeTurn_outRgb (s : State) : (takeTurn s).outRgb = s.outRgb := rfl
@[simp] theorem takeTurn_outSclk (s : State) : (takeTurn s).outSclk = s.outSclk := rfl
@[simp] theorem takeTurn_outLat (s : State) : (takeTurn s).outLat = s.outLat := rfl
@[simp] theorem takeTurn_outOe (s : State) : (takeTurn s).outOe = s.outOe := rfl
@[simp] theorem takeTurn_outCsN (s : State) : (takeTurn s).outCsN = s.outCsN := rfl
@[simp] theorem takeTurn_outSck (s : State) : (takeTurn s).outSck = s.outSck := rfl
@[simp] theorem takeTurn_outMosi (s : State) : (takeTurn s).outMosi = s.outMosi := rfl
@[simp] theorem takeTurn_cfg (s : State) : (takeTurn s).cfg = s.cfg := rfl
@[simp] theorem takeTurn_trace (s : State) : (takeTurn s).trace = s.trace := rfl
@[simp] theorem takeTurn_request (s : State) : (takeTurn s).request = s.request := rfl
@[simp] theorem takeTurn_ret (s : State) : (takeTurn s).ret = s.ret := rfl

/-! ### takeButtons -/

@[simp] theorem takeButtons_fb (s : State) : (takeButtons s).fb = s.fb := rfl
@[simp] theorem takeButtons_heldBits (s : State) : (takeButtons s).heldBits = s.heldBits := rfl
@[simp] theorem takeButtons_heldPos (s : State) : (takeButtons s).heldPos = s.heldPos := rfl
@[simp] theorem takeButtons_heldCheck (s : State) : (takeButtons s).heldCheck = s.heldCheck := rfl
@[simp] theorem takeButtons_cdNotify (s : State) : (takeButtons s).cdNotify = s.cdNotify := rfl
@[simp] theorem takeButtons_cdPoll (s : State) : (takeButtons s).cdPoll = s.cdPoll := rfl
@[simp] theorem takeButtons_btnSample (s : State) : (takeButtons s).btnSample = s.btnSample := rfl
@[simp] theorem takeButtons_txBuf (s : State) : (takeButtons s).txBuf = s.txBuf := rfl
@[simp] theorem takeButtons_rxBuf (s : State) : (takeButtons s).rxBuf = s.rxBuf := rfl
@[simp] theorem takeButtons_phase (s : State) : (takeButtons s).phase = s.phase := rfl
@[simp] theorem takeButtons_initIdx (s : State) : (takeButtons s).initIdx = s.initIdx := rfl
@[simp] theorem takeButtons_mapS (s : State) : (takeButtons s).mapS = s.mapS := rfl
@[simp] theorem takeButtons_scanRow (s : State) : (takeButtons s).scanRow = s.scanRow := rfl
@[simp] theorem takeButtons_scanCol (s : State) : (takeButtons s).scanCol = s.scanCol := rfl
@[simp] theorem takeButtons_scanStep (s : State) : (takeButtons s).scanStep = s.scanStep := rfl
@[simp] theorem takeButtons_linkLen (s : State) : (takeButtons s).linkLen = s.linkLen := rfl
@[simp] theorem takeButtons_linkByte (s : State) : (takeButtons s).linkByte = s.linkByte := rfl
@[simp] theorem takeButtons_linkBit (s : State) : (takeButtons s).linkBit = s.linkBit := rfl
@[simp] theorem takeButtons_waitCnt (s : State) : (takeButtons s).waitCnt = s.waitCnt := rfl
@[simp] theorem takeButtons_fault (s : State) : (takeButtons s).fault = s.fault := rfl
@[simp] theorem takeButtons_faultCode (s : State) : (takeButtons s).faultCode = s.faultCode := rfl
@[simp] theorem takeButtons_outAddr (s : State) : (takeButtons s).outAddr = s.outAddr := rfl
@[simp] theorem takeButtons_outRgb (s : State) : (takeButtons s).outRgb = s.outRgb := rfl
@[simp] theorem takeButtons_outSclk (s : State) : (takeButtons s).outSclk = s.outSclk := rfl
@[simp] theorem takeButtons_outLat (s : State) : (takeButtons s).outLat = s.outLat := rfl
@[simp] theorem takeButtons_outOe (s : State) : (takeButtons s).outOe = s.outOe := rfl
@[simp] theorem takeButtons_outCsN (s : State) : (takeButtons s).outCsN = s.outCsN := rfl
@[simp] theorem takeButtons_outSck (s : State) : (takeButtons s).outSck = s.outSck := rfl
@[simp] theorem takeButtons_outMosi (s : State) : (takeButtons s).outMosi = s.outMosi := rfl
@[simp] theorem takeButtons_cfg (s : State) : (takeButtons s).cfg = s.cfg := rfl
@[simp] theorem takeButtons_trace (s : State) : (takeButtons s).trace = s.trace := rfl
@[simp] theorem takeButtons_request (s : State) : (takeButtons s).request = s.request := rfl
@[simp] theorem takeButtons_ret (s : State) : (takeButtons s).ret = s.ret := rfl

/-! ### takeMiso -/

@[simp] theorem takeMiso_fb (s : State) : (takeMiso s).fb = s.fb := rfl
@[simp] theorem takeMiso_heldBits (s : State) : (takeMiso s).heldBits = s.heldBits := rfl
@[simp] theorem takeMiso_heldPos (s : State) : (takeMiso s).heldPos = s.heldPos := rfl
@[simp] theorem takeMiso_heldCheck (s : State) : (takeMiso s).heldCheck = s.heldCheck := rfl
@[simp] theorem takeMiso_cdNotify (s : State) : (takeMiso s).cdNotify = s.cdNotify := rfl
@[simp] theorem takeMiso_cdPoll (s : State) : (takeMiso s).cdPoll = s.cdPoll := rfl
@[simp] theorem takeMiso_btnSample (s : State) : (takeMiso s).btnSample = s.btnSample := rfl
@[simp] theorem takeMiso_txBuf (s : State) : (takeMiso s).txBuf = s.txBuf := rfl
@[simp] theorem takeMiso_rxBuf (s : State) : (takeMiso s).rxBuf = s.rxBuf := rfl
@[simp] theorem takeMiso_phase (s : State) : (takeMiso s).phase = s.phase := rfl
@[simp] theorem takeMiso_initIdx (s : State) : (takeMiso s).initIdx = s.initIdx := rfl
@[simp] theorem takeMiso_mapS (s : State) : (takeMiso s).mapS = s.mapS := rfl
@[simp] theorem takeMiso_scanRow (s : State) : (takeMiso s).scanRow = s.scanRow := rfl
@[simp] theorem takeMiso_scanCol (s : State) : (takeMiso s).scanCol = s.scanCol := rfl
@[simp] theorem takeMiso_scanStep (s : State) : (takeMiso s).scanStep = s.scanStep := rfl
@[simp] theorem takeMiso_linkLen (s : State) : (takeMiso s).linkLen = s.linkLen := rfl
@[simp] theorem takeMiso_linkByte (s : State) : (takeMiso s).linkByte = s.linkByte := rfl
@[simp] theorem takeMiso_linkBit (s : State) : (takeMiso s).linkBit = s.linkBit := rfl
@[simp] theorem takeMiso_waitCnt (s : State) : (takeMiso s).waitCnt = s.waitCnt := rfl
@[simp] theorem takeMiso_fault (s : State) : (takeMiso s).fault = s.fault := rfl
@[simp] theorem takeMiso_faultCode (s : State) : (takeMiso s).faultCode = s.faultCode := rfl
@[simp] theorem takeMiso_outAddr (s : State) : (takeMiso s).outAddr = s.outAddr := rfl
@[simp] theorem takeMiso_outRgb (s : State) : (takeMiso s).outRgb = s.outRgb := rfl
@[simp] theorem takeMiso_outSclk (s : State) : (takeMiso s).outSclk = s.outSclk := rfl
@[simp] theorem takeMiso_outLat (s : State) : (takeMiso s).outLat = s.outLat := rfl
@[simp] theorem takeMiso_outOe (s : State) : (takeMiso s).outOe = s.outOe := rfl
@[simp] theorem takeMiso_outCsN (s : State) : (takeMiso s).outCsN = s.outCsN := rfl
@[simp] theorem takeMiso_outSck (s : State) : (takeMiso s).outSck = s.outSck := rfl
@[simp] theorem takeMiso_outMosi (s : State) : (takeMiso s).outMosi = s.outMosi := rfl
@[simp] theorem takeMiso_cfg (s : State) : (takeMiso s).cfg = s.cfg := rfl
@[simp] theorem takeMiso_trace (s : State) : (takeMiso s).trace = .link (.miso (nextMiso s)) :: s.trace := rfl
@[simp] theorem takeMiso_request (s : State) : (takeMiso s).request = s.request := rfl
@[simp] theorem takeMiso_ret (s : State) : (takeMiso s).ret = s.ret := rfl

/-! ### takeRequest -/

@[simp] theorem takeRequest_fb (s : State) : (takeRequest s).fb = s.fb := rfl
@[simp] theorem takeRequest_heldBits (s : State) : (takeRequest s).heldBits = s.heldBits := rfl
@[simp] theorem takeRequest_heldPos (s : State) : (takeRequest s).heldPos = s.heldPos := rfl
@[simp] theorem takeRequest_heldCheck (s : State) : (takeRequest s).heldCheck = s.heldCheck := rfl
@[simp] theorem takeRequest_cdNotify (s : State) : (takeRequest s).cdNotify = s.cdNotify := rfl
@[simp] theorem takeRequest_cdPoll (s : State) : (takeRequest s).cdPoll = s.cdPoll := rfl
@[simp] theorem takeRequest_btnSample (s : State) : (takeRequest s).btnSample = s.btnSample := rfl
@[simp] theorem takeRequest_txBuf (s : State) : (takeRequest s).txBuf = s.txBuf := rfl
@[simp] theorem takeRequest_rxBuf (s : State) : (takeRequest s).rxBuf = s.rxBuf := rfl
@[simp] theorem takeRequest_phase (s : State) : (takeRequest s).phase = s.phase := rfl
@[simp] theorem takeRequest_initIdx (s : State) : (takeRequest s).initIdx = s.initIdx := rfl
@[simp] theorem takeRequest_mapS (s : State) : (takeRequest s).mapS = s.mapS := rfl
@[simp] theorem takeRequest_scanRow (s : State) : (takeRequest s).scanRow = s.scanRow := rfl
@[simp] theorem takeRequest_scanCol (s : State) : (takeRequest s).scanCol = s.scanCol := rfl
@[simp] theorem takeRequest_scanStep (s : State) : (takeRequest s).scanStep = s.scanStep := rfl
@[simp] theorem takeRequest_linkLen (s : State) : (takeRequest s).linkLen = s.linkLen := rfl
@[simp] theorem takeRequest_linkByte (s : State) : (takeRequest s).linkByte = s.linkByte := rfl
@[simp] theorem takeRequest_linkBit (s : State) : (takeRequest s).linkBit = s.linkBit := rfl
@[simp] theorem takeRequest_waitCnt (s : State) : (takeRequest s).waitCnt = s.waitCnt := rfl
@[simp] theorem takeRequest_fault (s : State) : (takeRequest s).fault = s.fault := rfl
@[simp] theorem takeRequest_faultCode (s : State) : (takeRequest s).faultCode = s.faultCode := rfl
@[simp] theorem takeRequest_outAddr (s : State) : (takeRequest s).outAddr = s.outAddr := rfl
@[simp] theorem takeRequest_outRgb (s : State) : (takeRequest s).outRgb = s.outRgb := rfl
@[simp] theorem takeRequest_outSclk (s : State) : (takeRequest s).outSclk = s.outSclk := rfl
@[simp] theorem takeRequest_outLat (s : State) : (takeRequest s).outLat = s.outLat := rfl
@[simp] theorem takeRequest_outOe (s : State) : (takeRequest s).outOe = s.outOe := rfl
@[simp] theorem takeRequest_outCsN (s : State) : (takeRequest s).outCsN = s.outCsN := rfl
@[simp] theorem takeRequest_outSck (s : State) : (takeRequest s).outSck = s.outSck := rfl
@[simp] theorem takeRequest_outMosi (s : State) : (takeRequest s).outMosi = s.outMosi := rfl
@[simp] theorem takeRequest_cfg (s : State) : (takeRequest s).cfg = s.cfg := rfl
@[simp] theorem takeRequest_env (s : State) : (takeRequest s).env = s.env := rfl
@[simp] theorem takeRequest_trace (s : State) : (takeRequest s).trace = s.trace := rfl
@[simp] theorem takeRequest_request (s : State) : (takeRequest s).request = none := rfl
@[simp] theorem takeRequest_ret (s : State) : (takeRequest s).ret = s.ret := rfl

/-! ### loadFrame -/

@[simp] theorem loadFrame_fb (bs : List Byte) (n : FrameLength) (s : State) : (loadFrame bs n s).fb = s.fb := rfl
@[simp] theorem loadFrame_heldBits (bs : List Byte) (n : FrameLength) (s : State) : (loadFrame bs n s).heldBits = s.heldBits := rfl
@[simp] theorem loadFrame_heldPos (bs : List Byte) (n : FrameLength) (s : State) : (loadFrame bs n s).heldPos = s.heldPos := rfl
@[simp] theorem loadFrame_heldCheck (bs : List Byte) (n : FrameLength) (s : State) : (loadFrame bs n s).heldCheck = s.heldCheck := rfl
@[simp] theorem loadFrame_cdNotify (bs : List Byte) (n : FrameLength) (s : State) : (loadFrame bs n s).cdNotify = s.cdNotify := rfl
@[simp] theorem loadFrame_cdPoll (bs : List Byte) (n : FrameLength) (s : State) : (loadFrame bs n s).cdPoll = s.cdPoll := rfl
@[simp] theorem loadFrame_btnSample (bs : List Byte) (n : FrameLength) (s : State) : (loadFrame bs n s).btnSample = s.btnSample := rfl
@[simp] theorem loadFrame_txBuf (bs : List Byte) (n : FrameLength) (s : State) : (loadFrame bs n s).txBuf = FrameBuf.fill s.txBuf 0 bs := rfl
@[simp] theorem loadFrame_rxBuf (bs : List Byte) (n : FrameLength) (s : State) : (loadFrame bs n s).rxBuf = s.rxBuf := rfl
@[simp] theorem loadFrame_phase (bs : List Byte) (n : FrameLength) (s : State) : (loadFrame bs n s).phase = s.phase := rfl
@[simp] theorem loadFrame_initIdx (bs : List Byte) (n : FrameLength) (s : State) : (loadFrame bs n s).initIdx = s.initIdx := rfl
@[simp] theorem loadFrame_mapS (bs : List Byte) (n : FrameLength) (s : State) : (loadFrame bs n s).mapS = s.mapS := rfl
@[simp] theorem loadFrame_scanRow (bs : List Byte) (n : FrameLength) (s : State) : (loadFrame bs n s).scanRow = s.scanRow := rfl
@[simp] theorem loadFrame_scanCol (bs : List Byte) (n : FrameLength) (s : State) : (loadFrame bs n s).scanCol = s.scanCol := rfl
@[simp] theorem loadFrame_scanStep (bs : List Byte) (n : FrameLength) (s : State) : (loadFrame bs n s).scanStep = s.scanStep := rfl
@[simp] theorem loadFrame_linkLen (bs : List Byte) (n : FrameLength) (s : State) : (loadFrame bs n s).linkLen = n.bytes := rfl
@[simp] theorem loadFrame_linkByte (bs : List Byte) (n : FrameLength) (s : State) : (loadFrame bs n s).linkByte = s.linkByte := rfl
@[simp] theorem loadFrame_linkBit (bs : List Byte) (n : FrameLength) (s : State) : (loadFrame bs n s).linkBit = s.linkBit := rfl
@[simp] theorem loadFrame_waitCnt (bs : List Byte) (n : FrameLength) (s : State) : (loadFrame bs n s).waitCnt = s.waitCnt := rfl
@[simp] theorem loadFrame_fault (bs : List Byte) (n : FrameLength) (s : State) : (loadFrame bs n s).fault = s.fault := rfl
@[simp] theorem loadFrame_faultCode (bs : List Byte) (n : FrameLength) (s : State) : (loadFrame bs n s).faultCode = s.faultCode := rfl
@[simp] theorem loadFrame_outAddr (bs : List Byte) (n : FrameLength) (s : State) : (loadFrame bs n s).outAddr = s.outAddr := rfl
@[simp] theorem loadFrame_outRgb (bs : List Byte) (n : FrameLength) (s : State) : (loadFrame bs n s).outRgb = s.outRgb := rfl
@[simp] theorem loadFrame_outSclk (bs : List Byte) (n : FrameLength) (s : State) : (loadFrame bs n s).outSclk = s.outSclk := rfl
@[simp] theorem loadFrame_outLat (bs : List Byte) (n : FrameLength) (s : State) : (loadFrame bs n s).outLat = s.outLat := rfl
@[simp] theorem loadFrame_outOe (bs : List Byte) (n : FrameLength) (s : State) : (loadFrame bs n s).outOe = s.outOe := rfl
@[simp] theorem loadFrame_outCsN (bs : List Byte) (n : FrameLength) (s : State) : (loadFrame bs n s).outCsN = s.outCsN := rfl
@[simp] theorem loadFrame_outSck (bs : List Byte) (n : FrameLength) (s : State) : (loadFrame bs n s).outSck = s.outSck := rfl
@[simp] theorem loadFrame_outMosi (bs : List Byte) (n : FrameLength) (s : State) : (loadFrame bs n s).outMosi = s.outMosi := rfl
@[simp] theorem loadFrame_cfg (bs : List Byte) (n : FrameLength) (s : State) : (loadFrame bs n s).cfg = s.cfg := rfl
@[simp] theorem loadFrame_env (bs : List Byte) (n : FrameLength) (s : State) : (loadFrame bs n s).env = s.env := rfl
@[simp] theorem loadFrame_trace (bs : List Byte) (n : FrameLength) (s : State) : (loadFrame bs n s).trace = s.trace := rfl
@[simp] theorem loadFrame_request (bs : List Byte) (n : FrameLength) (s : State) : (loadFrame bs n s).request = s.request := rfl
@[simp] theorem loadFrame_ret (bs : List Byte) (n : FrameLength) (s : State) : (loadFrame bs n s).ret = s.ret := rfl

/-! ### pollAccept -/

@[simp] theorem pollAccept_fb (s : State) : (pollAccept s).fb = s.fb := rfl
@[simp] theorem pollAccept_heldBits (s : State) : (pollAccept s).heldBits = if rspOk s then bitfieldOf (FrameBuf.byte s.rxBuf 7) (FrameBuf.byte s.rxBuf 8) (FrameBuf.byte s.rxBuf 9) else s.heldBits := rfl
@[simp] theorem pollAccept_heldPos (s : State) : (pollAccept s).heldPos = if rspOk s then FrameBuf.byte s.rxBuf 10 else s.heldPos := rfl
@[simp] theorem pollAccept_heldCheck (s : State) : (pollAccept s).heldCheck = if rspOk s then FrameBuf.byte s.rxBuf 6 else s.heldCheck := rfl
@[simp] theorem pollAccept_cdNotify (s : State) : (pollAccept s).cdNotify = s.cdNotify := rfl
@[simp] theorem pollAccept_cdPoll (s : State) : (pollAccept s).cdPoll = s.cdPoll := rfl
@[simp] theorem pollAccept_btnSample (s : State) : (pollAccept s).btnSample = s.btnSample := rfl
@[simp] theorem pollAccept_txBuf (s : State) : (pollAccept s).txBuf = s.txBuf := rfl
@[simp] theorem pollAccept_rxBuf (s : State) : (pollAccept s).rxBuf = s.rxBuf := rfl
@[simp] theorem pollAccept_phase (s : State) : (pollAccept s).phase = s.phase := rfl
@[simp] theorem pollAccept_initIdx (s : State) : (pollAccept s).initIdx = s.initIdx := rfl
@[simp] theorem pollAccept_mapS (s : State) : (pollAccept s).mapS = s.mapS := rfl
@[simp] theorem pollAccept_scanRow (s : State) : (pollAccept s).scanRow = s.scanRow := rfl
@[simp] theorem pollAccept_scanCol (s : State) : (pollAccept s).scanCol = s.scanCol := rfl
@[simp] theorem pollAccept_scanStep (s : State) : (pollAccept s).scanStep = s.scanStep := rfl
@[simp] theorem pollAccept_linkLen (s : State) : (pollAccept s).linkLen = s.linkLen := rfl
@[simp] theorem pollAccept_linkByte (s : State) : (pollAccept s).linkByte = s.linkByte := rfl
@[simp] theorem pollAccept_linkBit (s : State) : (pollAccept s).linkBit = s.linkBit := rfl
@[simp] theorem pollAccept_waitCnt (s : State) : (pollAccept s).waitCnt = s.waitCnt := rfl
@[simp] theorem pollAccept_fault (s : State) : (pollAccept s).fault = s.fault := rfl
@[simp] theorem pollAccept_faultCode (s : State) : (pollAccept s).faultCode = s.faultCode := rfl
@[simp] theorem pollAccept_outAddr (s : State) : (pollAccept s).outAddr = s.outAddr := rfl
@[simp] theorem pollAccept_outRgb (s : State) : (pollAccept s).outRgb = s.outRgb := rfl
@[simp] theorem pollAccept_outSclk (s : State) : (pollAccept s).outSclk = s.outSclk := rfl
@[simp] theorem pollAccept_outLat (s : State) : (pollAccept s).outLat = s.outLat := rfl
@[simp] theorem pollAccept_outOe (s : State) : (pollAccept s).outOe = s.outOe := rfl
@[simp] theorem pollAccept_outCsN (s : State) : (pollAccept s).outCsN = s.outCsN := rfl
@[simp] theorem pollAccept_outSck (s : State) : (pollAccept s).outSck = s.outSck := rfl
@[simp] theorem pollAccept_outMosi (s : State) : (pollAccept s).outMosi = s.outMosi := rfl
@[simp] theorem pollAccept_cfg (s : State) : (pollAccept s).cfg = s.cfg := rfl
@[simp] theorem pollAccept_env (s : State) : (pollAccept s).env = s.env := rfl
@[simp] theorem pollAccept_trace (s : State) : (pollAccept s).trace = s.trace := rfl
@[simp] theorem pollAccept_request (s : State) : (pollAccept s).request = s.request := rfl
@[simp] theorem pollAccept_ret (s : State) : (pollAccept s).ret = s.ret := rfl

/-! ### rowBegin -/

@[simp] theorem rowBegin_fb (s : State) : (rowBegin s).fb = s.fb := rfl
@[simp] theorem rowBegin_heldBits (s : State) : (rowBegin s).heldBits = s.heldBits := rfl
@[simp] theorem rowBegin_heldPos (s : State) : (rowBegin s).heldPos = s.heldPos := rfl
@[simp] theorem rowBegin_heldCheck (s : State) : (rowBegin s).heldCheck = s.heldCheck := rfl
@[simp] theorem rowBegin_cdNotify (s : State) : (rowBegin s).cdNotify = s.cdNotify := rfl
@[simp] theorem rowBegin_cdPoll (s : State) : (rowBegin s).cdPoll = s.cdPoll := rfl
@[simp] theorem rowBegin_btnSample (s : State) : (rowBegin s).btnSample = s.btnSample := rfl
@[simp] theorem rowBegin_txBuf (s : State) : (rowBegin s).txBuf = s.txBuf := rfl
@[simp] theorem rowBegin_rxBuf (s : State) : (rowBegin s).rxBuf = s.rxBuf := rfl
@[simp] theorem rowBegin_phase (s : State) : (rowBegin s).phase = s.phase := rfl
@[simp] theorem rowBegin_initIdx (s : State) : (rowBegin s).initIdx = s.initIdx := rfl
@[simp] theorem rowBegin_mapS (s : State) : (rowBegin s).mapS = s.mapS := rfl
@[simp] theorem rowBegin_scanRow (s : State) : (rowBegin s).scanRow = s.scanRow := rfl
@[simp] theorem rowBegin_scanCol (s : State) : (rowBegin s).scanCol = 0#5 := rfl
@[simp] theorem rowBegin_scanStep (s : State) : (rowBegin s).scanStep = stepShiftSetup := rfl
@[simp] theorem rowBegin_linkLen (s : State) : (rowBegin s).linkLen = s.linkLen := rfl
@[simp] theorem rowBegin_linkByte (s : State) : (rowBegin s).linkByte = s.linkByte := rfl
@[simp] theorem rowBegin_linkBit (s : State) : (rowBegin s).linkBit = s.linkBit := rfl
@[simp] theorem rowBegin_waitCnt (s : State) : (rowBegin s).waitCnt = 0 := rfl
@[simp] theorem rowBegin_fault (s : State) : (rowBegin s).fault = s.fault := rfl
@[simp] theorem rowBegin_faultCode (s : State) : (rowBegin s).faultCode = s.faultCode := rfl
@[simp] theorem rowBegin_outAddr (s : State) : (rowBegin s).outAddr = s.outAddr := rfl
@[simp] theorem rowBegin_outRgb (s : State) : (rowBegin s).outRgb = s.outRgb := rfl
@[simp] theorem rowBegin_outSclk (s : State) : (rowBegin s).outSclk = s.outSclk := rfl
@[simp] theorem rowBegin_outLat (s : State) : (rowBegin s).outLat = true := rfl
@[simp] theorem rowBegin_outOe (s : State) : (rowBegin s).outOe = false := rfl
@[simp] theorem rowBegin_outCsN (s : State) : (rowBegin s).outCsN = s.outCsN := rfl
@[simp] theorem rowBegin_outSck (s : State) : (rowBegin s).outSck = s.outSck := rfl
@[simp] theorem rowBegin_outMosi (s : State) : (rowBegin s).outMosi = s.outMosi := rfl
@[simp] theorem rowBegin_cfg (s : State) : (rowBegin s).cfg = s.cfg := rfl
@[simp] theorem rowBegin_env (s : State) : (rowBegin s).env = s.env := rfl
@[simp] theorem rowBegin_trace (s : State) : (rowBegin s).trace = .panel (.lat true) :: .panel (.hold (holdGap s.cfg s.cfg.tOeGap)) :: .panel (.oe false) :: s.trace := rfl
@[simp] theorem rowBegin_request (s : State) : (rowBegin s).request = s.request := rfl
@[simp] theorem rowBegin_ret (s : State) : (rowBegin s).ret = s.ret := rfl

/-! ### shiftSetup -/

@[simp] theorem shiftSetup_fb (s : State) : (shiftSetup s).fb = s.fb := rfl
@[simp] theorem shiftSetup_heldBits (s : State) : (shiftSetup s).heldBits = s.heldBits := rfl
@[simp] theorem shiftSetup_heldPos (s : State) : (shiftSetup s).heldPos = s.heldPos := rfl
@[simp] theorem shiftSetup_heldCheck (s : State) : (shiftSetup s).heldCheck = s.heldCheck := rfl
@[simp] theorem shiftSetup_cdNotify (s : State) : (shiftSetup s).cdNotify = s.cdNotify := rfl
@[simp] theorem shiftSetup_cdPoll (s : State) : (shiftSetup s).cdPoll = s.cdPoll := rfl
@[simp] theorem shiftSetup_btnSample (s : State) : (shiftSetup s).btnSample = s.btnSample := rfl
@[simp] theorem shiftSetup_txBuf (s : State) : (shiftSetup s).txBuf = s.txBuf := rfl
@[simp] theorem shiftSetup_rxBuf (s : State) : (shiftSetup s).rxBuf = s.rxBuf := rfl
@[simp] theorem shiftSetup_phase (s : State) : (shiftSetup s).phase = s.phase := rfl
@[simp] theorem shiftSetup_initIdx (s : State) : (shiftSetup s).initIdx = s.initIdx := rfl
@[simp] theorem shiftSetup_mapS (s : State) : (shiftSetup s).mapS = s.mapS := rfl
@[simp] theorem shiftSetup_scanRow (s : State) : (shiftSetup s).scanRow = s.scanRow := rfl
@[simp] theorem shiftSetup_scanCol (s : State) : (shiftSetup s).scanCol = s.scanCol := rfl
@[simp] theorem shiftSetup_scanStep (s : State) : (shiftSetup s).scanStep = stepShiftHigh := rfl
@[simp] theorem shiftSetup_linkLen (s : State) : (shiftSetup s).linkLen = s.linkLen := rfl
@[simp] theorem shiftSetup_linkByte (s : State) : (shiftSetup s).linkByte = s.linkByte := rfl
@[simp] theorem shiftSetup_linkBit (s : State) : (shiftSetup s).linkBit = s.linkBit := rfl
@[simp] theorem shiftSetup_waitCnt (s : State) : (shiftSetup s).waitCnt = 0 := rfl
@[simp] theorem shiftSetup_fault (s : State) : (shiftSetup s).fault = s.fault := rfl
@[simp] theorem shiftSetup_faultCode (s : State) : (shiftSetup s).faultCode = s.faultCode := rfl
@[simp] theorem shiftSetup_outAddr (s : State) : (shiftSetup s).outAddr = (decodeCellOf (fbRead s.scanRow s.scanCol s)).addr := rfl
@[simp] theorem shiftSetup_outRgb (s : State) : (shiftSetup s).outRgb = (decodeCellOf (fbRead s.scanRow s.scanCol s)).rgb := rfl
@[simp] theorem shiftSetup_outSclk (s : State) : (shiftSetup s).outSclk = s.outSclk := rfl
@[simp] theorem shiftSetup_outLat (s : State) : (shiftSetup s).outLat = s.outLat := rfl
@[simp] theorem shiftSetup_outOe (s : State) : (shiftSetup s).outOe = s.outOe := rfl
@[simp] theorem shiftSetup_outCsN (s : State) : (shiftSetup s).outCsN = s.outCsN := rfl
@[simp] theorem shiftSetup_outSck (s : State) : (shiftSetup s).outSck = s.outSck := rfl
@[simp] theorem shiftSetup_outMosi (s : State) : (shiftSetup s).outMosi = s.outMosi := rfl
@[simp] theorem shiftSetup_cfg (s : State) : (shiftSetup s).cfg = s.cfg := rfl
@[simp] theorem shiftSetup_env (s : State) : (shiftSetup s).env = s.env := rfl
@[simp] theorem shiftSetup_trace (s : State) : (shiftSetup s).trace = .panel (.hold (holdAtLeast s.cfg s.cfg.tSetup)) :: .panel (.lines (decodeCellOf (fbRead s.scanRow s.scanCol s)))
    :: .panel (.hold holdOne) :: s.trace := rfl
@[simp] theorem shiftSetup_request (s : State) : (shiftSetup s).request = s.request := rfl
@[simp] theorem shiftSetup_ret (s : State) : (shiftSetup s).ret = s.ret := rfl

/-! ### shiftHigh -/

@[simp] theorem shiftHigh_fb (s : State) : (shiftHigh s).fb = s.fb := rfl
@[simp] theorem shiftHigh_heldBits (s : State) : (shiftHigh s).heldBits = s.heldBits := rfl
@[simp] theorem shiftHigh_heldPos (s : State) : (shiftHigh s).heldPos = s.heldPos := rfl
@[simp] theorem shiftHigh_heldCheck (s : State) : (shiftHigh s).heldCheck = s.heldCheck := rfl
@[simp] theorem shiftHigh_cdNotify (s : State) : (shiftHigh s).cdNotify = s.cdNotify := rfl
@[simp] theorem shiftHigh_cdPoll (s : State) : (shiftHigh s).cdPoll = s.cdPoll := rfl
@[simp] theorem shiftHigh_btnSample (s : State) : (shiftHigh s).btnSample = s.btnSample := rfl
@[simp] theorem shiftHigh_txBuf (s : State) : (shiftHigh s).txBuf = s.txBuf := rfl
@[simp] theorem shiftHigh_rxBuf (s : State) : (shiftHigh s).rxBuf = s.rxBuf := rfl
@[simp] theorem shiftHigh_phase (s : State) : (shiftHigh s).phase = s.phase := rfl
@[simp] theorem shiftHigh_initIdx (s : State) : (shiftHigh s).initIdx = s.initIdx := rfl
@[simp] theorem shiftHigh_mapS (s : State) : (shiftHigh s).mapS = s.mapS := rfl
@[simp] theorem shiftHigh_scanRow (s : State) : (shiftHigh s).scanRow = s.scanRow := rfl
@[simp] theorem shiftHigh_scanCol (s : State) : (shiftHigh s).scanCol = if s.scanCol.toNat < 31 then s.scanCol + 1#5 else s.scanCol := rfl
@[simp] theorem shiftHigh_scanStep (s : State) : (shiftHigh s).scanStep = if s.scanCol.toNat < 31 then stepShiftSetup else stepRowCommit := rfl
@[simp] theorem shiftHigh_linkLen (s : State) : (shiftHigh s).linkLen = s.linkLen := rfl
@[simp] theorem shiftHigh_linkByte (s : State) : (shiftHigh s).linkByte = s.linkByte := rfl
@[simp] theorem shiftHigh_linkBit (s : State) : (shiftHigh s).linkBit = s.linkBit := rfl
@[simp] theorem shiftHigh_waitCnt (s : State) : (shiftHigh s).waitCnt = 0 := rfl
@[simp] theorem shiftHigh_fault (s : State) : (shiftHigh s).fault = s.fault := rfl
@[simp] theorem shiftHigh_faultCode (s : State) : (shiftHigh s).faultCode = s.faultCode := rfl
@[simp] theorem shiftHigh_outAddr (s : State) : (shiftHigh s).outAddr = s.outAddr := rfl
@[simp] theorem shiftHigh_outRgb (s : State) : (shiftHigh s).outRgb = s.outRgb := rfl
@[simp] theorem shiftHigh_outSclk (s : State) : (shiftHigh s).outSclk = false := rfl
@[simp] theorem shiftHigh_outLat (s : State) : (shiftHigh s).outLat = s.outLat := rfl
@[simp] theorem shiftHigh_outOe (s : State) : (shiftHigh s).outOe = s.outOe := rfl
@[simp] theorem shiftHigh_outCsN (s : State) : (shiftHigh s).outCsN = s.outCsN := rfl
@[simp] theorem shiftHigh_outSck (s : State) : (shiftHigh s).outSck = s.outSck := rfl
@[simp] theorem shiftHigh_outMosi (s : State) : (shiftHigh s).outMosi = s.outMosi := rfl
@[simp] theorem shiftHigh_cfg (s : State) : (shiftHigh s).cfg = s.cfg := rfl
@[simp] theorem shiftHigh_env (s : State) : (shiftHigh s).env = s.env := rfl
@[simp] theorem shiftHigh_trace (s : State) : (shiftHigh s).trace = .panel (.sclk false) :: .panel (.hold (holdAtLeast s.cfg s.cfg.tSclkHigh)) :: .panel (.sclk true) :: s.trace := rfl
@[simp] theorem shiftHigh_request (s : State) : (shiftHigh s).request = s.request := rfl
@[simp] theorem shiftHigh_ret (s : State) : (shiftHigh s).ret = s.ret := rfl

/-! ### rowCommit -/

@[simp] theorem rowCommit_fb (s : State) : (rowCommit s).fb = s.fb := rfl
@[simp] theorem rowCommit_heldBits (s : State) : (rowCommit s).heldBits = s.heldBits := rfl
@[simp] theorem rowCommit_heldPos (s : State) : (rowCommit s).heldPos = s.heldPos := rfl
@[simp] theorem rowCommit_heldCheck (s : State) : (rowCommit s).heldCheck = s.heldCheck := rfl
@[simp] theorem rowCommit_cdNotify (s : State) : (rowCommit s).cdNotify = s.cdNotify := rfl
@[simp] theorem rowCommit_cdPoll (s : State) : (rowCommit s).cdPoll = s.cdPoll := rfl
@[simp] theorem rowCommit_btnSample (s : State) : (rowCommit s).btnSample = s.btnSample := rfl
@[simp] theorem rowCommit_txBuf (s : State) : (rowCommit s).txBuf = s.txBuf := rfl
@[simp] theorem rowCommit_rxBuf (s : State) : (rowCommit s).rxBuf = s.rxBuf := rfl
@[simp] theorem rowCommit_phase (s : State) : (rowCommit s).phase = s.phase := rfl
@[simp] theorem rowCommit_initIdx (s : State) : (rowCommit s).initIdx = s.initIdx := rfl
@[simp] theorem rowCommit_mapS (s : State) : (rowCommit s).mapS = s.mapS := rfl
@[simp] theorem rowCommit_scanRow (s : State) : (rowCommit s).scanRow = s.scanRow := rfl
@[simp] theorem rowCommit_scanCol (s : State) : (rowCommit s).scanCol = s.scanCol := rfl
@[simp] theorem rowCommit_scanStep (s : State) : (rowCommit s).scanStep = stepRowDwell := rfl
@[simp] theorem rowCommit_linkLen (s : State) : (rowCommit s).linkLen = s.linkLen := rfl
@[simp] theorem rowCommit_linkByte (s : State) : (rowCommit s).linkByte = s.linkByte := rfl
@[simp] theorem rowCommit_linkBit (s : State) : (rowCommit s).linkBit = s.linkBit := rfl
@[simp] theorem rowCommit_waitCnt (s : State) : (rowCommit s).waitCnt = 0 := rfl
@[simp] theorem rowCommit_fault (s : State) : (rowCommit s).fault = s.fault := rfl
@[simp] theorem rowCommit_faultCode (s : State) : (rowCommit s).faultCode = s.faultCode := rfl
@[simp] theorem rowCommit_outAddr (s : State) : (rowCommit s).outAddr = s.outAddr := rfl
@[simp] theorem rowCommit_outRgb (s : State) : (rowCommit s).outRgb = s.outRgb := rfl
@[simp] theorem rowCommit_outSclk (s : State) : (rowCommit s).outSclk = s.outSclk := rfl
@[simp] theorem rowCommit_outLat (s : State) : (rowCommit s).outLat = false := rfl
@[simp] theorem rowCommit_outOe (s : State) : (rowCommit s).outOe = s.outOe := rfl
@[simp] theorem rowCommit_outCsN (s : State) : (rowCommit s).outCsN = s.outCsN := rfl
@[simp] theorem rowCommit_outSck (s : State) : (rowCommit s).outSck = s.outSck := rfl
@[simp] theorem rowCommit_outMosi (s : State) : (rowCommit s).outMosi = s.outMosi := rfl
@[simp] theorem rowCommit_cfg (s : State) : (rowCommit s).cfg = s.cfg := rfl
@[simp] theorem rowCommit_env (s : State) : (rowCommit s).env = s.env := rfl
@[simp] theorem rowCommit_trace (s : State) : (rowCommit s).trace = .panel (.lat false) :: .panel (.hold (holdGap s.cfg s.cfg.tLatGap)) :: s.trace := rfl
@[simp] theorem rowCommit_request (s : State) : (rowCommit s).request = s.request := rfl
@[simp] theorem rowCommit_ret (s : State) : (rowCommit s).ret = s.ret := rfl

/-! ### refreshEnd -/

@[simp] theorem refreshEnd_fb (s : State) : (refreshEnd s).fb = s.fb := rfl
@[simp] theorem refreshEnd_heldBits (s : State) : (refreshEnd s).heldBits = s.heldBits := rfl
@[simp] theorem refreshEnd_heldPos (s : State) : (refreshEnd s).heldPos = s.heldPos := rfl
@[simp] theorem refreshEnd_heldCheck (s : State) : (refreshEnd s).heldCheck = s.heldCheck := rfl
@[simp] theorem refreshEnd_cdNotify (s : State) : (refreshEnd s).cdNotify = s.cdNotify := rfl
@[simp] theorem refreshEnd_cdPoll (s : State) : (refreshEnd s).cdPoll = s.cdPoll := rfl
@[simp] theorem refreshEnd_btnSample (s : State) : (refreshEnd s).btnSample = s.btnSample := rfl
@[simp] theorem refreshEnd_txBuf (s : State) : (refreshEnd s).txBuf = s.txBuf := rfl
@[simp] theorem refreshEnd_rxBuf (s : State) : (refreshEnd s).rxBuf = s.rxBuf := rfl
@[simp] theorem refreshEnd_phase (s : State) : (refreshEnd s).phase = phaseSelect := rfl
@[simp] theorem refreshEnd_initIdx (s : State) : (refreshEnd s).initIdx = s.initIdx := rfl
@[simp] theorem refreshEnd_mapS (s : State) : (refreshEnd s).mapS = s.mapS := rfl
@[simp] theorem refreshEnd_scanRow (s : State) : (refreshEnd s).scanRow = 0#5 := rfl
@[simp] theorem refreshEnd_scanCol (s : State) : (refreshEnd s).scanCol = 0#5 := rfl
@[simp] theorem refreshEnd_scanStep (s : State) : (refreshEnd s).scanStep = stepRowBegin := rfl
@[simp] theorem refreshEnd_linkLen (s : State) : (refreshEnd s).linkLen = s.linkLen := rfl
@[simp] theorem refreshEnd_linkByte (s : State) : (refreshEnd s).linkByte = s.linkByte := rfl
@[simp] theorem refreshEnd_linkBit (s : State) : (refreshEnd s).linkBit = s.linkBit := rfl
@[simp] theorem refreshEnd_waitCnt (s : State) : (refreshEnd s).waitCnt = s.waitCnt := rfl
@[simp] theorem refreshEnd_fault (s : State) : (refreshEnd s).fault = s.fault := rfl
@[simp] theorem refreshEnd_faultCode (s : State) : (refreshEnd s).faultCode = s.faultCode := rfl
@[simp] theorem refreshEnd_outAddr (s : State) : (refreshEnd s).outAddr = s.outAddr := rfl
@[simp] theorem refreshEnd_outRgb (s : State) : (refreshEnd s).outRgb = s.outRgb := rfl
@[simp] theorem refreshEnd_outSclk (s : State) : (refreshEnd s).outSclk = s.outSclk := rfl
@[simp] theorem refreshEnd_outLat (s : State) : (refreshEnd s).outLat = s.outLat := rfl
@[simp] theorem refreshEnd_outOe (s : State) :
    (refreshEnd s).outOe = if s.cfg.blankBetweenRefresh then false else s.outOe := rfl
@[simp] theorem refreshEnd_outCsN (s : State) : (refreshEnd s).outCsN = s.outCsN := rfl
@[simp] theorem refreshEnd_outSck (s : State) : (refreshEnd s).outSck = s.outSck := rfl
@[simp] theorem refreshEnd_outMosi (s : State) : (refreshEnd s).outMosi = s.outMosi := rfl
@[simp] theorem refreshEnd_cfg (s : State) : (refreshEnd s).cfg = s.cfg := rfl
@[simp] theorem refreshEnd_env (s : State) : (refreshEnd s).env = s.env := rfl
@[simp] theorem refreshEnd_trace (s : State) :
    (refreshEnd s).trace = if s.cfg.blankBetweenRefresh then .panel (.oe false) :: s.trace else s.trace := rfl
@[simp] theorem refreshEnd_request (s : State) : (refreshEnd s).request = s.request := rfl
@[simp] theorem refreshEnd_ret (s : State) : (refreshEnd s).ret = s.ret := rfl

end Sys2Proof.Machine
end

