-- ==== Sys2Proof/Laws/Link.lean ====
section
/-! SUPPORT. What the byte framer's operations do, once each (44 R740 to R743). -/

namespace Sys2Proof.Machine

open Sys2Proof.Safety

/-- The environment after `m + n` bits. -/
theorem envAfterBits_add (m n : Nat) (e : Env) : envAfterBits (m + n) e = envAfterBits n (envAfterBits m e) := by
  induction m generalizing e with
  | zero => simp [envAfterBits]
  | succ m ih =>
    rw [Nat.succ_add]
    simp only [envAfterBits]
    split <;> exact ih _

/-- The bits of `m + n` samples. -/
theorem misoBits_add (m n : Nat) (e : Env) : misoBits (m + n) e = misoBits m e ++ misoBits n (envAfterBits m e) := by
  induction m generalizing e with
  | zero => simp [misoBits, envAfterBits]
  | succ m ih =>
    rw [Nat.succ_add]
    simp only [misoBits, envAfterBits]
    split <;> simp [ih]

/-- As many bits as samples. -/
@[simp] theorem misoBits_length (n : Nat) (e : Env) : (misoBits n e).length = n := by
  induction n generalizing e with
  | zero => rfl
  | succ n ih =>
    simp only [misoBits]
    split <;> simp [ih]

/-- The first of a row of samples. -/
theorem misoBits_succ (n : Nat) (s : State) :
    misoBits (n + 1) s.env = nextMiso s :: misoBits n (envAfterBits 1 s.env) := by
  simp only [misoBits, envAfterBits, nextMiso]
  split <;> simp_all

/-- Samples leave the buttons and the turns. -/
theorem envAfterBits_buttons (n : Nat) (e : Env) : (envAfterBits n e).buttons = e.buttons := by
  induction n generalizing e with
  | zero => rfl
  | succ n ih =>
    simp only [envAfterBits]
    split <;> simp [ih]

theorem envAfterBits_turns (n : Nat) (e : Env) : (envAfterBits n e).turns = e.turns := by
  induction n generalizing e with
  | zero => rfl
  | succ n ih =>
    simp only [envAfterBits]
    split <;> simp [ih]

/-- XFER_BIT: everything it does (44 R743). -/
theorem xferBit_eq (t : Bool) (s : State) : xferBit t s = (nextMiso s,
    { s with
      outMosi := t, outSck := false, waitCnt := 0, env := envAfterBits 1 s.env
      trace := ((bitTrace s.cfg t (nextMiso s)).map Event.link).reverse ++ ((sckGap s.trace).map Event.link ++ s.trace) }) := by
  have hn : nextMiso (driveSck true (holdLink (holdHalf s.cfg) (driveMosi t (settleSck s)))) = nextMiso s := rfl
  have he : (takeMiso (driveSck true (holdLink (holdHalf s.cfg) (driveMosi t (settleSck s))))).env
      = envAfterBits 1 s.env := by
    cases h : s.env.miso <;> simp [takeMiso, envAfterBits, driveSck, holdLink, driveMosi, settleSck, h]
  refine Prod.ext hn ?_
  show driveSck false (holdLink (holdHalf s.cfg)
    (takeMiso (driveSck true (holdLink (holdHalf s.cfg) (driveMosi t (settleSck s)))))) = _
  apply State.ext <;> simp [he, hn, bitTrace]

/-- A gap is one event or none, so its order does not matter. -/
@[simp] theorem sckGap_reverse (tr : List Event) : (sckGap tr).reverse = sckGap tr := by
  unfold sckGap
  split <;> rfl

/-- After a row of bits `SCK` has just fallen. -/
theorem sckGap_bits (c : Config) (g : List LinkEvent) (t : Bool) (ts : List Bool) (r : Bool) (rs : List Bool)
    (h : ts.length = rs.length) (tr : List Event) :
    sckGap (((bitsTrace c g (t :: ts) (r :: rs)).map Event.link).reverse ++ tr) = [.hold holdOne] := by
  induction ts generalizing g t r rs tr with
  | nil =>
    cases rs with
    | nil => simp [bitsTrace, bitTrace, sckGap]
    | cons r' rs => simp at h
  | cons t' ts ih =>
    cases rs with
    | nil => simp at h
    | cons r' rs =>
      rw [bitsTrace, List.map_append, List.reverse_append, List.append_assoc]
      exact ih [.hold holdOne] t' r' rs (by simpa using h) _

/-- The bits of a byte below bit `b`, most significant first. -/
def lowBits (out : Byte) : Nat → List Bool
  | 0 => []
  | b + 1 => out.getLsbD b :: lowBits out b

/-- The byte built by writing received bits from bit `b - 1` down. -/
def buildByte : Nat → Byte → List Bool → Byte
  | b + 1, rx, v :: vs => buildByte b (if v then rx ||| (1#8 <<< b) else rx) vs
  | _, rx, _ => rx

/-- The loop of 44 R741 from bit `b - 1` down. -/
theorem xferBits_eq (out : Byte) (b : Nat) (rx : Byte) (s : State) : xferBits out b rx s =
    (buildByte b rx (misoBits b s.env),
      { s with
        outMosi := if b = 0 then s.outMosi else out.getLsbD 0
        outSck := if b = 0 then s.outSck else false
        waitCnt := if b = 0 then s.waitCnt else 0
        linkBit := if b = 0 then s.linkBit else 0#3
        env := envAfterBits b s.env
        trace := ((bitsTrace s.cfg (sckGap s.trace) (lowBits out b) (misoBits b s.env)).map Event.link).reverse
          ++ s.trace }) := by
  induction b generalizing rx s with
  | zero => rfl
  | succ b ih =>
    simp only [xferBits, xferBit_eq]
    rw [ih]
    have hm := misoBits_succ b s
    have hn : nextMiso { s with linkBit := BitVec.ofNat 3 b } = nextMiso s := rfl
    have ha : envAfterBits b (envAfterBits 1 s.env) = envAfterBits (b + 1) s.env := by
      rw [Nat.add_comm b 1, envAfterBits_add]
    refine Prod.ext ?_ ?_
    · simp only [hm, buildByte, hn]
    · have hg : ∀ tr : List Event, sckGap (((bitTrace s.cfg (out.getLsbD b) (nextMiso s)).map Event.link).reverse ++ tr)
          = [.hold holdOne] := fun _ => rfl
      simp only [hn, hm, ha, lowBits, bitsTrace, List.map_append, List.reverse_append, List.append_assoc,
        Nat.add_one_ne_zero, if_false]
      rw [hg, ← List.map_reverse (l := sckGap s.trace), sckGap_reverse]
      cases b with
      | zero => rfl
      | succ b => simp

/-- Eight received bits as a byte. -/
theorem buildByte_eq (b7 b6 b5 b4 b3 b2 b1 b0 : Bool) (bs : List Bool) :
    packBytes (b7 :: b6 :: b5 :: b4 :: b3 :: b2 :: b1 :: b0 :: bs)
      = buildByte 8 0#8 [b7, b6, b5, b4, b3, b2, b1, b0] :: packBytes bs := by
  simp only [packBytes, List.cons.injEq, and_true]
  revert b7 b6 b5 b4 b3 b2 b1 b0
  decide

/-- Bytes packed from a row of eight bits and more. -/
theorem packBytes_append (l r : List Bool) (h : l.length = 8) :
    packBytes (l ++ r) = buildByte 8 0#8 l :: packBytes r := by
  match l, h with
  | [b7, b6, b5, b4, b3, b2, b1, b0], _ => exact buildByte_eq b7 b6 b5 b4 b3 b2 b1 b0 r

/-- One more byte received. -/
theorem misoBytes_succ (n : Nat) (e : Env) :
    misoBytes (n + 1) e = buildByte 8 0#8 (misoBits 8 e) :: misoBytes n (envAfterBits 8 e) := by
  unfold misoBytes
  rw [show 8 * (n + 1) = 8 + 8 * n by omega, misoBits_add, packBytes_append _ _ (by simp)]

/-- One more byte received, at the end. -/
theorem misoBytes_succ_last (n : Nat) (e : Env) :
    misoBytes (n + 1) e = misoBytes n e ++ [buildByte 8 0#8 (misoBits 8 (envAfterBits (8 * n) e))] := by
  induction n generalizing e with
  | zero =>
    have h0 : ∀ e, misoBytes 0 e = [] := fun _ => rfl
    simp only [misoBytes_succ, h0, List.nil_append, envAfterBits]
  | succ n ih =>
    rw [misoBytes_succ (n + 1), ih, misoBytes_succ n, ← envAfterBits_add, show 8 + 8 * n = 8 * (n + 1) by omega]
    rfl

/-- As many bytes as asked for. -/
@[simp] theorem misoBytes_length (n : Nat) (e : Env) : (misoBytes n e).length = n := by
  induction n generalizing e with
  | zero => rfl
  | succ n ih => simp [misoBytes_succ, ih]

/-- XFER_BYTE: everything it does (44 R741). -/
theorem xferByte_eq (k : Nat) (s : State) : xferByte k s =
    { s with
      rxBuf := FrameBuf.put s.rxBuf k (buildByte 8 0#8 (misoBits 8 s.env))
      outMosi := (FrameBuf.byte s.txBuf k).getLsbD 0, outSck := false, waitCnt := 0, linkBit := 0#3
      env := envAfterBits 8 s.env
      trace := ((bitsTrace s.cfg (sckGap s.trace) (unpackBytes [FrameBuf.byte s.txBuf k]) (misoBits 8 s.env)).map
        Event.link).reverse ++ s.trace } := by
  unfold xferByte
  rw [xferBits_eq]
  rfl

/-- A buffer filled from byte `k`, one byte more. -/
theorem FrameBuf.fill_append (l : List Byte) (v : Byte) (k : Nat) (b : FrameBuf) :
    FrameBuf.fill b k (l ++ [v]) = FrameBuf.put (FrameBuf.fill b k l) (k + l.length) v := by
  induction l generalizing b k with
  | nil => rfl
  | cons w l ih =>
    simp only [List.cons_append, FrameBuf.fill, ih, List.length_cons]
    congr 1
    omega

/-- The first `n + 1` bytes of a buffer. -/
theorem firstBytes_succ (n : Nat) (hn : n < 11) (b : FrameBuf) :
    firstBytes (n + 1) b = firstBytes n b ++ [FrameBuf.byte b n] := by
  have hl : n < b.toList.length := by simpa using hn
  simp only [firstBytes, FrameBuf.byte]
  rw [List.take_succ_eq_append_getElem hl]
  simp [hn]

theorem unpackBytes_append (l r : List Byte) : unpackBytes (l ++ r) = unpackBytes l ++ unpackBytes r := by
  induction l with
  | nil => rfl
  | cons w l ih => simp [unpackBytes, ih]

@[simp] theorem unpackBytes_length (l : List Byte) : (unpackBytes l).length = 8 * l.length := by
  induction l with
  | nil => rfl
  | cons w l ih =>
    simp [unpackBytes, ih]
    omega

@[simp] theorem firstBytes_length (n : Nat) (hn : n ≤ 11) (b : FrameBuf) : (firstBytes n b).length = n := by
  simp [firstBytes, hn]

theorem bitsTrace_append (c : Config) (g : List LinkEvent) (l l' r r' : List Bool) (h : l.length = r.length) (hl : l ≠ []) :
    bitsTrace c g (l ++ l') (r ++ r') = bitsTrace c g l r ++ bitsTrace c [.hold holdOne] l' r' := by
  induction l generalizing g r with
  | nil => exact absurd rfl hl
  | cons t l ih =>
    cases r with
    | nil => simp at h
    | cons v r =>
      cases l with
      | nil =>
        cases r with
        | nil => simp [bitsTrace]
        | cons _ _ => simp at h
      | cons t' l =>
        have := ih [.hold holdOne] r (by simpa using h) (by simp)
        simp only [List.cons_append] at this ⊢
        simp [bitsTrace, this]

/-- After a row of whole bytes `SCK` has just fallen. -/
theorem sckGap_bytes (c : Config) (g : List LinkEvent) (n : Nat) (hn : n < 11) (b : FrameBuf) (e : Env) (tr : List Event) :
    sckGap (((bitsTrace c g (unpackBytes (firstBytes (n + 1) b)) (misoBits (8 * (n + 1)) e)).map Event.link).reverse ++ tr)
      = [.hold holdOne] := by
  have h1 : (unpackBytes (firstBytes (n + 1) b)).length = 8 * (n + 1) := by
    simp [firstBytes_length (n + 1) (by omega)]
  have h2 := misoBits_length (8 * (n + 1)) e
  match h : unpackBytes (firstBytes (n + 1) b), h' : misoBits (8 * (n + 1)) e with
  | [], _ => rw [h] at h1; simp at h1
  | _, [] => rw [h'] at h2; simp at h2
  | t :: ts, r :: rs =>
    rw [h] at h1
    rw [h'] at h2
    exact sckGap_bits c g t ts r rs (by simp at h1 h2; omega) tr

/-- The loop of 44 R740 over at least one byte. -/
theorem xferNext_fold (n : Nat) (hn : n < 11) (s : State) : (List.range (n + 1)).foldl xferNext s =
    { s with
      rxBuf := FrameBuf.fill s.rxBuf 0 (misoBytes (n + 1) s.env)
      outMosi := (FrameBuf.byte s.txBuf n).getLsbD 0, outSck := false, waitCnt := 0
      linkByte := BitVec.ofNat 4 n, linkBit := 0#3
      env := envAfterBits (8 * (n + 1)) s.env
      trace := ((bitsTrace s.cfg (sckGap s.trace) (unpackBytes (firstBytes (n + 1) s.txBuf)) (misoBits (8 * (n + 1)) s.env)).map
        Event.link).reverse ++ s.trace } := by
  induction n with
  | zero =>
    simp only [List.range_succ, List.range_zero, List.nil_append, List.foldl_cons, List.foldl_nil, xferNext, xferByte_eq,
      misoBytes_succ, firstBytes_succ 0 (by omega)]
    rfl
  | succ n ih =>
    rw [List.range_succ, List.foldl_append, ih (by omega)]
    simp only [List.foldl_cons, List.foldl_nil, xferNext, xferByte_eq]
    rw [misoBytes_succ_last (n + 1), FrameBuf.fill_append, firstBytes_succ (n + 1) hn, unpackBytes_append,
      show 8 * (n + 1 + 1) = 8 * (n + 1) + 8 by omega, misoBits_add, envAfterBits_add,
      bitsTrace_append _ _ _ _ _ _ (by simp [firstBytes_length (n + 1) (by omega)])
        (by rw [← List.length_pos_iff]; simp [firstBytes_length (n + 1) (by omega)]),
      sckGap_bytes s.cfg _ n (by omega)]
    simp

/-- XFER of at least one byte: everything it does (44 R740). -/
theorem xfer_eq (n : Nat) (hn : n < 11) (s : State) : xfer (n + 1) s =
    { s with
      rxBuf := FrameBuf.fill s.rxBuf 0 (misoBytes (n + 1) s.env)
      outMosi := (FrameBuf.byte s.txBuf n).getLsbD 0, outSck := false, outCsN := true, waitCnt := 0
      linkByte := BitVec.ofNat 4 n, linkBit := 0#3
      env := envAfterBits (8 * (n + 1)) s.env
      trace := ((frameTrace s.cfg (firstBytes (n + 1) s.txBuf) (misoBits (8 * (n + 1)) s.env)).map Event.link).reverse
        ++ s.trace } := by
  unfold xfer
  simp only [xferNext_fold n hn]
  simp [holdLink, driveCsN, frameTrace, sckGap]

/-- A length that fits the buffers, as one more than a number below 11. -/
theorem frameLength_toNat_eq (l : FrameLength) : ∃ n, n < 11 ∧ l.bytes.toNat = n + 1 ∧ l.bytes - 1#4 = BitVec.ofNat 4 n := by
  obtain ⟨b, h⟩ := l
  revert b
  decide

/-- XFER of a frame length: everything it does (44 R740). -/
theorem xfer_length_eq (l : FrameLength) (s : State) : xfer l.bytes.toNat s =
    { s with
      rxBuf := FrameBuf.fill s.rxBuf 0 (misoBytes l.bytes.toNat s.env)
      outMosi := (FrameBuf.byte s.txBuf (l.bytes.toNat - 1)).getLsbD 0, outSck := false, outCsN := true, waitCnt := 0
      linkByte := l.bytes - 1#4, linkBit := 0#3
      env := envAfterBits (8 * l.bytes.toNat) s.env
      trace := ((frameTrace s.cfg (firstBytes l.bytes.toNat s.txBuf) (misoBits (8 * l.bytes.toNat) s.env)).map
        Event.link).reverse ++ s.trace } := by
  obtain ⟨n, hn, h, hb⟩ := frameLength_toNat_eq l
  rw [h, hb, xfer_eq n hn]
  rfl

/-! ### The observer of the link (00_scope R11) -/

/-- Bytes unpacked and packed again. -/
@[simp] theorem packBytes_unpackBytes (l : List Byte) : packBytes (unpackBytes l) = l := by
  induction l with
  | nil => rfl
  | cons w l ih =>
    simp only [unpackBytes, packBytes, ih, List.cons.injEq, and_true]
    revert w
    decide +kernel

/-- One bit seen. -/
theorem watch_bitTrace (c : Config) (t r : Bool) (w : LinkWatch) : (bitTrace c t r).foldl LinkWatch.observe w =
    { w with mosi := t, sent := t :: w.sent, received := r :: w.received } := rfl

/-- A row of bits seen, after a gap of holds. -/
theorem watch_bitsTrace (c : Config) (g : List LinkEvent) (hg : ∀ w : LinkWatch, g.foldl LinkWatch.observe w = w)
    (l r : List Bool) (h : l.length = r.length) (w : LinkWatch) : ∃ v, (bitsTrace c g l r).foldl LinkWatch.observe w =
      { w with mosi := v, sent := l.reverse ++ w.sent, received := r.reverse ++ w.received } := by
  induction l generalizing r w g with
  | nil =>
    cases r with
    | nil => exact ⟨w.mosi, rfl⟩
    | cons => cases h
  | cons a l ih =>
    cases r with
    | nil => cases h
    | cons b r =>
      obtain ⟨v, hv⟩ := ih [.hold holdOne] (fun _ => rfl) r (by simpa using h)
        { w with mosi := a, sent := a :: w.sent, received := b :: w.received }
      refine ⟨v, ?_⟩
      simp only [bitsTrace, List.foldl_append, hg, watch_bitTrace, hv]
      simp

/-- A frame opened. -/
theorem watch_open (h : Hold) : [LinkEvent.csN false, .hold h].foldl LinkWatch.observe LinkWatch.atRest =
    { LinkWatch.atRest with csN := false } := rfl

/-- A frame closed. The holds are variables: the kernel never compares two of them by their durations. -/
theorem watch_close (h h' : Hold) (w : LinkWatch) (hw : w.csN = false) :
    ([LinkEvent.hold h, .csN true, .hold h'].foldl LinkWatch.observe w).frames =
      { mosi := packBytes w.sent.reverse, miso := packBytes w.received.reverse } :: w.frames := by
  simp [LinkWatch.observe, hw]

/-- A frame's trace is one frame, of the bytes sent and the bytes received. -/
theorem wireFrames_frameTrace (c : Config) (sent : List Byte) (received : List Bool)
    (h : received.length = 8 * sent.length) :
    wireFrames (frameTrace c sent received) = [{ mosi := sent, miso := packBytes received }] := by
  obtain ⟨v, hv⟩ := watch_bitsTrace c [] (fun _ => rfl) (unpackBytes sent) received (by simp [h])
    { LinkWatch.atRest with csN := false }
  simp only [wireFrames, frameTrace, List.foldl_append]
  rw [watch_open, hv, watch_close _ _ _ rfl]
  simp [LinkWatch.atRest]

/-! ### The two traces of one list of events (00_scope R11) -/

@[simp] theorem linkEvents_append (a b : List Event) : linkEvents (a ++ b) = linkEvents a ++ linkEvents b := by
  induction a with
  | nil => rfl
  | cons e a ih => cases e <;> simp [linkEvents, ih]

@[simp] theorem panelEvents_append (a b : List Event) : panelEvents (a ++ b) = panelEvents a ++ panelEvents b := by
  induction a with
  | nil => rfl
  | cons e a ih => cases e <;> simp [panelEvents, ih]

@[simp] theorem linkEvents_map_link (l : List LinkEvent) : linkEvents (l.map Event.link) = l := by
  induction l with
  | nil => rfl
  | cons e l ih => simp [linkEvents, ih]

@[simp] theorem linkEvents_map_panel (l : List PanelEvent) : linkEvents (l.map Event.panel) = [] := by
  induction l with
  | nil => rfl
  | cons e l ih => simpa [linkEvents] using ih

@[simp] theorem panelEvents_map_panel (l : List PanelEvent) : panelEvents (l.map Event.panel) = l := by
  induction l with
  | nil => rfl
  | cons e l ih => simp [panelEvents, ih]

@[simp] theorem panelEvents_map_link (l : List LinkEvent) : panelEvents (l.map Event.link) = [] := by
  induction l with
  | nil => rfl
  | cons e l ih => simpa [panelEvents] using ih

end Sys2Proof.Machine
end

