-- ==== Sys2Proof/Laws/Memory.lean ====
section
/-! SUPPORT. The frame buffer as data: a read after a write, the canonical form, and equality from the reads. -/

namespace Sys2Proof.Machine

/-- A buffer in canonical form from a bound up is in it from any lower bound. -/
theorem Memory.wfFrom_mono {lo lo' : Nat} (h : lo' ≤ lo) : ∀ {m : Memory}, Memory.wfFrom lo m = true → Memory.wfFrom lo' m = true
  | [], _ => rfl
  | (a, v) :: m, hw => by
    simp only [Memory.wfFrom, Bool.and_eq_true, decide_eq_true_eq] at hw ⊢
    exact ⟨⟨⟨by omega, hw.1.1.2⟩, hw.1.2⟩, hw.2⟩

/-- Below its bound a canonical buffer reads as unlisted. -/
theorem Memory.read_below : ∀ {m : Memory} {lo a : Nat}, Memory.wfFrom lo m = true → a < lo → Memory.read m a = Memory.unlisted a
  | [], _, _, _, _ => rfl
  | (b, w) :: m, lo, a, hw, ha => by
    simp only [Memory.wfFrom, Bool.and_eq_true, decide_eq_true_eq] at hw
    have hb : a ≠ b := by omega
    simp only [Memory.read, if_neg hb]
    exact Memory.read_below hw.2 (by omega)

/-- A read after a write, in a buffer in canonical form from some bound up. -/
theorem Memory.read_write_from (v : Cell) (a a' : Nat) :
    ∀ {m : Memory} {lo : Nat}, Memory.wfFrom lo m = true → Memory.read (Memory.write m a v) a' = if a' = a then v else Memory.read m a'
  | [], _, _ => by
    unfold Memory.write
    split <;> by_cases h : a' = a <;> simp_all [Memory.read]
  | (b, w) :: m, lo, hw => by
    have hw' := hw
    simp only [Memory.wfFrom, Bool.and_eq_true, decide_eq_true_eq] at hw
    have ih := Memory.read_write_from v a a' hw.2
    have below : ∀ {c}, c ≤ b → Memory.read m c = Memory.unlisted c := fun hc => Memory.read_below hw.2 (by omega)
    unfold Memory.write
    split
    · rename_i hab
      have hu : Memory.read ((b, w) :: m) a = Memory.unlisted a := by
        simp only [Memory.read, if_neg (Nat.ne_of_lt hab)]; exact below (by omega)
      split <;> by_cases h : a' = a
      · subst h; simp_all
      · simp [h]
      · simp [Memory.read, h]
      · simp [Memory.read, h]
    · split
      · rename_i _ hab
        subst hab
        split <;> by_cases h : a' = a
        · subst h; simp_all [below (Nat.le_refl a')]
        · simp [Memory.read, h]
        · simp [Memory.read, h]
        · simp [Memory.read, h]
      · rename_i h1 h2
        by_cases hb : a' = b
        · have : a' ≠ a := by omega
          simp [Memory.read, hb, Ne.symm h2]
        · simp [Memory.read, hb, ih]

/-- A read after a write: the written index gives the value, every other index what it gave (20 R229). -/
theorem Memory.read_write {m : Memory} (hm : Memory.wf m = true) (a a' : Nat) (v : Cell) :
    Memory.read (Memory.write m a v) a' = if a' = a then v else Memory.read m a' :=
  Memory.read_write_from v a a' hm

/-- A write keeps the canonical form from any bound the index meets. -/
theorem Memory.write_wfFrom (v : Cell) {a : Nat} (ha : a < 1024) :
    ∀ {m : Memory} {lo : Nat}, lo ≤ a → Memory.wfFrom lo m = true → Memory.wfFrom lo (Memory.write m a v) = true
  | [], lo, hlo, _ => by
    unfold Memory.write
    split <;> simp_all [Memory.wfFrom]
  | (b, w) :: m, lo, hlo, hw => by
    have hw' := hw
    simp only [Memory.wfFrom, Bool.and_eq_true, decide_eq_true_eq] at hw
    unfold Memory.write
    split
    · split
      · exact hw'
      · simp only [Memory.wfFrom, Bool.and_eq_true, decide_eq_true_eq]
        exact ⟨⟨⟨hlo, ha⟩, by simpa using ‹_›⟩, ⟨⟨by omega, hw.1.1.2⟩, hw.1.2⟩, hw.2⟩
    · split
      · rename_i _ hab
        subst hab
        split
        · exact Memory.wfFrom_mono (by omega) hw.2
        · simp only [Memory.wfFrom, Bool.and_eq_true, decide_eq_true_eq]
          exact ⟨⟨⟨hlo, ha⟩, by simpa using ‹_›⟩, hw.2⟩
      · simp only [Memory.wfFrom, Bool.and_eq_true, decide_eq_true_eq]
        exact ⟨hw.1, Memory.write_wfFrom v ha (by omega) hw.2⟩

/-- A write keeps the canonical form. -/
theorem Memory.write_wf {m : Memory} (hm : Memory.wf m = true) {a : Nat} (ha : a < 1024) (v : Cell) :
    Memory.wf (Memory.write m a v) = true :=
  Memory.write_wfFrom v ha (Nat.zero_le a) hm

/-- The buffer of reset is in canonical form. -/
theorem State.reset_fb_wf : Memory.wf State.reset.fb = true := rfl

/-- Canonical buffers with equal reads are equal, from any bound up. -/
theorem Memory.ext_from : ∀ {m n : Memory} {lo : Nat}, Memory.wfFrom lo m = true → Memory.wfFrom lo n = true →
    (∀ a, lo ≤ a → Memory.read m a = Memory.read n a) → m = n
  | [], [], _, _, _, _ => rfl
  | [], (b, w) :: n, lo, _, hn, h => by
    simp only [Memory.wfFrom, Bool.and_eq_true, decide_eq_true_eq] at hn
    have := h b hn.1.1.1
    simp [Memory.read] at this
    simp [← this] at hn
  | (b, w) :: m, [], lo, hm, _, h => by
    simp only [Memory.wfFrom, Bool.and_eq_true, decide_eq_true_eq] at hm
    have := h b hm.1.1.1
    simp [Memory.read] at this
    simp [← this] at hm
  | (b, w) :: m, (c, x) :: n, lo, hm, hn, h => by
    simp only [Memory.wfFrom, Bool.and_eq_true, decide_eq_true_eq] at hm hn
    have hbc : b = c := by
      rcases Nat.lt_trichotomy b c with hlt | heq | hgt
      · have := h b hm.1.1.1
        simp only [Memory.read, if_neg (Nat.ne_of_lt hlt)] at this
        rw [Memory.read_below hn.2 (by omega)] at this
        simp_all
      · exact heq
      · have := h c hn.1.1.1
        simp only [Memory.read, if_neg (Nat.ne_of_lt hgt)] at this
        rw [Memory.read_below hm.2 (by omega)] at this
        simp_all
    subst hbc
    have hw : w = x := by simpa [Memory.read] using h b hm.1.1.1
    subst hw
    have hmn : m = n := Memory.ext_from hm.2 hn.2 fun a ha => by
      have hne : a ≠ b := by omega
      simpa [Memory.read, hne] using h a (by omega)
    rw [hmn]

/-- Canonical buffers with equal reads are equal. -/
theorem Memory.ext_of_read {m n : Memory} (hm : Memory.wf m = true) (hn : Memory.wf n = true)
    (h : ∀ a, Memory.read m a = Memory.read n a) : m = n :=
  Memory.ext_from hm hn fun a _ => h a

/-- A canonical buffer reads as unlisted outside its indices. -/
theorem Memory.read_outside : ∀ {m : Memory} {lo a : Nat}, Memory.wfFrom lo m = true → 1024 ≤ a → Memory.read m a = Memory.unlisted a
  | [], _, _, _, _ => rfl
  | (b, w) :: m, lo, a, hw, ha => by
    simp only [Memory.wfFrom, Bool.and_eq_true, decide_eq_true_eq] at hw
    have hb : a ≠ b := by omega
    simp only [Memory.read, if_neg hb]
    exact Memory.read_outside hw.2 ha

/-- A row of writes keeps the canonical form. -/
theorem Memory.foldl_write_wf {α : Type} (f : α → Nat) (g : α → Cell) :
    ∀ (l : List α) {m : Memory}, Memory.wf m = true → (∀ x ∈ l, f x < 1024) →
      Memory.wf (l.foldl (fun m x => Memory.write m (f x) (g x)) m) = true
  | [], _, hm, _ => hm
  | x :: l, _, hm, h =>
    Memory.foldl_write_wf f g l (Memory.write_wf hm (h x (by simp)) (g x)) fun y hy => h y (by simp [hy])

/-- A read after a row of writes whose value depends on the index alone: that value at a written index, elsewhere what it
gave. -/
theorem Memory.read_foldl_write {α : Type} (f : α → Nat) (v : Nat → Cell) (a : Nat) :
    ∀ (l : List α) {m : Memory}, Memory.wf m = true → (∀ x ∈ l, f x < 1024) →
      Memory.read (l.foldl (fun m x => Memory.write m (f x) (v (f x))) m) a
        = if ∃ x ∈ l, f x = a then v a else Memory.read m a
  | [], _, _, _ => by simp
  | x :: l, m, hm, h => by
    have hx := h x (by simp)
    simp only [List.foldl_cons]
    rw [Memory.read_foldl_write f v a l (Memory.write_wf hm hx _) fun y hy => h y (by simp [hy])]
    by_cases hl : ∃ y ∈ l, f y = a
    · rw [if_pos hl, if_pos]
      obtain ⟨y, hy, hya⟩ := hl
      exact ⟨y, by simp [hy], hya⟩
    · rw [if_neg hl, Memory.read_write hm]
      by_cases hxa : a = f x
      · rw [if_pos hxa, if_pos ⟨x, by simp, hxa.symm⟩, hxa]
      · rw [if_neg hxa, if_neg]
        rintro ⟨y, hy, hya⟩
        rcases List.mem_cons.mp hy with rfl | hy
        · exact hxa hya.symm
        · exact hl ⟨y, hy, hya⟩

end Sys2Proof.Machine
end

