-- ==== Sys2Proof/Laws/Mapper.lean ====
section
/-! SUPPORT. What the fills of the frame buffer do, once each (41 R452, 42 R503, R504), and what a region table holds. -/

namespace Sys2Proof.Machine

open Sys2Proof.Safety

/-- The row of a cell index. -/
@[simp] theorem cellIndex_div (row col : Nat) (hc : col < 32) : cellIndex row col / 32 = row := by
  simp only [cellIndex]; omega

/-- The column of a cell index. -/
@[simp] theorem cellIndex_mod (row col : Nat) (hc : col < 32) : cellIndex row col % 32 = col := by
  simp only [cellIndex]; omega

/-- Every cell index is below 1024. -/
theorem cellIndex_lt {row col : Nat} (hr : row < 32) (hc : col < 32) : cellIndex row col < 1024 := by
  simp only [cellIndex]; omega

/-- A cell index has one row and one column. -/
theorem cellIndex_inj {row col row' col' : Nat} (hc : col < 32) (hc' : col' < 32)
    (h : cellIndex row col = cellIndex row' col') : row = row' ∧ col = col' := by
  simp only [cellIndex] at h; omega

/-! ### The idle fill -/

theorem fillIdle_wf {m : Memory} (hm : Memory.wf m = true) : Memory.wf (fillIdle m) = true :=
  Memory.foldl_write_wf id (fun a => idleCell (a / 32)) (List.range 1024) hm fun _ h => List.mem_range.mp h

theorem read_fillIdle {m : Memory} (hm : Memory.wf m = true) (a : Nat) : Memory.read (fillIdle m) a = idleCell (a / 32) := by
  have h := Memory.read_foldl_write id (fun a => idleCell (a / 32)) a (List.range 1024) hm fun _ h => List.mem_range.mp h
  refine Eq.trans h ?_
  split
  · rfl
  · rename_i hn
    have ha : 1024 ≤ a := by
      by_contra hlt
      exact hn ⟨a, List.mem_range.mpr (by omega), rfl⟩
    exact Memory.read_outside hm ha

/-- The idle frame is the buffer that lists nothing. -/
theorem fillIdle_eq {m : Memory} (hm : Memory.wf m = true) : fillIdle m = [] :=
  Memory.ext_of_read (fillIdle_wf hm) rfl fun a => read_fillIdle hm a

/-! ### Regions -/

/-- The cells of a region, by its bounds. -/
theorem Region.mem_cells (g : Region) (p : Nat × Nat) : p ∈ g.cells ↔ g.contains p.1 p.2 = true := by
  simp only [Region.cells, Region.contains, List.mem_flatMap, List.mem_map, List.mem_range, decide_eq_true_eq]
  constructor
  · rintro ⟨i, hi, j, hj, rfl⟩
    simp only
    omega
  · rintro ⟨h1, h2, h3, h4⟩
    refine ⟨p.1 - g.baseRow.toNat, by omega, p.2 - g.baseCol.toNat, by omega, ?_⟩
    ext <;> simp only <;> omega

/-- The region of a sensor is an entry of the table. -/
theorem regionOf_eq (t : RegionTable) (s : Nat) (hs : s < 24) : regionOf t s = t.entries[s] := by
  simp [regionOf, hs]

/-- A region of a table meets W1 to W4 (42 R511). -/
theorem regionOf_checks (t : RegionTable) (s : Nat) (hs : s < 24) :
    (regionOf t s).inRange = true ∧ (regionOf t s).oneHalf = true ∧ (regionOf t s).oneColumnHalf = true
      ∧ (regionOf t s).halfConsistent = true := by
  have h := t.wf
  simp only [regionsWellFormed, Bool.and_eq_true, List.all_eq_true] at h
  have := h.1 (regionOf t s) (by rw [regionOf_eq t s hs]; exact Vector.mem_toList_iff.mpr (Vector.getElem_mem hs))
  simpa [and_assoc] using this

/-- Pairwise disjointness, from the list check. -/
theorem regionsDisjoint_pairwise : ∀ {l : List Region}, regionsDisjoint l = true → l.Pairwise fun g h => g.disjoint h = true
  | [], _ => List.Pairwise.nil
  | g :: gs, h => by
    simp only [regionsDisjoint, Bool.and_eq_true, List.all_eq_true] at h
    exact List.Pairwise.cons h.1 (regionsDisjoint_pairwise h.2)

/-- No cell is in the regions of two sensors (42 R511 W5). -/
theorem regionOf_disjoint (t : RegionTable) {s s' : Nat} (hs : s < 24) (hs' : s' < 24) (row col : Nat)
    (h : (regionOf t s).contains row col = true) (h' : (regionOf t s').contains row col = true) : s = s' := by
  have hw := t.wf
  simp only [regionsWellFormed, Bool.and_eq_true] at hw
  have hp := List.pairwise_iff_getElem.mp (regionsDisjoint_pairwise hw.2)
  have key : ∀ a b, a < b → (hb : b < 24) → (regionOf t a).contains row col = true → (regionOf t b).contains row col = true → False := by
    intro a b hab hb ha hbb
    have hd := hp a b (by simp; omega) (by simp; omega) hab
    simp only [Vector.getElem_toList] at hd
    rw [← regionOf_eq t a (by omega), ← regionOf_eq t b hb] at hd
    simp only [Region.disjoint, List.all_eq_true] at hd
    have := hd (row, col) ((Region.mem_cells _ _).mpr ha)
    simp [hbb] at this
  rcases Nat.lt_trichotomy s s' with hlt | heq | hgt
  · exact (key s s' hlt hs' h h').elim
  · exact heq
  · exact (key s' s hgt hs h' h).elim

/-- A cell of a region in range is a cell of the frame. -/
theorem Region.contains_range {g : Region} (hg : g.inRange = true) {row col : Nat} (h : g.contains row col = true) :
    row < 32 ∧ col < 32 := by
  simp only [Region.inRange, Region.contains, decide_eq_true_eq] at hg h
  omega

/-! ### Painting -/

/-- Painting a region, as a row of writes whose value depends on the index alone. -/
theorem paintRegion_eq {g : Region} (hg : g.inRange = true) (c : Color) (m : Memory) : paintRegion g c m =
    g.cells.foldl (fun m p => Memory.write m (cellIndex p.1 p.2)
      (resultCell (cellIndex p.1 p.2 / 32) (halfOf (cellIndex p.1 p.2 / 32)) c)) m := by
  unfold paintRegion
  apply List.foldl_ext
  intro m p hp
  have := Region.contains_range hg ((Region.mem_cells g p).mp hp)
  rw [cellIndex_div _ _ this.2]

theorem paintRegion_wf {g : Region} (hg : g.inRange = true) (c : Color) {m : Memory} (hm : Memory.wf m = true) :
    Memory.wf (paintRegion g c m) = true := by
  unfold paintRegion
  exact Memory.foldl_write_wf (fun p : Nat × Nat => cellIndex p.1 p.2) _ _ hm fun p hp => by
    have := Region.contains_range hg ((Region.mem_cells g p).mp hp)
    exact cellIndex_lt this.1 this.2

/-- Painting a region: the 12 cells take the colour, every other cell is as it was (42 R503). -/
theorem read_paintRegion {g : Region} (hg : g.inRange = true) (c : Color) {m : Memory} (hm : Memory.wf m = true) (a : Nat) :
    Memory.read (paintRegion g c m) a =
      if g.contains (a / 32) (a % 32) = true then resultCell (a / 32) (halfOf (a / 32)) c else Memory.read m a := by
  rw [paintRegion_eq hg]
  have h := Memory.read_foldl_write (fun p : Nat × Nat => cellIndex p.1 p.2)
    (fun a => resultCell (a / 32) (halfOf (a / 32)) c) a g.cells hm fun p hp => by
      have := Region.contains_range hg ((Region.mem_cells g p).mp hp)
      exact cellIndex_lt this.1 this.2
  refine Eq.trans h ?_
  have hiff : (∃ p ∈ g.cells, cellIndex p.1 p.2 = a) ↔ g.contains (a / 32) (a % 32) = true := by
    constructor
    · rintro ⟨p, hp, rfl⟩
      have hc := (Region.mem_cells g p).mp hp
      have := Region.contains_range hg hc
      rw [cellIndex_div _ _ this.2, cellIndex_mod _ _ this.2]
      exact hc
    · intro hc
      refine ⟨(a / 32, a % 32), (Region.mem_cells g _).mpr hc, ?_⟩
      simp only [cellIndex]
      omega
  simp only [hiff]

/-- The buffer after the loop of 42 R504 over a list of sensors. -/
def paintSensors (t : RegionTable) (bits : BitVec 24) (pos : Byte) (l : List Nat) (m : Memory) : Memory :=
  l.foldl (fun m k =>
    paintRegion (regionOf t k) (colorOfResult (sensorResult bits k) (BitVec.ofNat 5 k) pos) m) m

/-- The loop of 42 R504 writes the buffer and `MAP_S` only. -/
theorem mapSensor_fold (l : List Nat) (hl : ∀ k ∈ l, k < 24) (s : State) : l.foldl mapSensor s =
    { s with
      fb := paintSensors s.cfg.regionTable s.heldBits s.heldPos l s.fb
      mapS := (l.getLast?.map (BitVec.ofNat 5)).getD s.mapS } := by
  induction l generalizing s with
  | nil => rfl
  | cons k l ih =>
    have hk := hl k (by simp)
    rw [List.foldl_cons, ih (fun x hx => hl x (by simp [hx]))]
    have hn : (BitVec.ofNat 5 k).toNat = k := by simp; omega
    simp only [mapSensor, paintSensor, setFb, hn, paintSensors, List.foldl_cons]
    cases l <;> simp [List.getLast?_cons]

theorem paintSensors_wf (t : RegionTable) (bits : BitVec 24) (pos : Byte) (l : List Nat) (hl : ∀ k ∈ l, k < 24)
    {m : Memory} (hm : Memory.wf m = true) : Memory.wf (paintSensors t bits pos l m) = true := by
  induction l generalizing m with
  | nil => exact hm
  | cons k l ih =>
    exact ih (fun x hx => hl x (by simp [hx])) (paintRegion_wf (regionOf_checks t k (hl k (by simp))).1 _ hm)

/-- The cells after the loop of 42 R504 over distinct sensors. -/
theorem read_paintSensors (t : RegionTable) (bits : BitVec 24) (pos : Byte) (l : List Nat) (hl : ∀ k ∈ l, k < 24)
    {m : Memory} (hm : Memory.wf m = true) (a : Nat) : Memory.read (paintSensors t bits pos l m) a =
      match l.find? fun k => (regionOf t k).contains (a / 32) (a % 32) with
      | some k => resultCell (a / 32) (halfOf (a / 32)) (colorOfResult (sensorResult bits k) (BitVec.ofNat 5 k) pos)
      | none => Memory.read m a := by
  induction l generalizing m with
  | nil => rfl
  | cons k l ih =>
    have hk := regionOf_checks t k (hl k (by simp))
    have hwf := paintRegion_wf hk.1 (colorOfResult (sensorResult bits k) (BitVec.ofNat 5 k) pos) hm
    have h := ih (fun x hx => hl x (by simp [hx])) hwf
    refine Eq.trans h ?_
    cases hc : (regionOf t k).contains (a / 32) (a % 32) with
    | false =>
      simp only [List.find?_cons, hc]
      rw [read_paintRegion hk.1 _ hm, hc]
      simp
    | true =>
      simp only [List.find?_cons, hc]
      cases hf : l.find? fun k => (regionOf t k).contains (a / 32) (a % 32) with
      | none => simp [read_paintRegion hk.1 _ hm, hc]
      | some k' =>
        have hm' := List.mem_of_find?_eq_some hf
        have hc' := List.find?_some hf
        have : k = k' := regionOf_disjoint t (hl k (by simp)) (hl k' (by simp [hm'])) _ _ hc hc'
        simp [this]

/-- MAP_ALL: everything it does (42 R504). -/
theorem mapAll_eq (s : State) : mapAll s =
    { s with
      fb := paintSensors s.cfg.regionTable s.heldBits s.heldPos (List.range 24) s.fb
      mapS := 23#5, phase := phaseScan } := by
  unfold mapAll
  have hl : (List.range 24).getLast? = some 23 := by decide
  rw [mapSensor_fold _ fun k hk => List.mem_range.mp hk, hl]
  simp only [setPhase, Option.map_some, Option.getD_some]

end Sys2Proof.Machine
end

