-- ==== Sys2Proof/Laws/Scan.lean ====
section
/-! SUPPORT. What the scan operations do, once each (43 R601 to R606). -/

namespace Sys2Proof.Machine

open Sys2Proof.Safety

/-- The panel trace of one column (43 R610, E3 to E5). -/
def columnTrace (c : Config) (m : Memory) (r col : Nat) : List PanelEvent :=
  [.hold holdOne, .lines (decodeCellOf (Memory.read m (cellIndex r col))), .hold (holdAtLeast c c.tSetup), .sclk true,
    .hold (holdAtLeast c c.tSclkHigh), .sclk false]

theorem rowTrace_eq (c : Config) (m : Memory) (r : Nat) : rowTrace c m r =
    [.oe false, .hold (holdGap c c.tOeGap), .lat true] ++ (List.range 32).flatMap (columnTrace c m r)
      ++ [.hold (holdGap c c.tLatGap), .lat false, .hold (holdGap c c.tOeGap), .oe true, .hold (holdExactly c c.tDwell)] := rfl

/-- The lines a cell of the frame drives. -/
def cellLinesAt (s : State) (r col : Nat) : PanelLines := decodeCellOf (Memory.read s.fb (cellIndex r col))

/-- SHIFT_CELL: everything it does (43 R603). -/
theorem shiftCell_eq (s : State) : shiftCell s =
    { s with
      outAddr := (cellLinesAt s s.scanRow.toNat s.scanCol.toNat).addr
      outRgb := (cellLinesAt s s.scanRow.toNat s.scanCol.toNat).rgb
      outSclk := false, waitCnt := 0
      scanCol := if s.scanCol.toNat < 31 then s.scanCol + 1#5 else s.scanCol
      scanStep := if s.scanCol.toNat < 31 then stepShiftSetup else stepRowCommit
      trace := ((columnTrace s.cfg s.fb s.scanRow.toNat s.scanCol.toNat).map Event.panel).reverse ++ s.trace } := by
  unfold shiftCell
  apply State.ext <;> simp [columnTrace, cellLinesAt, fbRead] <;> rfl

/-- The loop over the columns of a row, at least one. -/
theorem refreshColumn_fold (n : Nat) (hn : n < 32) (s : State) : (List.range (n + 1)).foldl refreshColumn s =
    { s with
      outAddr := (cellLinesAt s s.scanRow.toNat n).addr
      outRgb := (cellLinesAt s s.scanRow.toNat n).rgb
      outSclk := false, waitCnt := 0
      scanCol := if n < 31 then BitVec.ofNat 5 n + 1#5 else BitVec.ofNat 5 n
      scanStep := if n < 31 then stepShiftSetup else stepRowCommit
      trace := (((List.range (n + 1)).flatMap (columnTrace s.cfg s.fb s.scanRow.toNat)).map Event.panel).reverse ++ s.trace } := by
  have hm : n % 32 = n := Nat.mod_eq_of_lt hn
  induction n with
  | zero =>
    simp only [List.range_succ, List.range_zero, List.nil_append, List.foldl_cons, List.foldl_nil, refreshColumn, shiftCell_eq]
    rfl
  | succ n ih =>
    have hm' : n % 32 = n := Nat.mod_eq_of_lt (by omega)
    rw [List.range_succ, List.foldl_append, ih (by omega) hm']
    simp only [List.foldl_cons, List.foldl_nil, refreshColumn, shiftCell_eq]
    simp [hm, cellLinesAt]

/-- ROW_DWELL of a row before the last: everything it does (43 R605). -/
theorem rowDwell_eq (s : State) (h : s.scanRow.toNat < 31) : rowDwell s =
    { s with
      outOe := true, waitCnt := 0, scanRow := s.scanRow + 1#5, scanStep := stepRowBegin
      trace := .panel (.hold (holdExactly s.cfg s.cfg.tDwell)) :: .panel (.oe true)
        :: .panel (.hold (holdGap s.cfg s.cfg.tOeGap)) :: s.trace } := by
  simp only [rowDwell, holdPanel, driveOe, if_pos h]

/-- ROW_DWELL of the last row: everything it does, with the end of the refresh (43 R605, R606). -/
theorem rowDwell_last (s : State) (h : ¬ s.scanRow.toNat < 31) : rowDwell s =
    { s with
      outOe := !s.cfg.blankBetweenRefresh, waitCnt := 0
      scanRow := 0#5, scanCol := 0#5, scanStep := stepRowBegin, phase := phaseSelect
      trace := (if s.cfg.blankBetweenRefresh then [.panel (.oe false)] else [])
        ++ .panel (.hold (holdExactly s.cfg s.cfg.tDwell)) :: .panel (.oe true)
        :: .panel (.hold (holdGap s.cfg s.cfg.tOeGap)) :: s.trace } := by
  simp only [rowDwell, holdPanel, driveOe, if_neg h, refreshEnd]
  by_cases hb : s.cfg.blankBetweenRefresh = true <;> simp [hb]

/-- One row of a refresh: everything it does, before the end of the last row. -/
theorem refreshRow_eq (r : Nat) (hr : r < 31) (s : State) : refreshRow s r =
    { s with
      outAddr := (cellLinesAt s r 31).addr, outRgb := (cellLinesAt s r 31).rgb
      outSclk := false, outLat := false, outOe := true, waitCnt := 0
      scanRow := BitVec.ofNat 5 r + 1#5, scanCol := 31#5, scanStep := stepRowBegin
      trace := ((rowTrace s.cfg s.fb r).map Event.panel).reverse ++ s.trace } := by
  have hm : r % 32 = r := Nat.mod_eq_of_lt (by omega)
  unfold refreshRow
  rw [refreshColumn_fold 31 (by omega), rowDwell_eq _ (by simp [hm, hr])]
  simp [rowCommit, rowBegin, holdPanel, driveOe, driveLat, hm, rowTrace_eq, cellLinesAt]

/-- The last row of a refresh: everything it does, with the end of the refresh. -/
theorem refreshRow_last (s : State) : refreshRow s 31 =
    { s with
      outAddr := (cellLinesAt s 31 31).addr, outRgb := (cellLinesAt s 31 31).rgb
      outSclk := false, outLat := false, outOe := !s.cfg.blankBetweenRefresh, waitCnt := 0
      scanRow := 0#5, scanCol := 0#5, scanStep := stepRowBegin, phase := phaseSelect
      trace := ((rowTrace s.cfg s.fb 31 ++ (if s.cfg.blankBetweenRefresh then [PanelEvent.oe false] else [])).map Event.panel).reverse
        ++ s.trace } := by
  unfold refreshRow
  rw [refreshColumn_fold 31 (by omega), rowDwell_last _ (by simp)]
  by_cases hb : s.cfg.blankBetweenRefresh = true <;>
    simp [rowCommit, rowBegin, holdPanel, driveOe, driveLat, rowTrace_eq, cellLinesAt, hb]

/-- The loop over the rows of a refresh before the last. -/
theorem refreshRow_fold (n : Nat) (hn : n < 31) (s : State) : (List.range (n + 1)).foldl refreshRow s =
    { s with
      outAddr := (cellLinesAt s n 31).addr, outRgb := (cellLinesAt s n 31).rgb
      outSclk := false, outLat := false, outOe := true, waitCnt := 0
      scanRow := BitVec.ofNat 5 n + 1#5, scanCol := 31#5, scanStep := stepRowBegin
      trace := (((List.range (n + 1)).flatMap (rowTrace s.cfg s.fb)).map Event.panel).reverse ++ s.trace } := by
  induction n with
  | zero =>
    simp only [List.range_succ, List.range_zero, List.nil_append, List.foldl_cons, List.foldl_nil]
    rw [refreshRow_eq 0 (by omega)]
    simp
  | succ n ih =>
    rw [List.range_succ, List.foldl_append, ih (by omega)]
    simp only [List.foldl_cons, List.foldl_nil]
    rw [refreshRow_eq (n + 1) hn]
    simp [cellLinesAt]

/-- SCAN_REFRESH: everything it does (43 R601, R610). -/
theorem scanRefresh_eq (s : State) : scanRefresh s =
    { s with
      outAddr := (cellLinesAt s 31 31).addr, outRgb := (cellLinesAt s 31 31).rgb
      outSclk := false, outLat := false, outOe := !s.cfg.blankBetweenRefresh, waitCnt := 0
      scanRow := 0#5, scanCol := 0#5, scanStep := stepRowBegin, phase := phaseSelect
      trace := ((refreshTrace s.cfg s.fb).map Event.panel).reverse ++ s.trace } := by
  unfold scanRefresh
  rw [show List.range 32 = List.range 31 ++ [31] from List.range_succ, List.foldl_append, refreshRow_fold 30 (by omega)]
  simp only [List.foldl_cons, List.foldl_nil]
  rw [refreshRow_last]
  simp [cellLinesAt, refreshTrace, show List.range 32 = List.range 31 ++ [31] from List.range_succ]

end Sys2Proof.Machine
end

