-- ==== Sys2Proof/Laws/Ops.lean ====
section
/-! SUPPORT. What each further shared operation can do, once each. -/

namespace Sys2Proof.Machine

open Sys2Proof.Safety

/-! ### The codec (40) -/

/-- The address field of a cell (40 R430). -/
theorem cellOf_addr (a : BitVec 4) (h : Half) (c : Color) : (decodeCellOf (cellOf a h c)).addr = a := by
  revert a
  cases h <;> cases c <;> decide

/-- The colour lines of a cell: the one of its half and colour (40 R432). -/
theorem cellOf_rgb (a : BitVec 4) (h : Half) (c : Color) :
    (decodeCellOf (cellOf a h c)).rgb = 1#6 <<< (colourBit h c - 4) := by
  revert a
  cases h <;> cases c <;> decide

/-- The half of a legal row's cell gives its address lines. -/
theorem legalCell_addr {row : Nat} {w : Cell} (h : legalCell row w) : (decodeCellOf w).addr = romRow row := by
  obtain ⟨c, rfl⟩ := h
  exact cellOf_addr _ _ _

/-- The idle cell is legal. -/
theorem idleCell_legal (r : Nat) : legalCell r (idleCell r) := ⟨.blue, rfl⟩

/-- The codec checks its row, and nothing else (40 R410, R420, R421). -/
theorem rowAddrOf_ok {r : Nat} (h : r ≤ 31) : rowAddrOf r = .ok (romRow r) := if_neg (by omega)

theorem rowAddrOf_error {r : Nat} (h : 31 < r) : rowAddrOf r = .error faultRowRange := if_pos h

theorem encodeIdleOf_ok {r : Nat} (h : r ≤ 31) : encodeIdleOf r = .ok (idleCell r) := by
  simp only [encodeIdleOf, rowAddrOf_ok h]
  rfl

theorem encodeIdleOf_error {r : Nat} (h : 31 < r) : encodeIdleOf r = .error faultRowRange := by
  simp only [encodeIdleOf, rowAddrOf_error h]

theorem encodeResultOf_ok {r : Nat} (h : r ≤ 31) (hf : Half) (c : Color) :
    encodeResultOf r hf c = .ok (resultCell r hf c) := by
  simp only [encodeResultOf, rowAddrOf_ok h]
  rfl

theorem encodeResultOf_error {r : Nat} (h : 31 < r) (hf : Half) (c : Color) :
    encodeResultOf r hf c = .error faultRowRange := by
  simp only [encodeResultOf, rowAddrOf_error h]

/-- An operation that returns a value changes that value only, or enters HALT. -/
theorem returning_next {r : Except (BitVec 4) Returned} {s t : State} (h : returning r s = .next t) :
    (∃ v, t = setRet v s) ∨ (∃ code, t = raiseFault code s) := by
  cases r with
  | ok v =>
    simp only [returning, Host.Outcome.next.injEq] at h
    exact .inl ⟨v, h.symm⟩
  | error code =>
    simp only [returning, Host.Outcome.next.injEq] at h
    exact .inr ⟨code, h.symm⟩

/-! ### The frame buffer (41) -/

/-- FB_SET of a cell of the frame (41 R450). -/
theorem fbSet_eq {row col : Nat} (hr : row ≤ 31) (hc : col ≤ 31) (v : Cell) (s : State) :
    fbSet row col v s = .next (setFb (Memory.write s.fb (cellIndex row col) v) s) := by
  have h : ¬ 1024 ≤ cellIndex row col := Nat.not_le.mpr (cellIndex_lt (by omega) (by omega))
  simp only [fbSet, storeCell, if_neg (Nat.not_lt.mpr hr), if_neg (Nat.not_lt.mpr hc), if_neg h]
  simp

/-- FB_SET always goes on: one cell of the frame is written, or HALT is entered. -/
theorem fbSet_next (row col : Nat) (v : Cell) (s : State) :
    (31 < row ∧ fbSet row col v s = .next (raiseFault faultRowRange s))
      ∨ (row ≤ 31 ∧ 31 < col ∧ fbSet row col v s = .next (raiseFault faultColRange s))
      ∨ (row ≤ 31 ∧ col ≤ 31 ∧ fbSet row col v s = .next (setFb (Memory.write s.fb (cellIndex row col) v) s)) := by
  by_cases hr : 31 < row
  · exact .inl ⟨hr, if_pos hr⟩
  · by_cases hc : 31 < col
    · exact .inr (.inl ⟨by omega, hc, by simp only [fbSet, if_neg hr, if_pos hc]⟩)
    · exact .inr (.inr ⟨by omega, by omega, fbSet_eq (by omega) (by omega) v s⟩)

/-- INIT: everything it does (70 R1002). -/
theorem initFrame_eq (s : State) :
    initFrame s = { s with fb := fillIdle s.fb, initIdx := 1023#10, phase := phaseSelect } := by
  simp only [initFrame, setPhase, setFb]

/-! ### Ticks, the environment, the halt -/

/-- A saturating decrement, as a number (44 R713). -/
theorem countDown_toNat (v : BitVec 16) : (countDown v).toNat = v.toNat - 1 := by
  unfold countDown
  split
  · have : 1#16 ≤ v := by simp only [BitVec.le_def, BitVec.toNat_ofNat]; omega
    rw [BitVec.toNat_sub_of_le this]
    rfl
  · simp; omega

/-- SELECT: everything it does (44 R720). -/
theorem select_eq (s : State) : select s =
    { s with
      env := (takeButtons s).env, btnSample := nextButtons s
      phase := if nextButtons s = 0#4 then (if s.cdPoll = 0#16 then phasePoll else phaseMap)
        else (if s.cdNotify = 0#16 then phaseNotify else phaseMap) } := by
  by_cases hb : nextButtons s = 0#4 <;> by_cases h1 : s.cdPoll = 0#16 <;> by_cases h2 : s.cdNotify = 0#16 <;>
    simp [select, mayNotify, mayPoll, setPhase, takeButtons, hb, h1, h2]

/-- HALT: nothing once the fault is recorded, else entry (60 R910, R911). -/
theorem haltStep_cases (s : State) :
    (s.fault = true ∧ s.phase = phaseHalt ∧ haltStep s = s)
      ∨ (¬ (s.fault = true ∧ s.phase = phaseHalt) ∧ haltStep s = raiseFault s.faultCode s) := by
  by_cases h : s.fault = true ∧ s.phase = phaseHalt
  · exact .inl ⟨h.1, h.2, if_pos h⟩
  · exact .inr ⟨h, if_neg h⟩

/-- A reset finds the registers of the block as they were: only the environment and the trace may have moved on. -/
theorem abandon_eq (cut : Nat) (s : State) (o : Outcome) :
    abandon cut s o = { s with env := (abandon cut s o).env, trace := (abandon cut s o).trace } := by
  unfold abandon
  split
  · rfl
  · split <;> rfl

/-- A word that is no operation is a fault of the block, or a refusal. -/
theorem turnedAway_next {e : DecodeError} {s t : State} (h : turnedAway e s = .next t) :
    t = raiseFault faultReservedState s := by
  cases e <;> simp_all [turnedAway]

/-! ### Fetching -/

/-- The word of the next operation. -/
theorem fetchWord_eq (s : State) : fetchWord s =
    if s.phase = phaseHalt then opWord .sequencer (s.phase ++ s.scanStep)
    else s.request.getD (opWord .sequencer (s.phase ++ s.scanStep)) := by
  unfold fetchWord sequencerWord
  cases s.request <;> rfl

/-- Neither a turn nor a tick changes the next operation. -/
@[simp] theorem fetch_takeTurn (s : State) : fetch (takeTurn s) = fetch s := rfl
@[simp] theorem fetch_tickCounters (s : State) : fetch (tickCounters s) = fetch s := rfl

/-- With nothing requested, the sequencer's word decodes by phase and step (30 R330, R331). -/
theorem fetch_sequencer {s : State} (h : s.request = none) : fetch s = decodeSequencer s.phase s.scanStep := by
  unfold fetch
  rw [fetchWord_eq, h]
  simp only [Option.getD_none, ite_self]
  generalize s.phase = p
  generalize s.scanStep = q
  revert p q
  decide

/-- In HALT the next operation is HALT, whatever is requested (60 R911). -/
theorem fetch_halt {s : State} (h : s.phase = phaseHalt) : fetch s = .ok .halt := by
  unfold fetch
  rw [fetchWord_eq, if_pos h, h]
  generalize s.scanStep = q
  revert q
  decide

/-! ### The two frames (44 R730, R735) -/

/-- A buffer's bytes after it is filled from byte `k`. -/
theorem FrameBuf.fill_toList (l : List Byte) (k : Nat) (b : FrameBuf) (h : k + l.length ≤ 11) :
    (FrameBuf.fill b k l).toList = b.toList.take k ++ l ++ b.toList.drop (k + l.length) := by
  induction l generalizing b k with
  | nil => simp [FrameBuf.fill]
  | cons v l ih =>
    simp only [List.length_cons] at h
    have hk : k < b.toList.length := by simp; omega
    have hp : (FrameBuf.put b k v).toList = b.toList.set k v := by simp [FrameBuf.put]
    rw [FrameBuf.fill, ih (k + 1) _ (by omega), hp, List.take_set, List.drop_set_of_lt (by omega),
      List.take_succ_eq_append_getElem hk, List.set_append_right _ _ (by simp)]
    simp only [List.length_take, List.length_cons]
    rw [Nat.min_eq_left (by omega)]
    simp [show k + 1 + l.length = k + (l.length + 1) by omega]

/-- The first bytes of a buffer filled from byte 0. -/
theorem firstBytes_fill (l : List Byte) (b : FrameBuf) (h : l.length ≤ 11) :
    firstBytes l.length (FrameBuf.fill b 0 l) = l := by
  simp [firstBytes, FrameBuf.fill_toList l 0 b (by omega)]

/-- The notify frame in a buffer, byte by byte. -/
theorem fill_notifyBytes (c : Config) (b : FrameBuf) (mask : BitVec 4) :
    FrameBuf.fill b 0 (notifyBytes c mask) = (b.set 0 c.sync).set 1 (0#4 ++ mask : BitVec 8) := by
  have h : mask.setWidth 8 = (0#4 ++ mask : BitVec 8) := by
    revert mask
    decide
  apply Vector.ext
  intro k hk
  simp only [notifyBytes, FrameBuf.fill, FrameBuf.put, h]
  rw [Vector.getElem_setIfInBounds hk, Vector.getElem_setIfInBounds hk]
  simp [Vector.getElem_set]

/-- The poll request in a buffer, byte by byte. -/
theorem fill_pollRequestBytes (c : Config) (b : FrameBuf) : FrameBuf.fill b 0 (pollRequestBytes c) =
    #v[c.sync, c.cmdReady, 0#8, 0#8, 0#8, 0#8, 0#8, 0#8, 0#8, 0#8, 0#8] := by
  apply Vector.toList_inj.mp
  rw [FrameBuf.fill_toList _ _ _ (by simp [pollRequestBytes])]
  simp [pollRequestBytes]

/-- NOTIFY_SEND: everything it does (44 R730). -/
theorem notifySend_eq (s : State) : notifySend s =
    { s with
      txBuf := FrameBuf.fill s.txBuf 0 (notifyBytes s.cfg s.btnSample)
      rxBuf := FrameBuf.fill s.rxBuf 0 (misoBytes s.cfg.notifyLen.bytes.toNat s.env)
      linkLen := s.cfg.notifyLen.bytes, linkByte := s.cfg.notifyLen.bytes - 1#4, linkBit := 0#3, waitCnt := 0
      outMosi := (FrameBuf.byte (FrameBuf.fill s.txBuf 0 (notifyBytes s.cfg s.btnSample))
        (s.cfg.notifyLen.bytes.toNat - 1)).getLsbD 0
      outSck := false, outCsN := true
      cdNotify := s.cfg.cooldownNotify, phase := phaseMap, env := envAfterBits (8 * s.cfg.notifyLen.bytes.toNat) s.env
      trace := ((frameTrace s.cfg
        (firstBytes s.cfg.notifyLen.bytes.toNat (FrameBuf.fill s.txBuf 0 (notifyBytes s.cfg s.btnSample)))
        (misoBits (8 * s.cfg.notifyLen.bytes.toNat) s.env)).map Event.link).reverse ++ s.trace } := by
  simp only [notifySend, xfer_length_eq, setPhase, loadFrame]

/-- POLL_EXCHANGE: everything it does, the held registers as POLL_ACCEPT leaves them (44 R735, R750). -/
theorem pollExchange_eq (s : State) : pollExchange s =
    pollAccept { s with
      txBuf := FrameBuf.fill s.txBuf 0 (pollRequestBytes s.cfg)
      rxBuf := FrameBuf.fill s.rxBuf 0 (misoBytes s.cfg.pollLen.bytes.toNat s.env)
      linkLen := s.cfg.pollLen.bytes, linkByte := s.cfg.pollLen.bytes - 1#4, linkBit := 0#3, waitCnt := 0
      outMosi := (FrameBuf.byte (FrameBuf.fill s.txBuf 0 (pollRequestBytes s.cfg))
        (s.cfg.pollLen.bytes.toNat - 1)).getLsbD 0
      outSck := false, outCsN := true
      cdPoll := s.cfg.cooldownPoll, phase := phaseMap, env := envAfterBits (8 * s.cfg.pollLen.bytes.toNat) s.env
      trace := ((frameTrace s.cfg
        (firstBytes s.cfg.pollLen.bytes.toNat (FrameBuf.fill s.txBuf 0 (pollRequestBytes s.cfg)))
        (misoBits (8 * s.cfg.pollLen.bytes.toNat) s.env)).map Event.link).reverse ++ s.trace } := by
  simp [pollExchange, xfer_length_eq, loadFrame, setPhase, pollAccept, rspOk]

/-- A filled buffer sent at its own length is what it was filled with. -/
theorem firstBytes_notify (c : Config) (mask : BitVec 4) (b : FrameBuf) :
    firstBytes 2 (FrameBuf.fill b 0 (notifyBytes c mask)) = notifyBytes c mask :=
  firstBytes_fill (notifyBytes c mask) b (by simp [notifyBytes])

theorem firstBytes_poll (c : Config) (b : FrameBuf) :
    firstBytes 11 (FrameBuf.fill b 0 (pollRequestBytes c)) = pollRequestBytes c :=
  firstBytes_fill (pollRequestBytes c) b (by simp [pollRequestBytes])

end Sys2Proof.Machine
end

