-- ==== Sys2Proof/Laws/PerInstr.lean ====
section
/-! SUPPORT. Statements about every operation as syntax, one lemma per constructor. -/

namespace Sys2Proof.Laws.EncodeFits

open Sys2Proof

/-- The word of a well-formed operation fits its lane (spec/opcode_table.json): no bit of it is stray. -/
def Statement (i : Instr) : Prop := i.wellFormed = true → (encode i).bits.toNat < 2 ^ (encode i).lane.width

/-- A word no wider than its lane fits it. -/
theorem opWord_fits {n : Nat} (lane : Lane) (w : BitVec n) (h : n ≤ lane.width) (h88 : lane.width ≤ 88) :
    (opWord lane w).bits.toNat < 2 ^ (opWord lane w).lane.width := by
  have hw : w.toNat < 2 ^ lane.width := Nat.lt_of_lt_of_le w.isLt (Nat.pow_le_pow_right (by decide) h)
  have h2 : (2 : Nat) ^ lane.width ≤ 2 ^ 88 := Nat.pow_le_pow_right (by decide) h88
  simp only [opWord, BitVec.toNat_setWidth]
  exact Nat.lt_of_le_of_lt (Nat.mod_le _ _) hw

theorem cellRedTop (a : BitVec 4) : Statement (.cellRedTop a) := fun _ => opWord_fits _ _ (by decide) (by decide)
theorem cellGreenTop (a : BitVec 4) : Statement (.cellGreenTop a) := fun _ => opWord_fits _ _ (by decide) (by decide)
theorem cellBlueTop (a : BitVec 4) : Statement (.cellBlueTop a) := fun _ => opWord_fits _ _ (by decide) (by decide)
theorem cellRedBot (a : BitVec 4) : Statement (.cellRedBot a) := fun _ => opWord_fits _ _ (by decide) (by decide)
theorem cellGreenBot (a : BitVec 4) : Statement (.cellGreenBot a) := fun _ => opWord_fits _ _ (by decide) (by decide)
theorem cellBlueBot (a : BitVec 4) : Statement (.cellBlueBot a) := fun _ => opWord_fits _ _ (by decide) (by decide)
theorem frameNotify (m : BitVec 4) : Statement (.frameNotify m) := fun _ => opWord_fits _ _ (by decide) (by decide)
theorem framePollReq : Statement .framePollReq := fun _ => opWord_fits _ _ (by decide) (by decide)
theorem framePollRsp (x : BitVec 32) (c h m l p : Byte) : Statement (.framePollRsp x c h m l p) := fun _ => opWord_fits _ _ (by decide) (by decide)
theorem init : Statement .init := fun _ => opWord_fits _ _ (by decide) (by decide)
theorem select : Statement .select := fun _ => opWord_fits _ _ (by decide) (by decide)
theorem notifySend : Statement .notifySend := fun _ => opWord_fits _ _ (by decide) (by decide)
theorem pollExchange : Statement .pollExchange := fun _ => opWord_fits _ _ (by decide) (by decide)
theorem mapAll : Statement .mapAll := fun _ => opWord_fits _ _ (by decide) (by decide)
theorem scanRefresh : Statement .scanRefresh := fun _ => opWord_fits _ _ (by decide) (by decide)
theorem halt : Statement .halt := fun _ => opWord_fits _ _ (by decide) (by decide)
theorem rowBegin : Statement .rowBegin := fun _ => opWord_fits _ _ (by decide) (by decide)
theorem shiftSetup : Statement .shiftSetup := fun _ => opWord_fits _ _ (by decide) (by decide)
theorem shiftHigh : Statement .shiftHigh := fun _ => opWord_fits _ _ (by decide) (by decide)
theorem rowCommit : Statement .rowCommit := fun _ => opWord_fits _ _ (by decide) (by decide)
theorem rowDwell : Statement .rowDwell := fun _ => opWord_fits _ _ (by decide) (by decide)
theorem shiftCell : Statement .shiftCell := fun _ => opWord_fits _ _ (by decide) (by decide)
theorem refreshEnd : Statement .refreshEnd := fun _ => opWord_fits _ _ (by decide) (by decide)
theorem cycle : Statement .cycle := fun _ => opWord_fits _ _ (by decide) (by decide)
theorem reset : Statement .reset := fun _ => opWord_fits _ _ (by decide) (by decide)
theorem tick : Statement .tick := fun _ => opWord_fits _ _ (by decide) (by decide)
theorem xfer (n : BitVec 4) : Statement (.xfer n) := fun _ => opWord_fits _ _ (by decide) (by decide)
theorem xferByte (k : BitVec 4) : Statement (.xferByte k) := fun _ => opWord_fits _ _ (by decide) (by decide)
theorem xferBit (b : BitVec 3) : Statement (.xferBit b) := fun _ => opWord_fits _ _ (by decide) (by decide)
theorem pollAccept : Statement .pollAccept := fun _ => opWord_fits _ _ (by decide) (by decide)
theorem rowAddr (r : BitVec 8) : Statement (.rowAddr r) := fun _ => opWord_fits _ _ (by decide) (by decide)
theorem encodeIdle (r : BitVec 8) : Statement (.encodeIdle r) := fun _ => opWord_fits _ _ (by decide) (by decide)
theorem encodeResult (r : BitVec 8) (h : Half) (c : Color) : Statement (.encodeResult r h c) := fun _ => opWord_fits _ _ (by decide) (by decide)
theorem decodeCell (w : Cell) : Statement (.decodeCell w) := fun _ => opWord_fits _ _ (by decide) (by decide)
theorem fbSet (r c : BitVec 8) (d : Cell) : Statement (.fbSet r c d) := fun _ => opWord_fits _ _ (by decide) (by decide)
theorem fbRead (r c : BitVec 5) : Statement (.fbRead r c) := fun _ => opWord_fits _ _ (by decide) (by decide)
theorem fbResetToIdle : Statement .fbResetToIdle := fun _ => opWord_fits _ _ (by decide) (by decide)
theorem resultOf (b : BitVec 24) (s : BitVec 5) : Statement (.resultOf b s) := fun _ => opWord_fits _ _ (by decide) (by decide)
theorem colorOf (t : ResultCode) (s : BitVec 5) (p : Byte) : Statement (.colorOf t s p) := fun _ => opWord_fits _ _ (by decide) (by decide)
theorem mapApply (s : BitVec 5) (t : ResultCode) (p : Byte) : Statement (.mapApply s t p) := fun _ => opWord_fits _ _ (by decide) (by decide)

end Sys2Proof.Laws.EncodeFits
end

