-- ==== Sys2Proof/Machine/Script.lean ====
section
/-! DEFINITION. Stimulus scripts (30 R337): a bench that feeds the environment's queues and runs whole cycles (log
entry 27). `EXPECT` is a statement about the bench's state. -/

namespace Sys2Proof.Machine

/-- A script command. -/
inductive Command where
  | reset
  | btn (mask : BitVec 4)
  | tick (n : Nat)
  | peer (bytes : List Byte)
  | cycle (k : Nat)
deriving DecidableEq, Repr

/-- The bench: the levels of the buttons, the bytes queued for the next frame, and the block. -/
structure Bench where
  level : BitVec 4
  peer : List Byte
  state : State
deriving DecidableEq, Repr

/-- What a bench answers. -/
abbrev BenchOutcome := Host.Outcome Bench Fault Refusal

/-- A bench whose block has taken an operation. -/
def Bench.after (b : Bench) (o : Outcome) : BenchOutcome :=
  match o with
  | .next s => .next { b with state := s }
  | .fault f => .fault f
  | .refused r => .refused r

/-- Run on from a bench that goes on. -/
def Bench.chain (o : BenchOutcome) (f : Bench → BenchOutcome) : BenchOutcome :=
  match o with
  | .next b => f b
  | .fault e => .fault e
  | .refused r => .refused r

/-- The bits of an 11-byte answer of the peer, bytes not given being 0x00. -/
def peerBits (bytes : List Byte) : List Bool := unpackBytes (bytes ++ List.replicate (11 - bytes.length) 0#8)

/-- One cycle: the buttons at their level, the peer with its answer; a queued answer waits for a frame. -/
def Bench.cycleOnce (b : Bench) : BenchOutcome :=
  let bits := peerBits b.peer
  let s := b.state
  Bench.chain
    (Bench.after b (exec .cycle { s with env := { s.env with buttons := [b.level], miso := bits } }))
    fun b1 => .next { b1 with peer := if b1.state.env.miso.length = bits.length then b.peer else [] }

/-- A command repeated. -/
def Bench.repeated (f : Bench → BenchOutcome) : Nat → Bench → BenchOutcome
  | 0, b => .next b
  | n + 1, b => Bench.chain (f b) (Bench.repeated f n)

/-- One command (30 R337): RESET is reset followed by INIT. -/
def Bench.run1 (c : Command) (b : Bench) : BenchOutcome :=
  match c with
  | .reset => Bench.chain (Bench.after b (exec .reset b.state)) fun b1 => Bench.after b1 (exec .init b1.state)
  | .btn m => .next { b with level := m }
  | .tick n => Bench.repeated (fun b1 => Bench.after b1 (exec .tick b1.state)) n b
  | .peer bytes => .next { b with peer := bytes }
  | .cycle k => Bench.repeated Bench.cycleOnce k b

/-- A script: its commands in order. -/
def Bench.run : List Command → Bench → BenchOutcome
  | [], b => .next b
  | c :: cs, b => Bench.chain (Bench.run1 c b) (Bench.run cs)

end Sys2Proof.Machine
end

