-- ==== Sys2Proof/Tests/Slice0.lean ====
section
/-! SUPPORT. The author's tests. Expected values are the spec's: its encodings (30), the examples in its rules, and the
vectors of 95. A theorem whose name begins test_witness shows a state and operands that meet a statement's hypotheses. -/

namespace Sys2Proof.Tests

open Sys2Proof Sys2Proof.Machine Sys2Proof.Safety

/-! ## Helpers -/

/-- A configuration with the reference layout and a 1 MHz block clock. -/
def cfg : Config := { fSys := 1000000, tCsIdle := 10000, regionTable := {} }

/-- The block right after reset, so configured. -/
def s0 : State := State.resetWith cfg

/-- A part of the next state, if there is one. -/
def part {α : Type} (o : Outcome) (f : State → α) : Option α :=
  match o with
  | .next t => some (f t)
  | .fault _ => none
  | .refused _ => none

/-- Why an outcome is no next state. -/
def stop (o : Outcome) : Option (Fault ⊕ Refusal) :=
  match o with
  | .next _ => none
  | .fault f => some (.inl f)
  | .refused r => some (.inr r)

/-- A sequencer word on a lane. -/
def word (lane : Lane) (w : Nat) : OpWord := { lane := lane, bits := BitVec.ofNat 88 w }

/-- The block with the next turn, phase and scan step given. -/
def at_ (t : Turn) (phase step : BitVec 3) : State := State.withTurn t { s0 with phase := phase, scanStep := step }

/-! ## Well-formedness: an ill-formed term for each check, which the check refuses -/

theorem test_wf_refuses_mask_0 : Instr.wellFormed (.frameNotify 0#4) = false := by decide
theorem test_wf_refuses_frame_of_3 : Instr.wellFormed (.xfer 3#4) = false := by decide
theorem test_wf_refuses_byte_11 : Instr.wellFormed (.xferByte 11#4) = false := by decide
theorem test_wf_refuses_row_32 : Instr.wellFormed (.rowAddr 32#8) = false := by decide
theorem test_wf_refuses_idle_row_32 : Instr.wellFormed (.encodeIdle 32#8) = false := by decide
theorem test_wf_refuses_result_row_32 : Instr.wellFormed (.encodeResult 32#8 .top .red) = false := by decide
theorem test_wf_refuses_set_row_32 : Instr.wellFormed (.fbSet 32#8 0#8 0#16) = false := by decide
theorem test_wf_refuses_set_col_32 : Instr.wellFormed (.fbSet 0#8 32#8 0#16) = false := by decide

theorem test_w1_refuses_row_29 : Region.inRange ⟨.bottom, 29#5, 0#5⟩ = false := by decide
theorem test_w2_refuses_row_13 : Region.oneHalf ⟨.top, 13#5, 0#5⟩ = false := by decide
theorem test_w3_refuses_col_14 : Region.oneColumnHalf ⟨.top, 0#5, 14#5⟩ = false := by decide
theorem test_w4_refuses_other_half : Region.halfConsistent ⟨.top, 16#5, 0#5⟩ = false := by decide
theorem test_w5_refuses_shared_cell : regionsDisjoint [⟨.top, 0#5, 0#5⟩, ⟨.top, 3#5, 2#5⟩] = false := by decide
theorem test_table_refuses_one_region_24_times :
    regionsWellFormed (Vector.replicate 24 ⟨.top, 0#5, 0#5⟩) = false := by decide

theorem test_cfg_well_formed : cfg.wellFormed = true := by decide
theorem test_cfg_refuses_stopped_clock : Config.wellFormed { cfg with fSys := 0 } = false := by decide
theorem test_cfg_refuses_stopped_link : Config.wellFormed { cfg with fSck := 0 } = false := by decide
theorem test_cfg_refuses_short_pulse : Config.wellFormed { cfg with tSclkHigh := 999 } = false := by decide
theorem test_cfg_refuses_short_setup : Config.wellFormed { cfg with tSetup := 999 } = false := by decide
theorem test_cfg_refuses_other_dwell : Config.wellFormed { cfg with tDwell := 449999 } = false := by decide
theorem test_cfg_refuses_short_idle : Config.wellFormed { cfg with tCsIdle := 9999 } = false := by decide
theorem test_cfg_refuses_cooldown_501 : Config.wellFormed { cfg with resetCooldown := 501#16 } = false := by decide

theorem test_frame_length_refuses_0_and_12 :
    (decide (1 ≤ (0#4).toNat) && decide ((0#4).toNat ≤ 11)) = false
      ∧ (decide (1 ≤ (12#4).toNat) && decide ((12#4).toNat ≤ 11)) = false := by decide
theorem test_wait_width :
    Config.waitWidth cfg = 9 ∧ Config.waitWidth { cfg with fSck := 500 } = 10 := by decide

theorem test_port_refuses_half_cell : stop (storeCell 5 1 0#16 s0) = some (.inr .partialCell) := by decide
theorem test_port_refuses_index_1024 : stop (storeCell 1024 2 0#16 s0) = some (.inl .noSuchCell) := by decide

/-! ## Decoding, on words written out from the encodings of spec/opcode_table.json -/

theorem test_decode_cells :
    decode (word .cell 0b0000000000010010) = .ok (.cellRedTop 2#4)
      ∧ decode (word .cell 0b0000000000100011) = .ok (.cellGreenTop 3#4)
      ∧ decode (word .cell 0b0000000001001111) = .ok (.cellBlueTop 15#4)
      ∧ decode (word .cell 0b0000000010000001) = .ok (.cellRedBot 1#4)
      ∧ decode (word .cell 0b0000000100000101) = .ok (.cellGreenBot 5#4)
      ∧ decode (word .cell 0b0000001000001111) = .ok (.cellBlueBot 15#4) := by decide

theorem test_decode_frames :
    decode (word .frame16 0b0101010100001111) = .ok (.frameNotify 15#4)
      ∧ decode (word .frame88 0x5510000000000000000000) = .ok .framePollReq
      ∧ decode (word .frame88 0x1234567855100B00000104)
        = .ok (.framePollRsp 0x12345678#32 0x0B#8 0x00#8 0x00#8 0x01#8 0x04#8) := by decide

theorem test_decode_phases :
    decode (word .sequencer 0b000000) = .ok .init ∧ decode (word .sequencer 0b001000) = .ok .select
      ∧ decode (word .sequencer 0b010111) = .ok .notifySend ∧ decode (word .sequencer 0b011000) = .ok .pollExchange
      ∧ decode (word .sequencer 0b100000) = .ok .mapAll ∧ decode (word .sequencer 0b111101) = .ok .halt := by decide

theorem test_decode_scan_steps :
    decode (word .sequencer 0b101000) = .ok .rowBegin ∧ decode (word .sequencer 0b101001) = .ok .shiftSetup
      ∧ decode (word .sequencer 0b101010) = .ok .shiftHigh ∧ decode (word .sequencer 0b101011) = .ok .rowCommit
      ∧ decode (word .sequencer 0b101100) = .ok .rowDwell := by decide

theorem test_decode_composites :
    decode (word .refresh 0b101000) = .ok .scanRefresh ∧ decode (word .shift 0b101001) = .ok .shiftCell
      ∧ decode (word .refreshEnd 0b101100) = .ok .refreshEnd ∧ decode (word .cycle 0b001000) = .ok .cycle := by decide

theorem test_decode_ports_and_framer :
    decode (word .portRst 1) = .ok .reset ∧ decode (word .portTick 1) = .ok .tick
      ∧ decode (word .linkLen 0b1011) = .ok (.xfer 11#4) ∧ decode (word .linkByte 0b1010) = .ok (.xferByte 10#4)
      ∧ decode (word .linkBit 0b110) = .ok (.xferBit 6#3) ∧ decode (word .rspHeader 0x5510) = .ok .pollAccept := by decide

theorem test_decode_codec :
    decode (word .rowAddr 0b10100) = .ok (.rowAddr 20#8) ∧ decode (word .encodeIdle 0b10001) = .ok (.encodeIdle 17#8)
      ∧ decode (word .encodeResult 0b00011100) = .ok (.encodeResult 3#8 .bottom .red)
      ∧ decode (word .decodeCell 0xFC40) = .ok (.decodeCell 0xFC40#16) := by decide

theorem test_decode_memory_and_mapper :
    decode (word .fbSet (0b11111 * 2 ^ 21 + 0b00010 * 2 ^ 16 + 0x0249)) = .ok (.fbSet 31#8 2#8 0x0249#16)
      ∧ decode (word .fbRead 0b1000000111) = .ok (.fbRead 16#5 7#5) ∧ decode (word .fbReset 0) = .ok .fbResetToIdle
      ∧ decode (word .resultOf (0x800001 * 2 ^ 5 + 0b10111)) = .ok (.resultOf 0x800001#24 23#5)
      ∧ decode (word .colorOf 0b01_00101_00000011) = .ok (.colorOf 1#2 5#5 3#8)
      ∧ decode (word .mapApply 0b00101_01_00000011) = .ok (.mapApply 5#5 1#2 3#8) := by decide

theorem test_decode_refuses_reserved :
    decode (word .sequencer 0b110000) = .error .reservedPhase ∧ decode (word .sequencer 0b101101) = .error .reservedScanStep
      ∧ decode (word .sequencer 0b101111) = .error .reservedScanStep ∧ decode (word .cell 0x0030) = .error .notACell
      ∧ decode (word .cell 0x0440) = .error .notACell ∧ decode (word .encodeResult 0b00000011) = .error .colorCode
      ∧ decode (word .frame16 0x5510) = .error .notAFrame ∧ decode (word .rspHeader 0x5511) = .error .notTheHeader := by decide

theorem test_decode_refuses_others :
    decode (word .sequencer 64) = .error .strayBits ∧ decode (word .cycle 0b010000) = .error .notThePhase
      ∧ decode (word .portRst 0) = .error .portLow ∧ decode (word .linkLen 3) = .error .frameLength
      ∧ decode (word .linkByte 11) = .error .byteIndex ∧ decode (word .frame88 0x55) = .error .notAFrame := by decide

/-! ## The table's words and the fetch -/

theorem test_table_words :
    decodeTableWord 16 0x0049 = some (.cellBlueTop 9#4) ∧ decodeTableWord 16 0x5505 = some (.frameNotify 5#4)
      ∧ decodeTableWord 16 0x5510 = some .pollAccept ∧ decodeTableWord 16 0xFC40 = some (.decodeCell 0xFC40#16)
      ∧ decodeTableWord 8 0b011000 = some .pollExchange ∧ decodeTableWord 8 1 = some .reset
      ∧ decodeTableWord 8 0b110000 = none ∧ decodeTableWord 8 256 = none := by decide

theorem test_fetch_word_runs_sequencer :
    part (step (s0.withFetchWord 8 0b101011)) (fun t => (t.scanStep, t.outLat)) = some (stepRowDwell, false) := by decide
theorem test_fetch_word_runs_request :
    part (step (s0.withFetchWord 16 0x5505)) (fun t => (firstBytes 2 t.txBuf, t.linkLen)) = some ([0x55#8, 0x05#8], 2#4) := by
  decide
theorem test_fetch_word_runs_reset : part (step ({ s0 with heldPos := 7#8 }.withFetchWord 8 1)) State.heldPos = some 0#8 := by
  decide
theorem test_undecodable_request_is_refused :
    stop (step { (State.withTurn .sequencer s0) with request := some (word .linkLen 3) })
      = some (.inr (.undecodable .frameLength)) := by decide

/-! ## The cell codec (40 examples) -/

theorem test_cell_rows : part (exec (.cellGreenBot 5#4) s0) State.ret = some (.lines ⟨5#4, 0b010000#6⟩) := by decide
theorem test_cell_red_top : part (exec (.cellRedTop 2#4) s0) State.ret = some (.lines ⟨2#4, 0b000001#6⟩) := by decide
theorem test_cell_blue_rows :
    part (exec (.cellBlueTop 0#4) s0) State.ret = some (.lines ⟨0#4, 0b000100#6⟩)
      ∧ part (exec (.cellBlueBot 0#4) s0) State.ret = some (.lines ⟨0#4, 0b100000#6⟩) := by decide
theorem test_cell_other_rows :
    part (exec (.cellGreenTop 7#4) s0) State.ret = some (.lines ⟨7#4, 0b000010#6⟩)
      ∧ part (exec (.cellRedBot 7#4) s0) State.ret = some (.lines ⟨7#4, 0b001000#6⟩) := by decide
theorem test_row_addr :
    part (exec (.rowAddr 20#8) s0) State.ret = some (.addr 4#4) ∧ part (exec (.rowAddr 31#8) s0) State.ret = some (.addr 15#4)
      ∧ part (exec (.rowAddr 32#8) s0) State.faultCode = some 1#4 := by decide
theorem test_encode_idle :
    part (exec (.encodeIdle 15#8) s0) State.ret = some (.cell 0x004F#16)
      ∧ part (exec (.encodeIdle 16#8) s0) State.ret = some (.cell 0x0200#16)
      ∧ part (exec (.encodeIdle 31#8) s0) State.ret = some (.cell 0x020F#16)
      ∧ part (exec (.encodeIdle 32#8) s0) State.faultCode = some 1#4 := by decide
theorem test_encode_result :
    part (exec (.encodeResult 3#8 .bottom .red) s0) State.ret = some (.cell 0x0083#16)
      ∧ part (exec (.encodeResult 31#8 .bottom .green) s0) State.ret = some (.cell 0x010F#16)
      ∧ part (exec (.encodeResult 32#8 .top .blue) s0) State.faultCode = some 1#4 := by decide
theorem test_decode_cell :
    part (exec (.decodeCell 0x0205#16) s0) State.ret = some (.lines ⟨5#4, 0b100000#6⟩)
      ∧ part (exec (.decodeCell 0xFC40#16) s0) State.ret = part (exec (.decodeCell 0x0040#16) s0) State.ret := by decide

/-! ## Frames -/

theorem test_frame_notify : part (exec (.frameNotify 5#4) s0) (fun t => firstBytes 3 t.txBuf) = some [0x55#8, 0x05#8, 0x00#8] := by
  decide
theorem test_frame_poll_req : part (exec .framePollReq s0) (fun t => (firstBytes 3 t.txBuf, t.linkLen)) = some ([0x55#8, 0x10#8, 0#8], 11#4) := by
  decide
theorem test_frame_poll_rsp :
    part (exec (.framePollRsp 0xFFFFFFFF#32 0x00#8 0x01#8 0x02#8 0x03#8 0x18#8) s0) (fun t => (t.heldBits, t.heldPos))
      = some (0x010203#24, 0x18#8) := by decide

/-! ## The frame buffer -/

theorem test_fb_set :
    part (exec (.fbSet 0#8 0#8 0x0010#16) s0) State.fb = some [(0, 0x0010#16)]
      ∧ part (exec (.fbSet 31#8 31#8 0x020F#16) s0) State.fb = some [] := by decide
theorem test_fb_set_ranges :
    part (exec (.fbSet 32#8 32#8 0#16) s0) State.faultCode = some 1#4
      ∧ part (exec (.fbSet 31#8 32#8 0#16) s0) State.faultCode = some 2#4
      ∧ part (exec (.fbSet 40#8 0#8 0#16) s0) (fun t => (t.outOe, t.outCsN, t.phase)) = some (false, true, phaseHalt) := by decide
theorem test_fb_read : part (exec (.fbRead 16#5 7#5) s0) State.ret = some (.cell 0x0200#16) := by decide
theorem test_fb_reset_to_idle : exec .fbResetToIdle { s0 with fb := [(5, 0x0010#16)] } = .next s0 := by
  have h := fillIdle_eq (m := [(5, 0x0010#16)]) (by decide)
  simp only [exec, execFbResetToIdle, setFb, h]
  rfl

/-! ## The mapper (42 examples, V-MAP) -/

theorem test_result_of :
    part (exec (.resultOf 0x800000#24 23#5) s0) State.ret = some (.result 1#2)
      ∧ part (exec (.resultOf 0x000001#24 1#5) s0) State.ret = some (.result 0#2)
      ∧ part (exec (.resultOf 0#24 24#5) s0) State.faultCode = some 3#4 := by decide
theorem test_color_of :
    part (exec (.colorOf 1#2 5#5 3#8) s0) State.ret = some (.color .blue)
      ∧ part (exec (.colorOf 0#2 0#5 0#8) s0) State.ret = some (.color .red)
      ∧ part (exec (.colorOf 1#2 23#5 255#8) s0) State.ret = some (.color .green)
      ∧ part (exec (.colorOf 3#2 0#5 255#8) s0) State.ret = some (.color .blue) := by decide
theorem test_map_apply :
    part (exec (.mapApply 12#5 1#2 12#8) s0) (fun t => (Memory.read t.fb (18 * 32 + 1), Memory.read t.fb (21 * 32 + 3)))
      = some (0x0102#16, 0x0105#16) := by decide
theorem test_map_apply_edges :
    part (exec (.mapApply 7#5 0#2 3#8) s0) State.fb = some []
      ∧ part (exec (.mapApply 24#5 1#2 0#8) s0) State.faultCode = some 3#4
      ∧ part (exec (.mapApply 23#5 0#2 23#8) s0) (fun t => Memory.read t.fb (28 * 32 + 29)) = some 0x008C#16 := by decide
theorem test_map_all :
    part (exec .mapAll { s0 with heldBits := 0x000001#24, heldPos := 4#8 })
      (fun t => (Memory.read t.fb (2 * 32 + 1), Memory.read t.fb (9 * 32 + 6), Memory.read t.fb (9 * 32 + 11), t.mapS))
      = some (0x0022#16, 0x0019#16, 0x0049#16, 23#5) := by decide +kernel

/-! ## The scan driver -/

theorem test_row_begin :
    part (exec .rowBegin { s0 with outOe := true, scanCol := 5#5 }) (fun t => (t.outOe, t.outLat, t.scanCol, t.scanStep))
      = some (false, true, 0#5, 1#3) := by decide
theorem test_shift_setup :
    part (exec .shiftSetup { s0 with fb := [(0, 0xFC10#16)] }) (fun t => (t.outAddr, t.outRgb, t.scanStep))
      = some (0#4, 0b000001#6, 2#3) := by decide
theorem test_shift_high :
    part (exec .shiftHigh { s0 with scanCol := 30#5 }) (fun t => (t.scanCol, t.scanStep)) = some (31#5, 1#3)
      ∧ part (exec .shiftHigh { s0 with scanCol := 31#5 }) (fun t => (t.scanCol, t.scanStep)) = some (31#5, 3#3) := by decide
theorem test_shift_cell :
    part (exec .shiftCell { s0 with scanRow := 16#5 }) (fun t => (t.outAddr, t.outRgb, t.outSclk, t.trace.length))
      = some (0#4, 0b100000#6, false, 6) := by decide
theorem test_one_cycle_before_the_lines :
    part (exec .shiftSetup (shiftHigh s0)) (fun t => (panelTrace t).drop 3) = some
      [.hold ⟨1, false⟩, .lines ⟨0#4, 0b000100#6⟩, .hold ⟨1, false⟩] := by decide
theorem test_row_commit : part (exec .rowCommit { s0 with outLat := true }) (fun t => (t.outLat, t.scanStep)) = some (false, 4#3) := by
  decide
theorem test_row_dwell :
    part (exec .rowDwell { s0 with scanRow := 30#5 }) (fun t => (t.outOe, t.scanRow, t.trace.head?))
      = some (true, 31#5, some (.panel (.hold ⟨450, true⟩)))
      ∧ part (exec .rowDwell { s0 with scanRow := 31#5 }) (fun t => (t.outOe, t.scanRow, t.phase)) = some (true, 0#5, 1#3) := by
  decide
theorem test_refresh_end :
    part (exec .refreshEnd { s0 with outOe := true, cfg := { cfg with blankBetweenRefresh := true } }) State.outOe = some false
      ∧ part (exec .refreshEnd { s0 with outOe := true }) State.outOe = some true := by decide
theorem test_scan_refresh_end :
    part (exec .scanRefresh s0) (fun t => (t.outOe, t.outAddr, t.outRgb, t.phase)) = some (true, 15#4, 0b100000#6, 1#3) := by
  simp only [exec, execScanRefresh, refreshOrFault, scanRefresh_eq]
  decide
theorem test_scan_refresh_reserved : part (exec .scanRefresh { s0 with scanStep := 5#3 }) State.faultCode = some 4#4 := by decide

/-! ## The protocol client (V-TICK, V-SEL, V-ACC, V-LINK) -/

theorem test_tick : part (exec .tick { s0 with cdNotify := 1#16 }) (fun t => (t.cdNotify, t.cdPoll)) = some (0#16, 0#16) := by decide
theorem test_select :
    part (exec .select { s0 with env := { s0.env with buttons := [0x1#4] }, cdNotify := 1#16 }) State.phase = some phaseMap
      ∧ part (exec .select { s0 with env := { s0.env with buttons := [0xF#4] }, cdPoll := 500#16 }) State.phase = some phaseNotify
      ∧ part (exec .select { s0 with env := { s0.env with buttons := [0x0#4] }, cdNotify := 500#16 }) State.phase = some phasePoll
      ∧ part (exec .select { s0 with env := { s0.env with buttons := [0x0#4] }, cdPoll := 1#16 }) State.phase = some phaseMap := by
  decide
theorem test_notify_send :
    part (exec .notifySend { s0 with btnSample := 5#4, env := { s0.env with miso := List.replicate 16 false } })
      (fun t => (firstBytes 2 t.txBuf, t.cdNotify, t.cdPoll, t.outMosi, t.linkByte)) = some ([0x55#8, 0x05#8], 500#16, 0#16, true, 1#4) := by
  decide
theorem test_poll_exchange :
    part (exec .pollExchange { s0 with env := { s0.env with
        miso := unpackBytes [1#8, 2#8, 3#8, 4#8, 0x55#8, 0x10#8, 0x01#8, 0x80#8, 0x00#8, 0x05#8, 0x17#8] } })
      (fun t => (t.heldBits, t.heldPos, t.heldCheck, t.cdPoll)) = some (0x800005#24, 0x17#8, 0x01#8, 500#16) := by decide +kernel
theorem test_poll_exchange_rejects :
    part (exec .pollExchange { s0 with heldBits := 0x123456#24, heldPos := 7#8, env := { s0.env with
        miso := unpackBytes [0x55#8, 0x10#8, 3#8, 4#8, 0x10#8, 0x55#8, 0#8, 0xFF#8, 0xFF#8, 0xFF#8, 0x17#8] } })
      (fun t => (t.heldBits, t.heldPos, t.cdPoll)) = some (0x123456#24, 7#8, 500#16) := by decide +kernel
theorem test_poll_accept :
    part (exec .pollAccept { s0 with rxBuf := #v[9#8, 9#8, 9#8, 9#8, 0x55#8, 0x10#8, 0x0B#8, 0#8, 0#8, 1#8, 4#8] })
      (fun t => (t.heldBits, t.heldPos, t.heldCheck)) = some (0x000001#24, 4#8, 0x0B#8)
      ∧ part (exec .pollAccept { s0 with rxBuf := #v[9#8, 9#8, 9#8, 9#8, 0x55#8, 0x11#8, 0x0B#8, 0#8, 0#8, 1#8, 4#8] })
      (fun t => (t.heldBits, t.heldPos, t.heldCheck)) = some (0#24, 0#8, 0#8) := by decide
theorem test_xfer :
    part (exec (.xfer 2#4) { s0 with txBuf := FrameBuf.fill s0.txBuf 0 [0x55#8, 0x05#8], env := { s0.env with
        miso := unpackBytes [0xAA#8, 0x01#8] } })
      (fun t => (wireFrames (linkTrace t), firstBytes 3 t.rxBuf)) = some ([⟨[0x55#8, 0x05#8], [0xAA#8, 0x01#8]⟩], [0xAA#8, 0x01#8, 0#8]) := by
  decide
theorem test_xfer_refuses_3 : stop (exec (.xfer 3#4) s0) = some (.inr .frameLength) := by decide
theorem test_xfer_byte :
    part (exec (.xferByte 10#4) { s0 with env := { s0.env with miso := [true, false, true, false, true, false, true, false] } })
      (fun t => (FrameBuf.byte t.rxBuf 10, t.linkBit)) = some (0xAA#8, 0#3)
      ∧ stop (exec (.xferByte 11#4) s0) = some (.inl .noSuchByte) := by decide
theorem test_one_cycle_before_mosi :
    part (exec (.xferBit 7#3) { s0 with outSck := false, trace := [.link (.sck false)], env := { s0.env with miso := [true] } })
      (fun t => (linkTrace t).take 3) = some [.sck false, .hold ⟨1, false⟩, .mosi false] := by decide
theorem test_xfer_bit :
    part (exec (.xferBit 0#3) { s0 with txBuf := FrameBuf.put s0.txBuf 10 0x01#8, linkByte := 10#4, env := { s0.env with
        miso := [true] } }) (fun t => (t.outMosi, t.outSck, t.ret)) = some (true, false, .bit true)
      ∧ stop (exec (.xferBit 0#3) { s0 with linkByte := 11#4 }) = some (.inl .noSuchByte) := by decide

/-! ## The sequencer, reset and HALT -/

theorem test_init : part (exec .init s0) (fun t => (t.fb, t.initIdx, t.phase)) = some ([], 1023#10, phaseSelect) := by
  simp only [exec, execInit, initFrame_eq, fillIdle_eq (m := s0.fb) (by decide)]
  decide
theorem test_reset :
    part (exec .reset { s0 with cdPoll := 9#16, phase := phaseHalt, fault := true, outCsN := false, linkBit := 0#3 })
      (fun t => (t.cdPoll, t.phase, t.fault, t.outCsN, t.linkBit)) = some (0#16, phaseInit, false, true, 7#3) := by decide
theorem test_halt :
    part (exec .halt { s0 with faultCode := 3#4, outOe := true, outCsN := false }) (fun t => (t.fault, t.faultCode, t.outOe, t.outCsN))
      = some (true, 3#4, false, true) := by decide
theorem test_cycle_without_frame :
    part (exec .cycle { s0 with cdPoll := 1#16, env := { s0.env with buttons := [0#4] } })
      (fun t => (t.phase, t.btnSample, Memory.read t.fb (2 * 32 + 1), linkEvents t.trace)) = some (phaseSelect, 0#4, 0x0012#16, []) := by
  simp only [exec, execCycle, refreshOrFault, scanRefresh_eq]
  decide +kernel
theorem test_reset_state : State.reset.phase = phaseInit ∧ State.reset.outCsN = true ∧ State.reset.cdPoll = 0#16 := by decide

/-! ## Witnesses: states and operands that meet the hypotheses of the statements, at the boundaries of their clauses -/

theorem test_witness_DecodeEncodeAgree :
    Instr.wellFormed (.fbSet 31#8 31#8 0xFFFF#16) = true ∧ Instr.wellFormed (.frameNotify 1#4) = true
      ∧ Instr.wellFormed (.xferByte 10#4) = true ∧ Instr.wellFormed (.framePollRsp 0#32 0#8 0#8 0#8 0#8 0#8) = true := by decide

theorem test_witness_DecodedOperationsAreWellFormed :
    decode (word .frame16 0x5500) = .ok (.frameNotify 0#4) ∧ decode (word .frame16 0x5501) = .ok (.frameNotify 1#4) := by decide

theorem test_witness_DecodedWordsEncodeBack :
    decode (word .fbRead 1023) = .ok (.fbRead 31#5 31#5) ∧ (word .fbRead 1023).lane ≠ .sequencer
      ∧ (word .fbRead 1023).lane ≠ .refresh ∧ (word .fbRead 1023).lane ≠ .shift ∧ (word .fbRead 1023).lane ≠ .cycle := by decide

theorem test_witness_StepRunsDecodedOperation :
    nextTurn (at_ .sequencer phaseMap 0#3) = .sequencer
      ∧ decode (opWord .sequencer ((at_ .sequencer phaseMap 0#3).phase ++ (at_ .sequencer phaseMap 0#3).scanStep)) = .ok .mapAll
      ∧ (at_ .sequencer phaseMap 0#3).request = none ∧ (at_ .sequencer phaseMap 0#3).phase ≠ phaseHalt := by decide

theorem test_witness_ReservedStateRaisesFault :
    (nextTurn (at_ .sequencer 6#3 0#3) = .sequencer ∧ (at_ .sequencer 6#3 0#3).request = none ∧ (at_ .sequencer 6#3 0#3).phase = 6#3)
      ∧ (nextTurn (at_ .sequencer 5#3 5#3) = .sequencer ∧ (at_ .sequencer 5#3 5#3).phase = 5#3
        ∧ 5 ≤ (at_ .sequencer 5#3 5#3).scanStep.toNat)
      ∧ part (step (at_ .sequencer 6#3 0#3)) State.faultCode = some 4#4
      ∧ part (step (at_ .sequencer 5#3 7#3)) State.faultCode = some 4#4
      ∧ part (step (at_ .sequencer 5#3 4#3)) State.faultCode = some 0#4 := by decide

theorem test_witness_TickDecrementsBothCounters :
    nextTurn (at_ .tick 0#3 0#3) = .tick ∧ part (step (at_ .tick 0#3 0#3)) State.cdPoll = some 0#16 := by decide

theorem test_witness_ReloadWinsOverTick :
    (nextTurn (at_ .sequencerWithTick phaseNotify 0#3) = .sequencerWithTick
        ∧ (at_ .sequencerWithTick phaseNotify 0#3).request = none ∧ (at_ .sequencerWithTick phaseNotify 0#3).phase = phaseNotify)
      ∧ (nextTurn (at_ .sequencerWithTick phasePoll 0#3) = .sequencerWithTick
        ∧ (at_ .sequencerWithTick phasePoll 0#3).request = none ∧ (at_ .sequencerWithTick phasePoll 0#3).phase = phasePoll) := by decide

theorem test_witness_SelectReadsBeforeTheTick :
    nextTurn (at_ .sequencerWithTick phaseSelect 0#3) = .sequencerWithTick
      ∧ (at_ .sequencerWithTick phaseSelect 0#3).request = none
      ∧ (at_ .sequencerWithTick phaseSelect 0#3).phase = phaseSelect := by decide

theorem test_reload_wins :
    part (step { at_ .sequencerWithTick phasePoll 0#3 with cdNotify := 7#16 }) (fun t => (t.cdNotify, t.cdPoll)) = some (6#16, 500#16)
      ∧ part (step { at_ .sequencerWithTick phaseNotify 0#3 with cdPoll := 7#16 }) (fun t => (t.cdNotify, t.cdPoll)) = some (500#16, 6#16) := by
  decide +kernel

theorem test_witness_ResetTurnReinitialises :
    nextTurn (at_ (.reset 0) phaseScan 0#3) = .reset 0 ∧ nextTurn (at_ (.reset 2) phaseScan 0#3) = .reset 2
      ∧ part (step (at_ (.reset 2) phaseScan 0#3)) (fun t => (t.phase, t.trace.length)) = some (phaseInit, 9) := by decide

theorem test_witness_HaltLeftOnlyByReset :
    nextTurn { at_ .sequencer phaseHalt 0#3 with fault := true } = .sequencer
      ∧ nextTurn { at_ .tick phaseHalt 0#3 with fault := true } = .tick
      ∧ nextTurn { at_ .sequencerWithTick phaseHalt 0#3 with fault := true } = .sequencerWithTick
      ∧ nextTurn { at_ (.reset 0) phaseHalt 0#3 with fault := true } = .reset 0
      ∧ ({ at_ .sequencer phaseHalt 0#3 with fault := true } : State).phase = phaseHalt := by decide

theorem test_witness_EncodeResultGivesOneColourCell :
    exec (.encodeResult 15#8 .top .blue) s0 = exec (.encodeIdle 15#8) s0
      ∧ exec (.encodeResult 16#8 .bottom .blue) s0 = exec (.encodeIdle 16#8) s0 ∧ (31#8).toNat ≤ 31 := ⟨rfl, rfl, by decide⟩

theorem test_witness_CodecSeparatesAddressAndColour :
    (0#8).toNat ≤ 31 ∧ (31#8).toNat ≤ 31 ∧ part (exec (.encodeResult 31#8 .top .red) s0) State.ret = some (.cell 0x001F#16) := by decide

/-- A canonical buffer that lists something, and the block with it. -/
def painted : State := { s0 with fb := [(0, 0x0010#16), (1023, 0x008F#16)] }

theorem test_witness_FbReadReturnsLastWrite : Memory.wf painted.fb = true := by decide
theorem test_witness_ResetToIdleFillsTheFrame : Memory.wf painted.fb = true ∧ Memory.wf s0.fb = true := by decide
theorem test_witness_InitFillsTheFrameAndSelects : Memory.wf painted.fb = true := by decide
theorem test_witness_MapAllsRenderTheLastResults : Memory.wf painted.fb = true := by decide

theorem test_buffer_not_canonical : Memory.wf [(1, 0x0010#16), (0, 0x0010#16)] = false ∧ Memory.wf [(0, 0x0040#16)] = false := by decide

theorem test_witness_FbSetWritesOneCell :
    Memory.wf painted.fb = true ∧ part (exec (.fbSet 31#8 31#8 0x020F#16) painted) State.fb = some [(0, 0x0010#16)]
      ∧ part (exec (.fbSet 0#8 0#8 0x0010#16) painted) State.fb = some painted.fb
      ∧ part (exec (.fbSet 32#8 0#8 0x0010#16) painted) State.faultCode = some 1#4
      ∧ part (exec (.fbSet 0#8 32#8 0x0010#16) painted) State.faultCode = some 2#4 := by decide

theorem test_witness_FbSetOrderIsImmaterial :
    Memory.wf painted.fb = true
      ∧ (∀ p ∈ [(0#8, 1#8, 0x0010#16), (31#8, 31#8, 0x0080#16)], p.1.toNat ≤ 31 ∧ p.2.1.toNat ≤ 31)
      ∧ ([(0#8, 1#8, 0x0010#16), (31#8, 31#8, 0x0080#16)].map fun p => (p.1, p.2.1)).Nodup
      ∧ [(0#8, 1#8, 0x0010#16), (31#8, 31#8, 0x0080#16)].Perm [(31#8, 31#8, 0x0080#16), (0#8, 1#8, 0x0010#16)] :=
  ⟨by decide, by simp, by decide, List.Perm.swap _ _ _⟩

theorem test_witness_MapApplyPaintsTheRegion :
    Memory.wf painted.fb = true ∧ ¬ 23 < (23#5).toNat ∧ 23 < (24#5).toNat
      ∧ (regionOf painted.cfg.regionTable 23).contains 28 29 = true ∧ (regionOf painted.cfg.regionTable 23).contains 28 30 = false := by
  decide +kernel

theorem test_witness_ReachDecidesThePaint :
    (23#5).toNat ≤ 23 ∧ (22#8).toNat < (23#5).toNat ∧ ¬ (23#8).toNat < (23#5).toNat
      ∧ (regionOf painted.cfg.regionTable 23).contains 25 27 = true := by decide

theorem test_witness_MapAllPaintsEveryRegion :
    Memory.wf painted.fb = true ∧ (regionOf painted.cfg.regionTable 0).contains 2 1 = true ∧ ¬ inRegion painted.cfg.regionTable 0 0 := by
  refine ⟨by decide, by decide, ?_⟩
  rintro ⟨k, hk, h⟩
  revert h
  revert k
  decide

theorem test_witness_RegionTablesMeetTheChecks :
    (regionOf cfg.regionTable 5).contains 12 13 = true ∧ (5 : Nat) < 24 ∧ (regionOf cfg.regionTable 23).contains 28 29 = true := by decide

theorem test_witness_RefreshVisitsEveryCellOnce : s0.scanStep.toNat < 5 := by decide

theorem test_witness_RefreshShiftsOnlyWhileBlanked :
    s0.scanStep.toNat < 5 ∧ oeAfter s0.trace = some false ∧ oeAfter [.panel (.oe true)] = some true
      ∧ oeAfter [.panel (.sclk true), .panel (.oe true)] = none := by decide

/-- A panel that has seen nothing. -/
def darkPanel : Panel :=
  { chain := [], latch := [], lines := ⟨0#4, 0#6⟩, sclk := false, lat := false, oe := false, stable := 0, high := 0, timely := true }

/-- The block at the start of a row. -/
def atRow (row : BitVec 5) : State := { s0 with phase := phaseScan, scanRow := row }

/-- The idle frame is legal. -/
theorem idle_frame_legal : frameLegal [] := fun a _ => idleCell_legal (a / 32)

theorem test_witness_DwellShowsTheRowAlone :
    (frameLegal (atRow 15#5).fb ∧ frameLegal (atRow 16#5).fb ∧ frameLegal (atRow 31#5).fb)
      ∧ (atRow 15#5).cfg.wellFormed = true ∧ (atRow 15#5).request = none ∧ (atRow 15#5).phase = phaseScan
      ∧ (atRow 15#5).scanStep = stepRowBegin ∧ (atRow 16#5).scanStep = stepRowBegin ∧ (atRow 31#5).scanStep = stepRowBegin
      ∧ darkPanel.sclk = false ∧ darkPanel.timely = true ∧ (0 : Nat) < 32 ∧ (fun x => 31 - x) 31 = 31 - 31 :=
  ⟨⟨idle_frame_legal, idle_frame_legal, idle_frame_legal⟩, by decide⟩

theorem test_row_0_shows_blue :
    Panel.pixel (fun x => 31 - x) (darkPanel.watch (cfg.cycles 1000) (rowTrace cfg [] 0)) 0 0 = 0b100#3
      ∧ Panel.pixel (fun x => 31 - x) (darkPanel.watch (cfg.cycles 1000) (rowTrace cfg [] 0)) 16 0 = 0#3
      ∧ Panel.pixel (fun x => 31 - x) (darkPanel.watch (cfg.cycles 1000) (rowTrace cfg [] 16)) 16 31 = 0b100#3
      ∧ Panel.pixel (fun x => 31 - x) (darkPanel.watch (cfg.cycles 1000) (rowTrace cfg [] 16)) 0 31 = 0#3 := by decide +kernel

theorem test_short_pulse_is_untimely :
    (darkPanel.watch 2 [.lines ⟨0#4, 0#6⟩, .hold ⟨2, false⟩, .sclk true, .hold ⟨1, false⟩, .sclk false]).timely = false
      ∧ (darkPanel.watch 2 [.lines ⟨0#4, 0#6⟩, .hold ⟨1, false⟩, .sclk true, .hold ⟨2, false⟩, .sclk false]).timely = false
      ∧ (darkPanel.watch 2 [.lines ⟨0#4, 0#6⟩, .hold ⟨2, false⟩, .sclk true, .hold ⟨2, false⟩, .sclk false]).timely = true := by
  decide

theorem test_witness_RefreshEqualsItsSteps :
    (at_ .sequencer phaseScan 0#3).request = none ∧ (at_ .sequencer phaseScan 0#3).phase = phaseScan
      ∧ (at_ .sequencer phaseScan 0#3).scanStep = stepRowBegin ∧ (at_ .sequencer phaseScan 0#3).scanRow = 0#5 := by decide

theorem test_witness_FrameTraceCarriesItsBytes : 2#4 = s0.cfg.notifyLen.bytes ∧ 11#4 = s0.cfg.pollLen.bytes := by decide

theorem test_witness_XferBitExchangesOneBit : ({ s0 with linkByte := 10#4 } : State).linkByte.toNat ≤ 10 := by decide
theorem test_witness_XferByteStoresTheByteReceived : (10#4).toNat ≤ 10 := by decide
theorem test_witness_FramerStopsOutsideItsBuffers :
    10 < (11#4).toNat ∧ 10 < ({ s0 with linkByte := 11#4 } : State).linkByte.toNat ∧ (3#4 ≠ s0.cfg.notifyLen.bytes ∧ 3#4 ≠ s0.cfg.pollLen.bytes)
      ∧ (10#4 ≠ s0.cfg.notifyLen.bytes ∧ 10#4 ≠ s0.cfg.pollLen.bytes) := by decide
theorem test_witness_XferExchangesOneFrame : 2#4 = s0.cfg.notifyLen.bytes ∧ 11#4 = s0.cfg.pollLen.bytes := by decide
theorem test_cycle_at_a_reserved_step :
    part (exec .cycle { s0 with cdPoll := 1#16, scanStep := 5#3, env := { s0.env with buttons := [0#4] } })
      (fun t => (t.phase, t.faultCode)) = some (phaseHalt, 4#4) := by decide +kernel
theorem test_witness_CycleSendsAtMostOneFrame : s0.scanStep.toNat < 5 := by decide

theorem test_witness_CycleShowsWhatItAccepts :
    s0.scanStep.toNat < 5 ∧ Memory.wf s0.fb = true ∧ ∀ row col, row < 32 → col < 32 →
      ¬ inRegion s0.cfg.regionTable row col → Memory.read s0.fb (row * 32 + col) = idleCell row := by
  refine ⟨by decide, by decide, fun row col _ hc _ => ?_⟩
  show idleCell ((row * 32 + col) / 32) = idleCell row
  rw [show (row * 32 + col) / 32 = row by omega]

/-- A block at the first column of row 1, `ADDR` still that of row 0, as the sequencer leaves it. -/
def atRow1 : State :=
  State.withTurn .sequencer { s0 with phase := phaseScan, scanStep := stepShiftSetup, scanRow := 1#5, outLat := true }

theorem test_witness_RunningBlockNeverStops : Running atRow1 where
  inv :=
    { memory := rfl, notifyRange := by decide, pollRange := by decide, faultHalts := fun h => by cases h
      sensorRange := by decide, byteRange := by decide, lengthLegal := .inl rfl, config := by decide }
  noRequest := rfl
  noFault := rfl
  phaseLegal := by decide
  position := by
    rw [if_pos (by decide)]
    exact .inr (.inl ⟨rfl, rfl, rfl, fun h => by revert h; decide⟩)
  clockLow := rfl
  deselected := rfl
  linkClockLow := rfl
  legal := idle_frame_legal
  blanked := rfl

theorem test_witness_StepKeepsInv : Inv atRow1 ∧ ∃ t, step atRow1 = .next t := ⟨test_witness_RunningBlockNeverStops.inv, _, rfl⟩

theorem test_witness_PhasesFollowTheCycle : Running atRow1 ∧ nextTurn atRow1 = .sequencer ∧ ∃ t, step atRow1 = .next t :=
  ⟨test_witness_RunningBlockNeverStops, by decide, _, rfl⟩

theorem test_witness_AddressChangesWhileBlanked :
    Running atRow1 ∧ ∃ t, step atRow1 = .next t ∧ t.outAddr ≠ atRow1.outAddr :=
  ⟨test_witness_RunningBlockNeverStops, _, rfl, by decide⟩

theorem test_witness_EveryRegisterHasItsWriters :
    exec .rowBegin { s0 with fault := true } = .next (rowBegin { s0 with fault := true })
      ∧ ({ s0 with fault := true } : State).fault = true ∧ exec .tick s0 = .next (tickCounters s0)
      ∧ exec (.rowAddr 32#8) s0 = .next (raiseFault 1#4 s0) ∧ (∀ e : Element, e = .fb → e ∉ writes .rowBegin) :=
  ⟨rfl, rfl, rfl, rfl, fun e h => by subst h; decide⟩

end Sys2Proof.Tests
end

section
/-! What XFER puts on the link, as an observer of the link reads it (44 R740, 00_scope R11). -/

namespace Sys2Proof.Machine

open Sys2Proof.Safety

/-- XFER of a frame length is not turned away (44 R740, log entry 18). -/
theorem exec_xfer_of_frameLength {n : BitVec 4} {s : State} (h : n = s.cfg.notifyLen.bytes ∨ n = s.cfg.pollLen.bytes) :
    exec (.xfer n) s = .next (xfer n.toNat s) := if_pos h

/-- A frame fits `TX_BUF`: it has as many bytes there as its length says. -/
theorem firstBytes_frameLength (l : FrameLength) (b : FrameBuf) : (firstBytes l.bytes.toNat b).length = l.bytes.toNat := by
  obtain ⟨n, hn, hl, -⟩ := frameLength_toNat_eq l
  exact firstBytes_length _ (by omega) b

/-- The trace of the frame XFER exchanges, read by the observer. -/
theorem wireFrames_xfer (l : FrameLength) (s : State) :
    wireFrames (frameTrace s.cfg (firstBytes l.bytes.toNat s.txBuf) (misoBits (8 * l.bytes.toNat) s.env))
      = [{ mosi := firstBytes l.bytes.toNat s.txBuf, miso := misoBytes l.bytes.toNat s.env }] :=
  wireFrames_frameTrace _ _ _ (by rw [misoBits_length, firstBytes_frameLength])

/-- What XFER of a frame length appends: nothing on the panel trace, and one frame on the link trace. -/
theorem xfer_appends_one_frame (l : FrameLength) (s : State) : ∃ tr : List Event,
    (xfer l.bytes.toNat s).trace = tr ++ s.trace ∧ panelEvents tr.reverse = []
      ∧ wireFrames (linkEvents tr.reverse)
        = [{ mosi := firstBytes l.bytes.toNat s.txBuf, miso := misoBytes l.bytes.toNat s.env }] := by
  refine ⟨_, congrArg State.trace (xfer_length_eq l s), ?panel, ?link⟩
  case panel => rw [List.reverse_reverse, panelEvents_map_link]
  case link => rw [List.reverse_reverse, linkEvents_map_link, wireFrames_xfer]

/-- Settles O48: a legal length is one of the two the configuration holds, and XFER of either appends its one frame. -/
theorem frameTraceCarriesItsBytes : Obligations.FrameTraceCarriesItsBytes := by
  intro n s hn
  have hexec := exec_xfer_of_frameLength hn
  obtain ⟨l, rfl⟩ : ∃ l : FrameLength, n = l.bytes := hn.elim (⟨_, ·⟩) (⟨_, ·⟩)
  obtain ⟨tr, htrace, hpanel, hlink⟩ := xfer_appends_one_frame l s
  exact ⟨_, tr, hexec, htrace, hpanel, hlink⟩

end Sys2Proof.Machine
end

section
/-! What an operation changes, as a list of elements of 10 R100: how such frames compose, and the frame of every operation. -/

namespace Sys2Proof.Machine

open Sys2Proof.Safety

/-! ### Frames -/

/-- A statement about every element, as one about each of the 29. -/
theorem forall_element {p : Element → Prop} : (∀ e, p e) ↔
    p .fb ∧ p .heldBits ∧ p .heldPos ∧ p .heldCheck ∧ p .cdNotify ∧ p .cdPoll ∧ p .btnSample ∧ p .txBuf ∧
      p .rxBuf ∧ p .phase ∧ p .initIdx ∧ p .mapS ∧ p .scanRow ∧ p .scanCol ∧ p .scanStep ∧ p .linkLen ∧
      p .linkByte ∧ p .linkBit ∧ p .waitCnt ∧ p .fault ∧ p .faultCode ∧ p .outAddr ∧ p .outRgb ∧ p .outSclk ∧
      p .outLat ∧ p .outOe ∧ p .outCsN ∧ p .outSck ∧ p .outMosi := by
  constructor
  · intro h
    simp only [h, and_self]
  · intro h e
    cases e <;> simp only [h]

/-- From `s` to `t` nothing changes but the elements listed, and the configuration stays (10 R100, R130). -/
structure ChangesOnly (w : List Element) (s t : State) : Prop where
  cfg : t.cfg = s.cfg
  others : ∀ e : Element, e ∉ w → sameElement e s t

theorem sameElement.trans {e : Element} {s t u : State} (h : sameElement e s t) (h' : sameElement e t u) :
    sameElement e s u := by
  cases e <;> exact Eq.trans h' h

/-- One change after another: both lists. -/
theorem ChangesOnly.trans {w w' : List Element} {s t u : State} (h : ChangesOnly w s t) (h' : ChangesOnly w' t u) :
    ChangesOnly (w ++ w') s u where
  cfg := h'.cfg.trans h.cfg
  others e he := by
    rw [List.mem_append, not_or] at he
    exact sameElement.trans (h.others e he.1) (h'.others e he.2)

theorem ChangesOnly.mono {w w' : List Element} {s t : State} (h : ChangesOnly w s t) (hw : w ⊆ w') : ChangesOnly w' s t where
  cfg := h.cfg
  others e he := h.others e fun hm => he (hw hm)

theorem ChangesOnly.refl (w : List Element) (s : State) : ChangesOnly w s s where
  cfg := rfl
  others e _ := by cases e <;> exact rfl

/-! ### The shared operations

Each proof goes through the elements (`forall_element`): one that is listed is no concern, any other is left by the
operation's own equation or field lemmas. -/

theorem setRet_changesOnly (r : Returned) (s : State) : ChangesOnly [] s (setRet r s) where
  cfg := rfl
  others := by simp [forall_element, sameElement]

theorem setFb_changesOnly (m : Memory) (s : State) : ChangesOnly [.fb] s (setFb m s) where
  cfg := rfl
  others := by simp [forall_element, sameElement]

theorem raiseFault_changesOnly (code : BitVec 4) (s : State) : ChangesOnly haltWrites s (raiseFault code s) where
  cfg := rfl
  others := by simp [forall_element, haltWrites, sameElement]

theorem tickCounters_changesOnly (s : State) : ChangesOnly (writes .tick) s (tickCounters s) where
  cfg := rfl
  others := by simp [forall_element, writes, sameElement]

theorem select_changesOnly (s : State) : ChangesOnly (writes .select) s (select s) where
  cfg := by rw [select_eq]
  others := by simp [forall_element, writes, sameElement, select_eq]

theorem initFrame_changesOnly (s : State) : ChangesOnly (writes .init) s (initFrame s) where
  cfg := by rw [initFrame_eq]
  others := by simp [forall_element, writes, sameElement, initFrame_eq]

theorem mapAll_changesOnly (s : State) : ChangesOnly (writes .mapAll) s (mapAll s) where
  cfg := by rw [mapAll_eq]
  others := by simp [forall_element, writes, sameElement, mapAll_eq]

/-! ### The framer and the two exchanges -/

theorem loadFrame_changesOnly (bytes : List Byte) (n : FrameLength) (s : State) :
    ChangesOnly [.txBuf, .linkLen] s (loadFrame bytes n s) where
  cfg := rfl
  others := by simp [forall_element, sameElement]

theorem xfer_changesOnly (l : FrameLength) (s : State) : ChangesOnly frameWrites s (xfer l.bytes.toNat s) where
  cfg := by rw [xfer_length_eq]
  others := by simp [forall_element, frameWrites, sameElement, xfer_length_eq]

theorem xferByte_changesOnly (k : Nat) (s : State) :
    ChangesOnly [.rxBuf, .linkBit, .waitCnt, .outSck, .outMosi] s (xferByte k s) where
  cfg := by rw [xferByte_eq]
  others := by simp [forall_element, sameElement, xferByte_eq]

theorem xferBit_changesOnly (t : Bool) (s : State) : ChangesOnly [.waitCnt, .outSck, .outMosi] s (xferBit t s).2 where
  cfg := by rw [xferBit_eq]
  others := by simp [forall_element, sameElement, xferBit_eq]

theorem pollAccept_changesOnly (s : State) : ChangesOnly heldWrites s (pollAccept s) where
  cfg := rfl
  others := by simp [forall_element, heldWrites, sameElement]

theorem notifySend_changesOnly (s : State) : ChangesOnly (writes .notifySend) s (notifySend s) where
  cfg := by rw [notifySend_eq]
  others := by simp [forall_element, writes, frameWrites, sameElement, notifySend_eq]

theorem pollExchange_changesOnly (s : State) : ChangesOnly (writes .pollExchange) s (pollExchange s) where
  cfg := by rw [pollExchange_eq, pollAccept_cfg]
  others := by simp [forall_element, writes, frameWrites, heldWrites, sameElement, pollExchange_eq]

/-! ### The scan driver -/

theorem rowBegin_changesOnly (s : State) : ChangesOnly (writes .rowBegin) s (rowBegin s) where
  cfg := rfl
  others := by simp [forall_element, writes, sameElement]

theorem shiftSetup_changesOnly (s : State) : ChangesOnly (writes .shiftSetup) s (shiftSetup s) where
  cfg := rfl
  others := by simp [forall_element, writes, sameElement]

theorem shiftHigh_changesOnly (s : State) : ChangesOnly (writes .shiftHigh) s (shiftHigh s) where
  cfg := rfl
  others := by simp [forall_element, writes, sameElement]

theorem shiftCell_changesOnly (s : State) : ChangesOnly (writes .shiftCell) s (shiftCell s) :=
  ((shiftSetup_changesOnly s).trans (shiftHigh_changesOnly (shiftSetup s))).mono (by decide)

theorem rowCommit_changesOnly (s : State) : ChangesOnly (writes .rowCommit) s (rowCommit s) where
  cfg := rfl
  others := by simp [forall_element, writes, sameElement]

theorem refreshEnd_changesOnly (s : State) : ChangesOnly (writes .refreshEnd) s (refreshEnd s) where
  cfg := rfl
  others := by simp [forall_element, writes, sameElement]

theorem rowDwell_changesOnly (s : State) : ChangesOnly (writes .rowDwell) s (rowDwell s) := by
  by_cases h : s.scanRow.toNat < 31
  case pos =>
    exact {
      cfg := by rw [rowDwell_eq s h]
      others := by simp [forall_element, writes, sameElement, rowDwell_eq s h] }
  case neg =>
    exact {
      cfg := by rw [rowDwell_last s h]
      others := by simp [forall_element, writes, sameElement, rowDwell_last s h] }

theorem scanRefresh_changesOnly (s : State) : ChangesOnly refreshWrites s (scanRefresh s) where
  cfg := by rw [scanRefresh_eq]
  others := by simp [forall_element, refreshWrites, sameElement, scanRefresh_eq]

/-- SCAN_REFRESH goes on: it refreshes, or faults before anything else (43 R601). -/
theorem refreshOrFault_next {s t : State} (h : refreshOrFault s = .next t) :
    t = scanRefresh s ∨ t = raiseFault faultReservedState s := by
  unfold refreshOrFault at h
  split at h
  · exact .inr (Host.Outcome.next.inj h).symm
  · exact .inl (Host.Outcome.next.inj h).symm

/-! ### The cycle -/

/-- What a cycle writes before its refresh (45 R801). -/
def cycleWrites : List Element :=
  writes .select ++ (writes .notifySend ++ writes .pollExchange) ++ writes .mapAll

theorem exchange_changesOnly (s : State) :
    ChangesOnly (writes .notifySend ++ writes .pollExchange) s (exchange s) := by
  unfold exchange
  split
  · exact (notifySend_changesOnly s).mono (List.subset_append_left _ _)
  · split
    · exact (pollExchange_changesOnly s).mono (List.subset_append_right _ _)
    · exact .refl _ s

/-- The block where the refresh of a cycle begins. -/
def cycleRendered (s : State) : State := mapAll (exchange (select s))

theorem cycleRendered_changesOnly (s : State) : ChangesOnly cycleWrites s (cycleRendered s) :=
  ((select_changesOnly s).trans (exchange_changesOnly _)).trans (mapAll_changesOnly _)

/-- A cycle goes on: it ends with its refresh, or in the fault of a reserved `SCAN_STEP` (45 R801). -/
theorem exec_cycle_next {s t : State} (h : exec .cycle s = .next t) :
    t = scanRefresh (cycleRendered s) ∨ t = raiseFault faultReservedState (cycleRendered s) :=
  refreshOrFault_next h

theorem exec_cycle_changesOnly {s t : State} (h : exec .cycle s = .next t) : ChangesOnly (writes .cycle) s t := by
  obtain rfl | rfl := exec_cycle_next h
  · exact ((cycleRendered_changesOnly s).trans (scanRefresh_changesOnly _)).mono (by decide)
  · exact ((cycleRendered_changesOnly s).trans (raiseFault_changesOnly _ _)).mono (by decide)

/-! ### Every operation -/

/-- What an operation that goes on does: it enters the fault state (60 R910), or keeps to its list. -/
def FaultsOrChangesOnly (w : List Element) (s t : State) : Prop := (∃ code, t = raiseFault code s) ∨ ChangesOnly w s t

/-- An operation that always goes on, its effect being known. -/
theorem FaultsOrChangesOnly.of_next {w : List Element} {s t u : State} (hu : ChangesOnly w s u)
    (h : (Host.Outcome.next u : Outcome) = .next t) : FaultsOrChangesOnly w s t :=
  .inr (Host.Outcome.next.inj h ▸ hu)

theorem returning_faultsOrChangesOnly {r : Except (BitVec 4) Returned} {s t : State} (h : returning r s = .next t) :
    FaultsOrChangesOnly [] s t := by
  obtain ⟨v, rfl⟩ | hfault := returning_next h
  · exact .inr (setRet_changesOnly v s)
  · exact .inl hfault

theorem refreshOrFault_faultsOrChangesOnly {s t : State} (h : refreshOrFault s = .next t) :
    FaultsOrChangesOnly refreshWrites s t := by
  obtain rfl | hfault := refreshOrFault_next h
  · exact .inr (scanRefresh_changesOnly s)
  · exact .inl ⟨_, hfault⟩

theorem haltStep_faultsOrChangesOnly (s : State) : FaultsOrChangesOnly [] s (haltStep s) := by
  obtain ⟨-, -, hstay⟩ | ⟨-, henter⟩ := haltStep_cases s
  · exact .inr (hstay.symm ▸ .refl [] s)
  · exact .inl ⟨_, henter⟩

theorem fbSet_faultsOrChangesOnly {row col : Nat} {v : Cell} {s t : State} (h : fbSet row col v s = .next t) :
    FaultsOrChangesOnly [.fb] s t := by
  obtain ⟨-, heq⟩ | ⟨-, -, heq⟩ | ⟨-, -, heq⟩ := fbSet_next row col v s <;> rw [heq] at h
  · exact .inl ⟨_, (Host.Outcome.next.inj h).symm⟩
  · exact .inl ⟨_, (Host.Outcome.next.inj h).symm⟩
  · exact .of_next (setFb_changesOnly _ s) h

/-- MAP_APPLY goes on: it paints the region of a sensor in range, or enters HALT (42 R503). -/
theorem execMapApply_next {sensor : BitVec 5} {result : ResultCode} {pos : Byte} {s t : State}
    (h : execMapApply sensor result pos s = .next t) :
    (sensor.toNat < 24 ∧ t = paintSensor sensor result pos s) ∨ t = raiseFault faultSensorRange s := by
  unfold execMapApply at h
  split at h
  · exact .inr (Host.Outcome.next.inj h).symm
  · exact .inl ⟨by omega, (Host.Outcome.next.inj h).symm⟩

theorem execMapApply_faultsOrChangesOnly {sensor : BitVec 5} {result : ResultCode} {pos : Byte} {s t : State}
    (h : execMapApply sensor result pos s = .next t) : FaultsOrChangesOnly [.fb] s t := by
  obtain ⟨-, rfl⟩ | hfault := execMapApply_next h
  · exact .inr (setFb_changesOnly _ s)
  · exact .inl ⟨_, hfault⟩

/-- XFER goes on with the length of a frame only (44 R740, log entry 18). -/
theorem execXfer_next {n : BitVec 4} {s t : State} (h : execXfer n s = .next t) :
    ∃ l : FrameLength, n = l.bytes ∧ t = xfer l.bytes.toNat s := by
  unfold execXfer at h
  split at h
  case isTrue hn =>
    obtain ⟨l, rfl⟩ : ∃ l : FrameLength, n = l.bytes := hn.elim (⟨_, ·⟩) (⟨_, ·⟩)
    exact ⟨l, rfl, (Host.Outcome.next.inj h).symm⟩
  case isFalse => cases h

theorem execXfer_changesOnly {n : BitVec 4} {s t : State} (h : execXfer n s = .next t) : ChangesOnly frameWrites s t := by
  obtain ⟨l, -, rfl⟩ := execXfer_next h
  exact xfer_changesOnly l s

theorem execXferByte_changesOnly {k : BitVec 4} {s t : State} (h : execXferByte k s = .next t) :
    ChangesOnly (writes (.xferByte k)) s t := by
  unfold execXferByte at h
  split at h
  · cases h
  · exact Host.Outcome.next.inj h ▸ xferByte_changesOnly k.toNat s

theorem execXferBit_changesOnly {b : BitVec 3} {s t : State} (h : execXferBit b s = .next t) :
    ChangesOnly (writes (.xferBit b)) s t := by
  unfold execXferBit at h
  split at h
  · cases h
  · have hbit : ChangesOnly [.linkBit] s { s with linkBit := b } := ⟨rfl, by simp [forall_element, sameElement]⟩
    exact Host.Outcome.next.inj h ▸ (hbit.trans (xferBit_changesOnly _ _)).trans (setRet_changesOnly _ _)

theorem resetState_changesOnly (s : State) : ChangesOnly (writes .reset) s (resetState s) where
  cfg := rfl
  others := by simp [forall_element, writes, frameWrites, heldWrites, refreshWrites, haltWrites]

theorem framePollRsp_changesOnly (x : BitVec 32) (c h m l p : Byte) (s : State) :
    ChangesOnly (writes (.framePollRsp x c h m l p)) s
      (pollAccept { s with rxBuf := FrameBuf.fill s.rxBuf 0 (pollResponseBytes s.cfg x c h m l p) }) := by
  have hrx : ChangesOnly [.rxBuf] s { s with rxBuf := FrameBuf.fill s.rxBuf 0 (pollResponseBytes s.cfg x c h m l p) } :=
    ⟨rfl, by simp [forall_element, sameElement]⟩
  exact hrx.trans (pollAccept_changesOnly _)

/-- The frame of every operation (10 R100). -/
theorem exec_faultsOrChangesOnly {i : Instr} {s t : State} (h : exec i s = .next t) :
    FaultsOrChangesOnly (writes i) s t := by
  cases i with
  | cellRedTop => exact .of_next (setRet_changesOnly _ s) h
  | cellGreenTop => exact .of_next (setRet_changesOnly _ s) h
  | cellBlueTop => exact .of_next (setRet_changesOnly _ s) h
  | cellRedBot => exact .of_next (setRet_changesOnly _ s) h
  | cellGreenBot => exact .of_next (setRet_changesOnly _ s) h
  | cellBlueBot => exact .of_next (setRet_changesOnly _ s) h
  | frameNotify => exact .of_next (loadFrame_changesOnly _ _ s) h
  | framePollReq => exact .of_next (loadFrame_changesOnly _ _ s) h
  | framePollRsp => exact .of_next (framePollRsp_changesOnly _ _ _ _ _ _ s) h
  | init => exact .of_next (initFrame_changesOnly s) h
  | select => exact .of_next (select_changesOnly s) h
  | notifySend => exact .of_next (notifySend_changesOnly s) h
  | pollExchange => exact .of_next (pollExchange_changesOnly s) h
  | mapAll => exact .of_next (mapAll_changesOnly s) h
  | scanRefresh => exact refreshOrFault_faultsOrChangesOnly h
  | halt => exact Host.Outcome.next.inj h ▸ haltStep_faultsOrChangesOnly s
  | rowBegin => exact .of_next (rowBegin_changesOnly s) h
  | shiftSetup => exact .of_next (shiftSetup_changesOnly s) h
  | shiftHigh => exact .of_next (shiftHigh_changesOnly s) h
  | rowCommit => exact .of_next (rowCommit_changesOnly s) h
  | rowDwell => exact .of_next (rowDwell_changesOnly s) h
  | shiftCell => exact .of_next (shiftCell_changesOnly s) h
  | refreshEnd => exact .of_next (refreshEnd_changesOnly s) h
  | cycle => exact .inr (exec_cycle_changesOnly h)
  | reset => exact .of_next (resetState_changesOnly s) h
  | tick => exact .of_next (tickCounters_changesOnly s) h
  | xfer => exact .inr (execXfer_changesOnly h)
  | xferByte => exact .inr (execXferByte_changesOnly h)
  | xferBit => exact .inr (execXferBit_changesOnly h)
  | pollAccept => exact .of_next (pollAccept_changesOnly s) h
  | rowAddr => exact returning_faultsOrChangesOnly h
  | encodeIdle => exact returning_faultsOrChangesOnly h
  | encodeResult => exact returning_faultsOrChangesOnly h
  | decodeCell => exact .of_next (setRet_changesOnly _ s) h
  | fbSet => exact fbSet_faultsOrChangesOnly h
  | fbRead => exact .of_next (setRet_changesOnly _ s) h
  | fbResetToIdle => exact .of_next (setFb_changesOnly _ s) h
  | resultOf => exact returning_faultsOrChangesOnly h
  | colorOf => exact .of_next (setRet_changesOnly _ s) h
  | mapApply => exact execMapApply_faultsOrChangesOnly h

/-- An element neither in an operation's list nor among what the fault state writes is left by the operation. -/
theorem exec_sameElement {i : Instr} {s t : State} (h : exec i s = .next t) {e : Element} (hi : e ∉ writes i)
    (hhalt : e ∉ haltWrites) : sameElement e s t := by
  obtain ⟨code, rfl⟩ | hc := exec_faultsOrChangesOnly h
  · exact (raiseFault_changesOnly code s).others e hhalt
  · exact hc.others e hi

theorem exec_cfg {i : Instr} {s t : State} (h : exec i s = .next t) : t.cfg = s.cfg := by
  obtain ⟨code, rfl⟩ | hc := exec_faultsOrChangesOnly h
  · rfl
  · exact hc.cfg

/-! ### The writers of an element

Each lemma reads an element's writers off the operations' lists, operation by operation. -/

theorem writers_of_held {i : Instr} {e : Element} (he : e ∈ heldWrites) (hi : e ∈ writes i) :
    i = .pollAccept ∨ i = .pollExchange ∨ i = .cycle ∨ i = .reset ∨ ∃ x c h m l p, i = .framePollRsp x c h m l p := by
  simp only [heldWrites, List.mem_cons, List.not_mem_nil, or_false] at he
  obtain rfl | rfl | rfl := he <;> cases i <;> simp_all [writes, frameWrites, refreshWrites]

theorem writers_of_fb {i : Instr} (hi : .fb ∈ writes i) :
    i = .init ∨ i = .fbResetToIdle ∨ i = .mapAll ∨ i = .cycle ∨ i = .reset ∨ (∃ r c w, i = .fbSet r c w)
      ∨ ∃ k r p, i = .mapApply k r p := by
  cases i <;> simp_all [writes, frameWrites, heldWrites, refreshWrites]

theorem writers_of_counters {i : Instr} {e : Element} (he : e ∈ writes .tick) (hi : e ∈ writes i) :
    i = .tick ∨ i = .notifySend ∨ i = .pollExchange ∨ i = .cycle ∨ i = .reset := by
  have hcase : e = .cdNotify ∨ e = .cdPoll := by simpa [writes] using he
  obtain rfl | rfl := hcase <;> cases i <;> simp_all [writes, frameWrites, heldWrites, refreshWrites]

theorem writers_of_fault {i : Instr} (hi : .fault ∈ writes i) : i = .cycle ∨ i = .reset := by
  cases i <;> simp_all [writes, frameWrites, heldWrites, refreshWrites]

/-- A recorded fault stays recorded through every operation but reset (10 R126). -/
theorem exec_keeps_fault {i : Instr} {s t : State} (h : exec i s = .next t) (hi : i ≠ .reset) (hs : s.fault = true) :
    t.fault = true := by
  by_cases hcycle : i = .cycle
  case pos =>
    subst hcycle
    have hc : (cycleRendered s).fault = s.fault := (cycleRendered_changesOnly s).others .fault (by decide)
    obtain rfl | rfl := exec_cycle_next h
    · exact ((scanRefresh_changesOnly _).others .fault (by decide)).trans (hc.trans hs)
    · rfl
  case neg =>
    obtain ⟨code, rfl⟩ | hc := exec_faultsOrChangesOnly h
    · rfl
    · exact (hc.others .fault fun hw => (writers_of_fault hw).elim hcycle hi).trans hs

/-- Settles O60: the frame of every operation, and each writer rule read off the operations' lists. -/
theorem everyRegisterHasItsWriters : Obligations.EveryRegisterHasItsWriters := by
  intro i s t h
  refine ⟨?frame, exec_cfg h, ?held, ?frameBuffer, ?counters, exec_keeps_fault h⟩
  case frame => exact (exec_faultsOrChangesOnly h).imp_right ChangesOnly.others
  case held =>
    intro hAccept hExchange hCycle hReset hRsp
    have hleft : ∀ e ∈ heldWrites, e ∉ haltWrites → sameElement e s t := fun e he =>
      exec_sameElement h fun hi => by simpa [*] using writers_of_held he hi
    exact ⟨hleft .heldBits (by decide) (by decide), hleft .heldPos (by decide) (by decide),
      hleft .heldCheck (by decide) (by decide)⟩
  case frameBuffer =>
    intro hInit hFill hMapAll hCycle hReset hSet hApply
    exact exec_sameElement h (e := .fb) (fun hi => by simpa [*] using writers_of_fb hi) (by decide)
  case counters =>
    intro hTick hNotify hExchange hCycle hReset
    have hleft : ∀ e ∈ writes .tick, e ∉ haltWrites → sameElement e s t := fun e he =>
      exec_sameElement h fun hi => by simpa [*] using writers_of_counters he hi
    exact ⟨hleft .cdNotify (by decide) (by decide), hleft .cdPoll (by decide) (by decide)⟩

end Sys2Proof.Machine
end

section
/-! What one step can be, once: a reset, a tick, or a turn of the sequencer with or without one (45 R806, 60 R921). -/

namespace Sys2Proof.Machine

open Sys2Proof.Safety

/-- The sequencer's turn runs the operation it fetches. -/
theorem sequencerTurn_of_fetch {s : State} {i : Instr} (h : fetch s = .ok i) : sequencerTurn s = exec i (takeRequest s) := by
  simp only [sequencerTurn, h]

/-- A turn that goes on runs the operation fetched, or raises `RESERVED_STATE` (30 R320). -/
theorem sequencerTurn_next {s t : State} (h : sequencerTurn s = .next t) :
    (∃ i, fetch s = .ok i ∧ exec i (takeRequest s) = .next t) ∨ t = raiseFault faultReservedState (takeRequest s) := by
  cases hf : fetch s with
  | ok i => exact .inl ⟨i, rfl, sequencerTurn_of_fetch hf ▸ h⟩
  | error e =>
    simp only [sequencerTurn, hf] at h
    exact .inr (turnedAway_next h)

/-- With a tick in the same cycle, a turn is followed by the tick or comes after it (log entry 6). -/
theorem sequencerTurnWithTick_next {s t : State} (h : sequencerTurnWithTick s = .next t) :
    (∃ u, sequencerTurn s = .next u ∧ t = tickCounters u) ∨ sequencerTurn (tickCounters s) = .next t := by
  unfold sequencerTurnWithTick at h
  split at h
  case isTrue =>
    cases hu : sequencerTurn s with
    | next u =>
      rw [hu] at h
      exact .inl ⟨u, rfl, (Host.Outcome.next.inj h).symm⟩
    | fault | refused =>
      rw [hu] at h
      cases h
  case isFalse => exact .inr h

/-- Every way a step goes on. -/
theorem step_next {s t : State} (h : step s = .next t) :
    (∃ cut, nextTurn s = .reset cut ∧ t = resetState (abandon cut (takeTurn s) (sequencerTurn (takeTurn s))))
      ∨ (nextTurn s = .tick ∧ t = tickCounters (takeTurn s))
      ∨ (nextTurn s = .sequencer ∧ sequencerTurn (takeTurn s) = .next t)
      ∨ (nextTurn s = .sequencerWithTick ∧ ((∃ u, sequencerTurn (takeTurn s) = .next u ∧ t = tickCounters u)
        ∨ sequencerTurn (tickCounters (takeTurn s)) = .next t)) := by
  unfold step at h
  cases hturn : nextTurn s <;> simp only [hturn] at h
  case reset cut => exact .inl ⟨cut, rfl, (Host.Outcome.next.inj h).symm⟩
  case tick => exact .inr (.inl ⟨rfl, (Host.Outcome.next.inj h).symm⟩)
  case sequencer => exact .inr (.inr (.inl ⟨rfl, h⟩))
  case sequencerWithTick => exact .inr (.inr (.inr ⟨rfl, sequencerTurnWithTick_next h⟩))

end Sys2Proof.Machine
end

section
/-! The invariant is kept: by the fault state, by each operation of a block in which no fault is recorded, and by every step. -/

namespace Sys2Proof.Safety

open Sys2Proof.Machine

/-! ### The invariant and single updates -/

theorem Inv.after_raiseFault {s : State} (h : Inv s) (code : BitVec 4) : Inv (raiseFault code s) :=
  { h with faultHalts := fun _ => rfl }

theorem Inv.after_takeTurn {s : State} (h : Inv s) : Inv (takeTurn s) := { h with }

theorem Inv.after_takeRequest {s : State} (h : Inv s) : Inv (takeRequest s) := { h with }

theorem Inv.after_setFb {s : State} (h : Inv s) {m : Memory} (hm : Memory.wf m = true) : Inv (setFb m s) :=
  { h with memory := hm }

theorem Inv.after_loadFrame {s : State} (h : Inv s) {n : FrameLength} (hn : n = s.cfg.notifyLen ∨ n = s.cfg.pollLen)
    {bytes : List Byte} : Inv (loadFrame bytes n s) :=
  { h with lengthLegal := .inr (hn.imp (congrArg FrameLength.bytes) (congrArg FrameLength.bytes)) }

theorem Inv.after_tickCounters {s : State} (h : Inv s) : Inv (tickCounters s) where
  __ := h
  notifyRange := by
    have := h.notifyRange
    simp only [tickCounters_cdNotify, tickCounters_cfg, countDown_toNat]
    omega
  pollRange := by
    have := h.pollRange
    simp only [tickCounters_cdPoll, tickCounters_cfg, countDown_toNat]
    omega

/-- The registers of reset meet the invariant under any configuration that meets its minima (70 R1001). -/
theorem inv_resetState {s : State} (h : s.cfg.wellFormed = true) : Inv (resetState s) where
  memory := rfl
  notifyRange := by simp_all [Config.wellFormed, resetState, State.resetWith]
  pollRange := by simp_all [Config.wellFormed, resetState, State.resetWith]
  faultHalts hf := by cases hf
  sensorRange := by simp [resetState, State.resetWith]
  byteRange := by simp [resetState, State.resetWith]
  lengthLegal := .inl rfl
  config := h

theorem abandon_cfg (cut : Nat) (s : State) (o : Outcome) : (abandon cut s o).cfg = s.cfg := by
  rw [abandon_eq]

/-- HALT keeps the invariant, whether a fault is recorded or not (60 R910, R911). -/
theorem Inv.after_haltStep {s : State} (h : Inv s) : Inv (haltStep s) := by
  obtain ⟨-, -, hstay⟩ | ⟨-, henter⟩ := haltStep_cases s
  · rwa [hstay]
  · exact henter ▸ h.after_raiseFault _

/-! ### Operations where no fault is recorded

With no fault recorded `PHASE` is free, so an operation has only the registers with a range to answer for. -/

/-- The invariant holds and no fault is recorded. -/
structure InvLive (s : State) : Prop extends Inv s where
  noFault : s.fault = false

/-- The elements `InvLive` speaks of, but for `PHASE`. -/
def liveElements : List Element := [.fb, .cdNotify, .cdPoll, .mapS, .linkLen, .linkByte, .fault]

/-- An operation that writes none of them keeps the invariant. -/
theorem InvLive.of_changesOnly {s t : State} (h : InvLive s) {w : List Element} (hc : ChangesOnly w s t)
    (hw : ∀ e ∈ liveElements, e ∉ w) : InvLive t := by
  have same : ∀ e ∈ liveElements, sameElement e s t := fun e he => hc.others e (hw e he)
  have hfb : t.fb = s.fb := same .fb (by decide)
  have hNotify : t.cdNotify = s.cdNotify := same .cdNotify (by decide)
  have hPoll : t.cdPoll = s.cdPoll := same .cdPoll (by decide)
  have hMapS : t.mapS = s.mapS := same .mapS (by decide)
  have hLen : t.linkLen = s.linkLen := same .linkLen (by decide)
  have hByte : t.linkByte = s.linkByte := same .linkByte (by decide)
  have hFault : t.fault = false := (same .fault (by decide)).trans h.noFault
  exact {
    memory := hfb ▸ h.memory
    notifyRange := hNotify ▸ hc.cfg ▸ h.notifyRange
    pollRange := hPoll ▸ hc.cfg ▸ h.pollRange
    faultHalts := by simp [hFault]
    sensorRange := hMapS ▸ h.sensorRange
    byteRange := hByte ▸ h.byteRange
    lengthLegal := hLen ▸ hc.cfg ▸ h.lengthLegal
    config := hc.cfg ▸ h.config
    noFault := hFault }

/-- The last byte index of a frame is one of the buffers' (20 R200). -/
theorem frameLength_last_le (l : FrameLength) : (l.bytes - 1#4).toNat ≤ 10 := by
  obtain ⟨n, hn, -, hlast⟩ := frameLength_toNat_eq l
  rw [hlast, BitVec.toNat_ofNat]
  omega

theorem InvLive.after_notifySend {s : State} (h : InvLive s) : InvLive (notifySend s) := by
  rw [notifySend_eq]
  exact {
    toInv := { h.toInv with
      notifyRange := Nat.le_max_left _ _
      faultHalts := by simp [h.noFault]
      byteRange := frameLength_last_le _
      lengthLegal := .inr (.inl rfl) }
    noFault := h.noFault }

theorem InvLive.after_pollExchange {s : State} (h : InvLive s) : InvLive (pollExchange s) := by
  rw [pollExchange_eq]
  exact {
    toInv := { h.toInv with
      pollRange := Nat.le_max_right _ _
      faultHalts := by simp [h.noFault]
      byteRange := frameLength_last_le _
      lengthLegal := .inr (.inr rfl) }
    noFault := h.noFault }

theorem InvLive.after_exchange {s : State} (h : InvLive s) : InvLive (exchange s) := by
  unfold exchange
  split
  · exact h.after_notifySend
  · split
    · exact h.after_pollExchange
    · exact h

theorem InvLive.after_mapAll {s : State} (h : InvLive s) : InvLive (mapAll s) := by
  have hm := paintSensors_wf s.cfg.regionTable s.heldBits s.heldPos (List.range 24)
    (fun _ hk => List.mem_range.mp hk) h.memory
  rw [mapAll_eq]
  generalize paintSensors _ _ _ _ _ = m at hm
  exact {
    toInv := { h.toInv with
      memory := hm
      faultHalts := by simp [h.noFault]
      sensorRange := Nat.le_refl 23 }
    noFault := h.noFault }

theorem InvLive.after_initFrame {s : State} (h : InvLive s) : InvLive (initFrame s) := by
  have hm := fillIdle_wf h.memory
  rw [initFrame_eq]
  generalize fillIdle s.fb = m at hm
  exact {
    toInv := { h.toInv with
      memory := hm
      faultHalts := by simp [h.noFault] }
    noFault := h.noFault }

theorem InvLive.after_xfer {s : State} (h : InvLive s) (l : FrameLength) : InvLive (xfer l.bytes.toNat s) := by
  rw [xfer_length_eq]
  exact {
    toInv := { h.toInv with byteRange := frameLength_last_le l }
    noFault := h.noFault }

theorem InvLive.after_cycleRendered {s : State} (h : InvLive s) : InvLive (cycleRendered s) :=
  (h.of_changesOnly (select_changesOnly s) (by decide)).after_exchange.after_mapAll

theorem InvLive.after_paintSensor {s : State} (h : InvLive s) {sensor : BitVec 5} (hs : sensor.toNat < 24) (result : ResultCode)
    (pos : Byte) : Inv (paintSensor sensor result pos s) :=
  h.after_setFb (paintRegion_wf (regionOf_checks _ _ hs).1 _ h.memory)

theorem InvLive.after_fbSet {s t : State} (h : InvLive s) {row col : Nat} {v : Cell} (ht : fbSet row col v s = .next t) :
    Inv t := by
  obtain ⟨-, heq⟩ | ⟨-, -, heq⟩ | ⟨hr, hc, heq⟩ := fbSet_next row col v s <;>
    obtain rfl := Host.Outcome.next.inj (heq.symm.trans ht)
  · exact h.after_raiseFault _
  · exact h.after_raiseFault _
  · exact h.after_setFb (Memory.write_wf h.memory (cellIndex_lt (by omega) (by omega)) v)

theorem InvLive.after_cycle {s t : State} (h : InvLive s) (ht : exec .cycle s = .next t) : Inv t := by
  obtain rfl | rfl := exec_cycle_next ht
  · exact (h.after_cycleRendered.of_changesOnly (scanRefresh_changesOnly _) (by decide)).toInv
  · exact h.after_cycleRendered.after_raiseFault _

/-- An operation whose list has no register with a range keeps the invariant, and so does the fault it may raise. -/
theorem InvLive.after_exec_of_writes {s t : State} (h : InvLive s) {i : Instr} (hi : ∀ e ∈ liveElements, e ∉ writes i)
    (ht : exec i s = .next t) : Inv t := by
  obtain ⟨code, rfl⟩ | hc := exec_faultsOrChangesOnly ht
  · exact h.after_raiseFault code
  · exact (h.of_changesOnly hc hi).toInv

/-- Every operation keeps the invariant where no fault is recorded: the writers of a register with a range one by one, the
others by their lists. -/
theorem InvLive.after_exec {s t : State} (h : InvLive s) {i : Instr} (ht : exec i s = .next t) : Inv t := by
  have of_next : ∀ {u : State}, Inv u → (Host.Outcome.next u : Outcome) = .next t → Inv t :=
    fun hu he => Host.Outcome.next.inj he ▸ hu
  cases i
  case frameNotify => exact of_next (h.after_loadFrame (.inl rfl)) ht
  case framePollReq => exact of_next (h.after_loadFrame (.inr rfl)) ht
  case init => exact of_next h.after_initFrame.toInv ht
  case notifySend => exact of_next h.after_notifySend.toInv ht
  case pollExchange => exact of_next h.after_pollExchange.toInv ht
  case mapAll => exact of_next h.after_mapAll.toInv ht
  case cycle => exact h.after_cycle ht
  case reset => exact of_next (inv_resetState h.config) ht
  case tick => exact of_next h.after_tickCounters ht
  case xfer =>
    obtain ⟨l, -, rfl⟩ := execXfer_next ht
    exact (h.after_xfer l).toInv
  case fbSet => exact h.after_fbSet ht
  case fbResetToIdle => exact of_next (h.after_setFb (fillIdle_wf h.memory)) ht
  case mapApply =>
    obtain ⟨hs, rfl⟩ | rfl := execMapApply_next ht
    · exact h.after_paintSensor hs _ _
    · exact h.after_raiseFault _
  all_goals exact h.after_exec_of_writes (by simp [liveElements, writes, heldWrites, refreshWrites]) ht

/-! ### Turns and steps -/

/-- A turn of the sequencer keeps the invariant: in HALT it runs HALT alone, elsewhere no fault is recorded. -/
theorem Inv.after_sequencerTurn {s t : State} (h : Inv s) (ht : sequencerTurn s = .next t) : Inv t := by
  by_cases hp : s.phase = phaseHalt
  case pos =>
    rw [sequencerTurn_of_fetch (fetch_halt hp)] at ht
    exact Host.Outcome.next.inj ht ▸ h.after_takeRequest.after_haltStep
  case neg =>
    have hf : s.fault = false := by simpa using mt h.faultHalts hp
    have hlive : InvLive (takeRequest s) := { h.after_takeRequest with noFault := hf }
    obtain ⟨i, -, hexec⟩ | rfl := sequencerTurn_next ht
    · exact hlive.after_exec hexec
    · exact hlive.after_raiseFault _

/-- Settles O55: each way a step can go keeps the invariant. -/
theorem stepKeepsInv : Obligations.StepKeepsInv := by
  intro s t h ht
  obtain ⟨cut, -, rfl⟩ | ⟨-, rfl⟩ | ⟨-, hturn⟩ | ⟨-, ⟨u, hturn, rfl⟩ | hturn⟩ := step_next ht
  · exact inv_resetState ((abandon_cfg _ _ _).symm ▸ h.config)
  · exact h.after_takeTurn.after_tickCounters
  · exact h.after_takeTurn.after_sequencerTurn hturn
  · exact (h.after_takeTurn.after_sequencerTurn hturn).after_tickCounters
  · exact h.after_takeTurn.after_tickCounters.after_sequencerTurn hturn

end Sys2Proof.Safety
end

section
/-! The order of the phases, as the sequencer's turns move `PHASE` (10 R120, 45 R800). -/

namespace Sys2Proof.Machine

open Sys2Proof.Safety

/-- Where a turn may move `PHASE`, from a phase at a scan step and a row: `PHASE` after it is `p'`. -/
def FollowsTheCycle (p step : BitVec 3) (row : BitVec 5) (p' : BitVec 3) : Prop :=
  (p = phaseInit → p' = phaseSelect)
    ∧ (p = phaseSelect → p' = phaseNotify ∨ p' = phasePoll ∨ p' = phaseMap)
    ∧ (p = phaseNotify → p' = phaseMap)
    ∧ (p = phasePoll → p' = phaseMap)
    ∧ (p = phaseMap → p' = phaseScan)
    ∧ (p = phaseScan → if step = stepRowDwell ∧ row = 31#5 then p' = phaseSelect else p' = phaseScan)

/-- A turn of a block from which nothing is requested runs what phase and step select. -/
theorem exec_of_sequencerTurn {s t : State} {i : Instr} (hreq : s.request = none)
    (hi : decodeSequencer s.phase s.scanStep = .ok i) (h : sequencerTurn s = .next t) : exec i (takeRequest s) = .next t := by
  rwa [sequencerTurn_of_fetch ((fetch_sequencer hreq).trans hi)] at h

theorem select_phase (s : State) :
    (select s).phase = phaseNotify ∨ (select s).phase = phasePoll ∨ (select s).phase = phaseMap := by
  rw [select_eq]
  by_cases hb : nextButtons s = 0#4 <;> by_cases hp : s.cdPoll = 0#16 <;> by_cases hn : s.cdNotify = 0#16 <;>
    simp [hb, hp, hn]

/-- The dwell ends the scan at the last row, and no other (43 R605, R606). -/
theorem rowDwell_phase (s : State) : (rowDwell s).phase = if s.scanRow = 31#5 then phaseSelect else s.phase := by
  by_cases hrow : s.scanRow.toNat < 31
  · have hne : s.scanRow ≠ 31#5 := fun he => by simp [he] at hrow
    rw [rowDwell_eq s hrow, if_neg hne]
  · have heq : s.scanRow = 31#5 := by bv_omega
    rw [rowDwell_last s hrow, if_pos heq]

/-- A position of the scan has one of the five steps. -/
theorem scanPosition_step {s : State} (h : scanPosition s) :
    s.scanStep = stepRowBegin ∨ s.scanStep = stepShiftSetup ∨ s.scanStep = stepShiftHigh ∨ s.scanStep = stepRowCommit
      ∨ s.scanStep = stepRowDwell :=
  h.imp And.left (.imp And.left (.imp And.left (.imp And.left And.left)))

/-- A turn in the scan phase leaves it with the dwell of the last row, and not before (45 R800). -/
theorem sequencerTurn_scan {s t : State} (hreq : s.request = none) (hp : s.phase = phaseScan) (hpos : scanPosition s)
    (h : sequencerTurn s = .next t) :
    t.phase = if s.scanStep = stepRowDwell ∧ s.scanRow = 31#5 then phaseSelect else phaseScan := by
  have runs {i : Instr} (hi : decodeSequencer phaseScan s.scanStep = .ok i) : exec i (takeRequest s) = .next t :=
    exec_of_sequencerTurn hreq (hp ▸ hi) h
  obtain hs | hs | hs | hs | hs := scanPosition_step hpos <;> rw [hs] at runs ⊢
  · obtain rfl := Host.Outcome.next.inj (runs (i := .rowBegin) rfl)
    simp [hp, stepRowBegin, stepRowDwell]
  · obtain rfl := Host.Outcome.next.inj (runs (i := .shiftSetup) rfl)
    simp [hp, stepShiftSetup, stepRowDwell]
  · obtain rfl := Host.Outcome.next.inj (runs (i := .shiftHigh) rfl)
    simp [hp, stepShiftHigh, stepRowDwell]
  · obtain rfl := Host.Outcome.next.inj (runs (i := .rowCommit) rfl)
    simp [hp, stepRowCommit, stepRowDwell]
  · obtain rfl := Host.Outcome.next.inj (runs (i := .rowDwell) rfl)
    simp [rowDwell_phase, hp]

/-- A turn from which nothing is requested moves `PHASE` in the cycle's order (10 R120, 45 R800). -/
theorem sequencerTurn_followsTheCycle {s t : State} (hreq : s.request = none) (hpos : s.phase = phaseScan → scanPosition s)
    (h : sequencerTurn s = .next t) : FollowsTheCycle s.phase s.scanStep s.scanRow t.phase := by
  have runs {p : BitVec 3} {i : Instr} (hp : s.phase = p) (hi : decodeSequencer p s.scanStep = .ok i) :
      exec i (takeRequest s) = .next t := exec_of_sequencerTurn hreq (hp ▸ hi) h
  refine ⟨fun hp => ?init, fun hp => ?select, fun hp => ?notify, fun hp => ?poll, fun hp => ?map, fun hp => ?scan⟩
  case init =>
    obtain rfl := Host.Outcome.next.inj (runs (i := .init) hp rfl)
    rw [initFrame_eq]
  case select => exact Host.Outcome.next.inj (runs (i := .select) hp rfl) ▸ select_phase _
  case notify =>
    obtain rfl := Host.Outcome.next.inj (runs (i := .notifySend) hp rfl)
    rw [notifySend_eq]
  case poll =>
    obtain rfl := Host.Outcome.next.inj (runs (i := .pollExchange) hp rfl)
    rw [pollExchange_eq, pollAccept_phase]
  case map =>
    obtain rfl := Host.Outcome.next.inj (runs (i := .mapAll) hp rfl)
    rw [mapAll_eq]
  case scan =>
    rw [sequencerTurn_scan hreq hp (hpos hp) h]
    split <;> rfl

/-- Settles O58: a tick leaves `PHASE`, and each of the sequencer's turns, with a tick or without, is one move of the
cycle. -/
theorem phasesFollowTheCycle : Obligations.PhasesFollowTheCycle := by
  intro s t hrun h
  have hpos : s.phase = phaseScan → scanPosition s := fun hp => by simpa [hp] using hrun.position
  have moves {u v : State} (hu : u = takeTurn s ∨ u = tickCounters (takeTurn s)) (hv : sequencerTurn u = .next v) :
      FollowsTheCycle s.phase s.scanStep s.scanRow v.phase := by
    obtain rfl | rfl := hu
    · exact sequencerTurn_followsTheCycle (s := takeTurn s) hrun.noRequest hpos hv
    · exact sequencerTurn_followsTheCycle (s := tickCounters (takeTurn s)) hrun.noRequest hpos hv
  obtain ⟨cut, hturn, -⟩ | ⟨hturn, rfl⟩ | ⟨hturn, ht⟩ | ⟨hturn, ⟨u, hu, rfl⟩ | ht⟩ := step_next h
  · simp [hturn]
  · simp [hturn]
  · exact ⟨by simp [hturn], fun _ => moves (.inl rfl) ht⟩
  · exact ⟨by simp [hturn], fun _ => moves (v := u) (.inl rfl) hu⟩
  · exact ⟨by simp [hturn], fun _ => moves (.inr rfl) ht⟩

end Sys2Proof.Machine
end

section
/-! The order within one step when a tick falls in SELECT's cycle (20 R221, 44 R720; log entry 6). -/

namespace Sys2Proof.Machine

/-- Where nothing is requested, there is no request to take. -/
theorem takeRequest_of_none {s : State} (h : s.request = none) : takeRequest s = s := by
  unfold takeRequest
  rw [← h]

/-- A turn with a tick, as a step. -/
theorem step_of_sequencerWithTick {s : State} (h : nextTurn s = .sequencerWithTick) :
    step s = sequencerTurnWithTick (takeTurn s) := by
  simp only [step, h]

/-- In the phase SELECT, with nothing requested, the sequencer fetches SELECT, whatever the scan step (30 R330). -/
theorem fetch_select {s : State} (hreq : s.request = none) (hp : s.phase = phaseSelect) : fetch s = .ok .select := by
  rw [fetch_sequencer hreq, hp]
  rfl

/-- SELECT with a tick in its cycle: the tick comes after, as an operation on what SELECT leaves. -/
theorem sequencerTurnWithTick_of_fetch_select {s t : State} (hf : fetch s = .ok .select)
    (ht : exec .select (takeRequest s) = .next t) : sequencerTurnWithTick s = exec .tick t := by
  calc sequencerTurnWithTick s
      = tickAfter (sequencerTurn s) := if_pos hf
    _ = tickAfter (.next t) := by rw [sequencerTurn_of_fetch hf, ht]
    _ = exec .tick t := rfl

/-- Settles O10: the turn fetches SELECT, and that is the one operation a tick waits for. -/
theorem selectReadsBeforeTheTick : Obligations.SelectReadsBeforeTheTick := by
  intro s hturn hreq hp
  have hselect : exec .select (takeTurn s) = .next (select (takeTurn s)) := rfl
  have htaken : takeRequest (takeTurn s) = takeTurn s := takeRequest_of_none hreq
  have hstep : step s = exec .tick (select (takeTurn s)) := by
    rw [step_of_sequencerWithTick hturn]
    exact sequencerTurnWithTick_of_fetch_select (fetch_select hreq hp) (htaken.symm ▸ hselect)
  exact ⟨_, _, hselect, rfl, hstep⟩

end Sys2Proof.Machine
end

section
/-! Where the framer stops: a length that is no frame's, a byte the buffers do not have (20 R200, R211; log entry 29). -/

namespace Sys2Proof.Machine

/-- XFER of a length that is neither frame's is refused. -/
theorem exec_xfer_of_not_frameLength {n : BitVec 4} {s : State} (hnotify : n ≠ s.cfg.notifyLen.bytes)
    (hpoll : n ≠ s.cfg.pollLen.bytes) : exec (.xfer n) s = .refused .frameLength :=
  if_neg (not_or.mpr ⟨hnotify, hpoll⟩)

/-- XFER_BYTE has the index in its word: above 10 it faults, wherever `LINK_BYTE` stands. -/
theorem exec_xferByte_of_noSuchByte {k : BitVec 4} (h : 10 < k.toNat) (s : State) :
    exec (.xferByte k) s = .fault .noSuchByte := if_pos h

/-- XFER_BIT has its byte's index in `LINK_BYTE`: above 10 it faults, whatever the bit. -/
theorem exec_xferBit_of_noSuchByte {s : State} (h : 10 < s.linkByte.toNat) (b : BitVec 3) :
    exec (.xferBit b) s = .fault .noSuchByte := if_pos h

/-- Settles O47: each of the framer's three operations checks its own length or index before anything else. -/
theorem framerStopsOutsideItsBuffers : Obligations.FramerStopsOutsideItsBuffers :=
  ⟨fun _ _ hnotify hpoll => exec_xfer_of_not_frameLength hnotify hpoll, fun _ s hk => exec_xferByte_of_noSuchByte hk s,
    fun b _ hbyte => exec_xferBit_of_noSuchByte hbyte b⟩

end Sys2Proof.Machine
end

section
/-! Encoding and decoding undo each other (30 R300 to R320). A word's fields stand in a row: the encoder appends them and the
decoder extracts them, so one direction reads each field off the row and the other joins the fields of a word again. -/

namespace Sys2Proof

open BitVec

/-! ### A word on its lane -/

/-- A word no wider than its lane is read there. -/
theorem decode_opWord {n : Nat} (lane : Lane) (w : BitVec n) (h : n ≤ lane.width) (h88 : lane.width ≤ 88) :
    decode (opWord lane w) = decodeLane lane (w.setWidth 88) :=
  if_pos (Laws.EncodeFits.opWord_fits lane w h h88)

/-- A word that decodes has no stray bit, and its lane reads its bits. -/
theorem decode_eq_ok_iff {w : OpWord} {i : Instr} :
    decode w = .ok i ↔ w.bits.toNat < 2 ^ w.lane.width ∧ decodeLane w.lane w.bits = .ok i := by
  unfold decode
  split <;> simp [*]

/-- Bits that fit `n` places are a word of `n` bits. -/
theorem opWord_extractLsb' {n : Nat} {w : BitVec 88} (lane : Lane) (h : w.toNat < 2 ^ n) :
    opWord lane (w.extractLsb' 0 n) = ⟨lane, w⟩ := by
  refine congrArg (OpWord.mk lane) (eq_of_toNat_eq ?_)
  rw [toNat_setWidth, extractLsb'_toNat, Nat.shiftRight_zero, Nat.mod_eq_of_lt h, Nat.mod_eq_of_lt w.isLt]

/-- A decoder with one condition. -/
theorem ok_of_ite {c : Prop} [Decidable c] {a i : Instr} {e : DecodeError}
    (h : (if c then .ok a else .error e : Except DecodeError Instr) = .ok i) : c ∧ a = i := by
  split at h
  · exact ⟨‹c›, Except.ok.inj h⟩
  · cases h

/-- A row or column field of 5 bits is in range as an operand of 8 (log entry 16). -/
theorem toNat_setWidth_le (x : BitVec 5) : (x.setWidth 8).toNat ≤ 31 := by
  rw [toNat_setWidth]
  omega

/-- A field of 5 bits is held by an operand of 8. -/
theorem setWidth_setWidth_of_field (x : BitVec 5) : (x.setWidth 8).setWidth 5 = x :=
  (setWidth_setWidth_of_le x (by decide)).trans (setWidth_eq x)

/-- An operand in range is held by a field of 5 bits. -/
theorem setWidth_extractLsb'_of_toNat_le {x : BitVec 8} (h : x.toNat ≤ 31) : (x.extractLsb' 0 5).setWidth 8 = x := by
  apply eq_of_toNat_eq
  rw [toNat_setWidth, extractLsb'_toNat]
  omega

/-! ### The encoding decodes -/

/-- The fields of ENCODE_RESULT, for each half and colour (30 R308). -/
theorem decodeEncodeResult_fields (row : BitVec 5) (h : Half) (c : Color) :
    decodeEncodeResult (row ++ halfBit h ++ colorBits c) = .ok (.encodeResult (row.setWidth 8) h c) := by
  revert row
  cases h <;> cases c <;> decide

/-- The fields of a response: bytes 4 and 5 hold the accepted header, which no request has there (30 R304, R305). -/
theorem decodeFrame88_response (x : BitVec 32) (check hi mid lo pos : Byte) :
    decodeFrame88 (x ++ syncByte ++ cmdReady ++ check ++ hi ++ mid ++ lo ++ pos)
      = .ok (.framePollRsp x check hi mid lo pos) := by
  have hjoin : (x ++ syncByte ++ cmdReady : BitVec 48) = x ++ (syncByte ++ cmdReady) := append_assoc
  have hheader : (x ++ syncByte ++ cmdReady ++ check ++ hi ++ mid ++ lo ++ pos).extractLsb' 40 16
      = (syncByte ++ cmdReady : BitVec 16) := by
    rw [hjoin]
    simp (disch := decide) only [extractLsb'_append_eq_of_le, extractLsb'_append_eq_of_add_le, extractLsb'_eq_self,
      Nat.reduceSub, -Nat.reduceAdd]
  have hne : x ++ syncByte ++ cmdReady ++ check ++ hi ++ mid ++ lo ++ pos ≠ (syncByte ++ cmdReady ++ 0#72 : BitVec 88) :=
    fun h => absurd (hheader.symm.trans (congrArg (extractLsb' 40 16) h)) (by decide)
  rw [decodeFrame88, if_neg hne, if_pos hheader]
  simp (disch := decide) only [extractLsb'_append_eq_of_le, extractLsb'_append_eq_of_add_le, extractLsb'_eq_self,
    Nat.reduceSub, -Nat.reduceAdd]

/-- Settles O1: a row without operands has one word; every other is put on its lane, which reads its fields off the row. The
operands that are wider than their field, or not all admitted, are the ones well-formedness speaks of. -/
theorem decodeEncodeAgree : Obligations.DecodeEncodeAgree := by
  intro i h
  cases i
  case init | select | notifySend | pollExchange | mapAll | scanRefresh | halt | rowBegin | shiftSetup | shiftHigh | rowCommit
      | rowDwell | shiftCell | refreshEnd | cycle | reset | tick | pollAccept | fbResetToIdle | framePollReq => rfl
  all_goals rw [encode, decode_opWord _ _ (by decide) (by decide)]
  case cellRedTop | cellGreenTop | cellBlueTop | cellRedBot | cellGreenBot | cellBlueBot | frameNotify =>
    simp (disch := decide) only [decodeLane, decodeLegalCell, decodeFrame16, extractLsb'_setWidth_of_le,
      extractLsb'_extractLsb'_of_le, extractLsb'_append_eq_left, extractLsb'_append_eq_right, -Nat.reduceAdd]
    rfl
  case framePollRsp => exact decodeFrame88_response ..
  case resultOf | colorOf | mapApply | fbRead | decodeCell | xferBit =>
    simp (disch := decide) only [decodeLane, extractLsb'_setWidth_of_le, extractLsb'_append_eq_of_le,
      extractLsb'_append_eq_of_add_le, extractLsb'_eq_self, Nat.reduceSub, -Nat.reduceAdd]
  case rowAddr r | encodeIdle r =>
    have hr : r.toNat ≤ 31 := of_decide_eq_true h
    simp (disch := decide) only [decodeLane, extractLsb'_setWidth_of_le, setWidth_extractLsb'_of_toNat_le hr]
  case encodeResult r _ _ =>
    have hr : r.toNat ≤ 31 := of_decide_eq_true h
    simp (disch := decide) only [decodeLane, extractLsb'_setWidth_of_le, extractLsb'_eq_self, decodeEncodeResult_fields,
      setWidth_eq_extractLsb', setWidth_extractLsb'_of_toNat_le hr]
  case fbSet r c _ =>
    obtain ⟨hr, hc⟩ : r.toNat ≤ 31 ∧ c.toNat ≤ 31 := by simpa [Instr.wellFormed] using h
    simp (disch := decide) only [decodeLane, extractLsb'_setWidth_of_le, extractLsb'_append_eq_of_le,
      extractLsb'_append_eq_of_add_le, extractLsb'_eq_self, Nat.reduceSub, -Nat.reduceAdd,
      setWidth_extractLsb'_of_toNat_le hr, setWidth_extractLsb'_of_toNat_le hc]
  case xfer n =>
    have hn : n = 2#4 ∨ n = 11#4 := by simpa [Instr.wellFormed] using h
    simp (disch := decide) only [decodeLane, extractLsb'_setWidth_of_le, extractLsb'_eq_self, if_pos hn]
  case xferByte k =>
    have hk : k.toNat ≤ 10 := of_decide_eq_true h
    simp (disch := decide) only [decodeLane, extractLsb'_setWidth_of_le, extractLsb'_eq_self, if_pos hk]

/-! ### A decoded word is the encoding -/

/-- A legal cell's bits 15:4 are the pattern it was recognised by (30 R310). -/
theorem encode_of_decodeLegalCell {w : BitVec 16} {i : Instr} (h : decodeLegalCell w = .ok i) :
    encode i = opWord .cell w := by
  have hw : w.extractLsb' 4 12 ++ w.extractLsb' 0 4 = w := extractLsb'_append_extractLsb'
  have top {n : Nat} (hn : (w.extractLsb' 4 12).toNat = n) : BitVec.ofNat 12 n ++ w.extractLsb' 0 4 = w := by
    rw [← hn, ofNat_toNat, setWidth_eq, hw]
  simp only [decodeLegalCell] at h
  split_ifs at h <;> cases h
  all_goals exact congrArg (opWord .cell) (top ‹_›)

theorem encode_of_decodeFrame16 {w : BitVec 16} {i : Instr} (h : decodeFrame16 w = .ok i) :
    encode i = opWord .frame16 w := by
  obtain ⟨hsync, rfl⟩ := ok_of_ite h
  have hw : w.extractLsb' 4 12 ++ w.extractLsb' 0 4 = w := extractLsb'_append_extractLsb'
  rw [hsync] at hw
  exact congrArg (opWord .frame16) hw

/-- A frame is the request, or a response whose bytes are its fields around the accepted header (30 R304, R305). -/
theorem encode_of_decodeFrame88 {w : BitVec 88} {i : Instr} (h : decodeFrame88 w = .ok i) :
    encode i = opWord .frame88 w := by
  unfold decodeFrame88 at h
  split at h
  case isTrue hreq =>
    cases h
    exact congrArg (opWord .frame88) hreq.symm
  case isFalse =>
    obtain ⟨hheader, rfl⟩ := ok_of_ite h
    have hjoin : (w.extractLsb' 56 32 ++ syncByte ++ cmdReady : BitVec 48) = w.extractLsb' 40 48 := by
      rw [append_assoc, ← hheader]
      exact extractLsb'_append_extractLsb'_eq_extractLsb' rfl
    refine congrArg (opWord .frame88) ?_
    rw [hjoin]
    simp (disch := decide) only [extractLsb'_append_extractLsb'_eq_extractLsb', -Nat.reduceAdd]
    exact extractLsb'_eq_self

/-- The colour of a decoded ENCODE_RESULT has the code in its word: code 3 is none (30 R308). -/
theorem decodeEncodeResult_ok {w : BitVec 8} {i : Instr} (h : decodeEncodeResult w = .ok i) :
    ∃ c : Color, colorBits c = w.extractLsb' 0 2
      ∧ i = .encodeResult ((w.extractLsb' 3 5).setWidth 8) (if w.getLsbD 2 then .bottom else .top) c := by
  simp only [decodeEncodeResult] at h
  split at h <;> cases h
  case h_1 hcode => exact ⟨.red, (eq_of_toNat_eq hcode).symm, rfl⟩
  case h_2 hcode => exact ⟨.green, (eq_of_toNat_eq hcode).symm, rfl⟩
  case h_3 hcode => exact ⟨.blue, (eq_of_toNat_eq hcode).symm, rfl⟩

/-- The half read from a bit has that bit as its code (30 R308). -/
theorem halfBit_ite {n : Nat} (w : BitVec n) (k : Nat) :
    halfBit (if w.getLsbD k then .bottom else .top) = w.extractLsb' k 1 := by
  rw [getLsbD_eq_extractLsb']
  generalize w.extractLsb' k 1 = b
  revert b
  decide

theorem encode_of_decodeEncodeResult {w : BitVec 8} {i : Instr} (h : decodeEncodeResult w = .ok i) :
    encode i = opWord .encodeResult w := by
  obtain ⟨c, hc, rfl⟩ := decodeEncodeResult_ok h
  refine congrArg (opWord .encodeResult) ?_
  rw [halfBit_ite, hc, setWidth_setWidth_of_field]
  simp (disch := decide) only [extractLsb'_append_extractLsb'_eq_extractLsb', -Nat.reduceAdd]
  exact extractLsb'_eq_self

/-- A word of a lane without don't-care bits is the encoding of what it decodes to. -/
theorem encode_of_decodeLane {lane : Lane} {w : BitVec 88} {i : Instr} (hw : w.toNat < 2 ^ lane.width)
    (h : decodeLane lane w = .ok i) (hseq : lane ≠ .sequencer) (href : lane ≠ .refresh) (hshift : lane ≠ .shift)
    (hcyc : lane ≠ .cycle) : encode i = ⟨lane, w⟩ := by
  rw [← opWord_extractLsb' lane hw]
  cases lane
  case sequencer | refresh | shift | cycle => contradiction
  case cell => exact encode_of_decodeLegalCell h
  case frame16 => exact encode_of_decodeFrame16 h
  case frame88 =>
    rw [encode_of_decodeFrame88 h]
    exact congrArg (opWord .frame88) extractLsb'_eq_self.symm
  case refreshEnd | rspHeader =>
    obtain ⟨hbits, rfl⟩ := ok_of_ite h
    exact congrArg (opWord _) hbits.symm
  case portRst | portTick =>
    obtain ⟨hbit, rfl⟩ := ok_of_ite h
    rw [getLsbD_eq_extractLsb', beq_iff_eq] at hbit
    exact congrArg (opWord _) hbit.symm
  case linkLen | linkByte =>
    obtain ⟨-, rfl⟩ := ok_of_ite h
    rfl
  case linkBit | decodeCell =>
    cases h
    rfl
  case fbReset =>
    cases h
    exact congrArg (opWord .fbReset) of_length_zero.symm
  case encodeResult => exact encode_of_decodeEncodeResult h
  case rowAddr | encodeIdle | resultOf | colorOf | fbSet | fbRead | mapApply =>
    cases h
    rw [encode]
    simp (disch := decide) only [setWidth_setWidth_of_field, extractLsb'_append_extractLsb'_eq_extractLsb', -Nat.reduceAdd]
    rfl

/-- Settles O3: the word has no stray bit, so its lane's bits are all of it. -/
theorem decodedWordsEncodeBack : Obligations.DecodedWordsEncodeBack := by
  intro w i h hseq href hshift hcyc
  obtain ⟨hfits, hlane⟩ := decode_eq_ok_iff.mp h
  exact encode_of_decodeLane hfits hlane hseq href hshift hcyc

/-! ### A decoded operation is well formed -/

theorem wellFormed_of_decodeLegalCell {w : BitVec 16} {i : Instr} (h : decodeLegalCell w = .ok i) : i.wellFormed = true := by
  simp only [decodeLegalCell] at h
  split_ifs at h <;> cases h <;> rfl

theorem wellFormed_of_decodeFrame88 {w : BitVec 88} {i : Instr} (h : decodeFrame88 w = .ok i) : i.wellFormed = true := by
  unfold decodeFrame88 at h
  split_ifs at h <;> cases h <;> rfl

theorem wellFormed_of_decodeSequencer {phase step : BitVec 3} {i : Instr} (h : decodeSequencer phase step = .ok i) :
    i.wellFormed = true := by
  unfold decodeSequencer decodeScanStep at h
  split at h
  case h_6 => split at h <;> cases h <;> rfl
  all_goals cases h <;> rfl

/-- What each lane's fields can hold, its operation admits, but for the notify mask 0 (log entry 25). -/
theorem wellFormed_of_decodeLane {lane : Lane} {w : BitVec 88} {i : Instr} (h : decodeLane lane w = .ok i) :
    i.wellFormed = true ∨ i = .frameNotify 0#4 := by
  cases lane
  case frame16 =>
    obtain ⟨-, rfl⟩ := ok_of_ite h
    generalize ((w.extractLsb' 0 16).extractLsb' 0 4) = m
    by_cases hm : m = 0#4
    · exact .inr (congrArg Instr.frameNotify hm)
    · exact .inl (bne_iff_ne.mpr hm)
  all_goals left
  case cell => exact wellFormed_of_decodeLegalCell h
  case frame88 => exact wellFormed_of_decodeFrame88 h
  case sequencer => exact wellFormed_of_decodeSequencer h
  case refresh | shift | refreshEnd | cycle | portRst | portTick | rspHeader =>
    obtain ⟨-, rfl⟩ := ok_of_ite h
    rfl
  case linkLen =>
    obtain ⟨hn, rfl⟩ := ok_of_ite h
    simpa [Instr.wellFormed] using hn
  case linkByte =>
    obtain ⟨hk, rfl⟩ := ok_of_ite h
    exact decide_eq_true hk
  case rowAddr | encodeIdle =>
    cases h
    exact decide_eq_true (toNat_setWidth_le _)
  case encodeResult =>
    obtain ⟨c, -, rfl⟩ := decodeEncodeResult_ok h
    exact decide_eq_true (toNat_setWidth_le _)
  case fbSet =>
    cases h
    simp only [Instr.wellFormed, toNat_setWidth_le, decide_true, Bool.and_self]
  case linkBit | decodeCell | resultOf | colorOf | fbRead | fbReset | mapApply =>
    cases h
    rfl

/-- Settles O2: a word that decodes is read by its lane. -/
theorem decodedOperationsAreWellFormed : Obligations.DecodedOperationsAreWellFormed := fun _ _ h =>
  wellFormed_of_decodeLane (decode_eq_ok_iff.mp h).2

/-- Settles O4: ten closed words, each run through the decoder. -/
theorem specWordsDecode : Obligations.SpecWordsDecode := by
  unfold Obligations.SpecWordsDecode
  decide

end Sys2Proof
end

section
/-! What the sequencer's turn makes of the word it fetches (30 R320, R330, R331). -/

namespace Sys2Proof.Machine

/-- A sequencer's turn is its step. -/
theorem step_sequencer {s : State} (h : nextTurn s = .sequencer) : step s = sequencerTurn (takeTurn s) := by
  simp only [step, h]

/-- A word that is no operation turns the sequencer away. -/
theorem sequencerTurn_of_fetch_error {s : State} {e : DecodeError} (h : fetch s = .error e) :
    sequencerTurn s = turnedAway e (takeRequest s) := by
  simp only [sequencerTurn, h]

/-- Settles O5: the turn is spent first, and the word fetched after it is the one fetched before. -/
theorem stepRunsDecodedOperation : Obligations.StepRunsDecodedOperation := by
  intro s i hturn hword
  rw [← fetchWord_eq] at hword
  exact (step_sequencer hturn).trans (sequencerTurn_of_fetch (s := takeTurn s) hword)

/-- The reserved codes decode to nothing, and each is reported by its own name (30 R320). -/
theorem decodeSequencer_reservedPhase (step : BitVec 3) : decodeSequencer 0b110#3 step = .error .reservedPhase := rfl

theorem decodeSequencer_reservedScanStep {step : BitVec 3} (h : 5 ≤ step.toNat) :
    decodeSequencer 0b101#3 step = .error .reservedScanStep := by
  revert h
  revert step
  decide

/-- Settles O6: either code is reserved, and a reserved code raises `RESERVED_STATE`. -/
theorem reservedStateRaisesFault : Obligations.ReservedStateRaisesFault := by
  intro s hturn hreq hcode
  have hfetch {e : DecodeError} (h : decodeSequencer s.phase s.scanStep = .error e) :
      step s = turnedAway e (takeTurn s) := by
    rw [step_sequencer hturn, sequencerTurn_of_fetch_error (s := takeTurn s) ((fetch_sequencer hreq).trans h),
      takeRequest_of_none (s := takeTurn s) hreq]
  obtain hphase | ⟨hphase, hstep⟩ := hcode
  · exact hfetch (hphase ▸ decodeSequencer_reservedPhase _)
  · exact hfetch (hphase ▸ decodeSequencer_reservedScanStep hstep)

end Sys2Proof.Machine
end

section
/-! The formats: the six legal cells and the wire frames (30 R303 to R310; log entries 13 and 14). -/

namespace Sys2Proof.Machine

/-- What a cell of one colour decodes to: its address and the one line of its half and colour (40 R432). -/
theorem decodeCellOf_cellOf (a : BitVec 4) (h : Half) (c : Color) :
    decodeCellOf (cellOf a h c) = ⟨a, 1#6 <<< (colourBit h c - 4)⟩ :=
  congrArg₂ PanelLines.mk (cellOf_addr a h c) (cellOf_rgb a h c)

/-- A legal cell, as an operation, returns its lines (30 R302, R310). -/
theorem cellLines_eq (a : BitVec 4) (h : Half) (c : Color) (s : State) :
    cellLines a h c s = .next (setRet (.lines ⟨a, 1#6 <<< (colourBit h c - 4)⟩) s) := by
  rw [cellLines, decodeCellOf_cellOf]

/-- Settles O20: each of the six is the legal cell of its half and colour. -/
theorem legalCellsDriveOneColourLine : Obligations.LegalCellsDriveOneColourLine := fun a s =>
  ⟨cellLines_eq a .top .red s, cellLines_eq a .top .green s, cellLines_eq a .top .blue s, cellLines_eq a .bottom .red s,
    cellLines_eq a .bottom .green s, cellLines_eq a .bottom .blue s⟩

theorem exec_frameNotify (mask : BitVec 4) (s : State) : exec (.frameNotify mask) s = .next { s with
    txBuf := (s.txBuf.set 0 s.cfg.sync).set 1 (0#4 ++ mask : BitVec 8), linkLen := s.cfg.notifyLen.bytes } := by
  rw [← fill_notifyBytes]
  rfl

theorem exec_framePollReq (s : State) : exec .framePollReq s = .next { s with
    txBuf := #v[s.cfg.sync, s.cfg.cmdReady, 0#8, 0#8, 0#8, 0#8, 0#8, 0#8, 0#8, 0#8, 0#8]
    linkLen := s.cfg.pollLen.bytes } := by
  rw [← fill_pollRequestBytes _ s.txBuf]
  rfl

/-- Settles O21: a buffer filled with a request frame, byte by byte, and the defaults of 00_scope R13. -/
theorem requestFramesStandInTxBuf : Obligations.RequestFramesStandInTxBuf :=
  ⟨exec_frameNotify, exec_framePollReq, rfl, rfl, rfl, rfl⟩

/-- An accepted response in a buffer, byte by byte. -/
theorem fill_pollResponseBytes (c : Config) (b : FrameBuf) (x : BitVec 32) (check hi mid lo pos : Byte) :
    FrameBuf.fill b 0 (pollResponseBytes c x check hi mid lo pos) =
      #v[x.extractLsb' 24 8, x.extractLsb' 16 8, x.extractLsb' 8 8, x.extractLsb' 0 8, c.sync, c.cmdReady, check, hi, mid, lo,
        pos] := by
  apply Vector.toList_inj.mp
  rw [FrameBuf.fill_toList _ _ _ (by simp [pollResponseBytes])]
  simp [pollResponseBytes]

/-- The response bitfield as an OR of its shifted bytes (30 R306). -/
theorem bitfieldOf_eq_or (hi mid lo : Byte) :
    bitfieldOf hi mid lo = (hi.setWidth 24 <<< 16) ||| (mid.setWidth 24 <<< 8) ||| lo.setWidth 24 := by
  rw [bitfieldOf, ← BitVec.setWidth_eq (hi ++ mid ++ lo)]
  exact BitVec.setWidth_append_append_eq_shiftLeft_setWidth_or

/-- POLL_ACCEPT where `RX_BUF` holds the accepted header (44 R750). -/
theorem pollAccept_of_rspOk {s : State} (h : rspOk s = true) : pollAccept s = { s with
    heldBits := bitfieldOf (FrameBuf.byte s.rxBuf 7) (FrameBuf.byte s.rxBuf 8) (FrameBuf.byte s.rxBuf 9)
    heldPos := FrameBuf.byte s.rxBuf 10
    heldCheck := FrameBuf.byte s.rxBuf 6 } := by
  simp only [pollAccept, h, if_true]

/-- The bytes of a response bring the accepted header with them, wherever they are put. -/
theorem rspOk_of_pollResponse {s : State} {x : BitVec 32} {check hi mid lo pos : Byte}
    (h : s.rxBuf = #v[x.extractLsb' 24 8, x.extractLsb' 16 8, x.extractLsb' 8 8, x.extractLsb' 0 8, s.cfg.sync, s.cfg.cmdReady,
      check, hi, mid, lo, pos]) : rspOk s = true := by
  simp [rspOk, h, FrameBuf.byte]

/-- Settles O22: the response stands in `RX_BUF` with its header, so POLL_ACCEPT latches bytes 6 to 10 of it. -/
theorem responseFrameIsAccepted : Obligations.ResponseFrameIsAccepted := by
  intro x check hi mid lo pos s
  simp only [exec, execFramePollRsp]
  rw [fill_pollResponseBytes, pollAccept_of_rspOk (rspOk_of_pollResponse rfl), ← bitfieldOf_eq_or]
  rfl

end Sys2Proof.Machine
end

section
/-! The refresh is its steps: the loop of 43 R601 against turns of the sequencer (30 R336, 43 R615). -/

namespace Sys2Proof.Machine

open Sys2Proof.Safety

/-! ### Turns in a row -/

/-- Turns after turns. -/
theorem afterTurns_trans {m n : Nat} {s t u : State} (h : afterTurns m s = .next t) (h' : afterTurns n t = .next u) :
    afterTurns (m + n) s = .next u := by
  induction m generalizing s with
  | zero =>
    cases h
    rwa [Nat.zero_add]
  | succ m ih =>
    rw [Nat.add_right_comm]
    unfold afterTurns at h ⊢
    split at h
    case h_1 => exact ih h
    all_goals cases h

/-- One turn, of a block from which nothing is requested. -/
theorem afterTurns_one {s t : State} {i : Instr} (hreq : s.request = none) (hi : decodeSequencer s.phase s.scanStep = .ok i)
    (h : exec i s = .next t) : afterTurns 1 s = .next t := by
  have hturn : sequencerTurn s = .next t := by
    rw [sequencerTurn_of_fetch ((fetch_sequencer hreq).trans hi), takeRequest_of_none hreq, h]
  simp only [afterTurns, hturn]

/-- A loop whose rounds are `m` turns each, as long as a position `P` is kept up: the loop is its turns. -/
theorem afterTurns_foldl {m N : Nat} {f : State → Nat → State} {P : Nat → State → Prop}
    (round : ∀ k s, P k s → afterTurns m s = .next (f s k))
    (keeps : ∀ k s, k + 1 < N → P k s → P (k + 1) (f s k)) {s : State} (h : P 0 s) {n : Nat} (hn : n ≤ N) :
    afterTurns (m * n) s = .next ((List.range n).foldl f s) ∧ (n < N → P n ((List.range n).foldl f s)) := by
  induction n with
  | zero => exact ⟨rfl, fun _ => h⟩
  | succ n ih =>
    obtain ⟨hturns, hpos⟩ := ih (by omega)
    rw [List.range_succ, List.foldl_append, Nat.mul_succ]
    exact ⟨afterTurns_trans hturns (round n _ (hpos (by omega))), fun hlt => keeps n _ hlt (hpos (by omega))⟩

/-! ### The columns of a row -/

/-- The sequencer is about to run a step of the scan, with nothing requested. -/
structure AtScanStep (step : BitVec 3) (s : State) : Prop where
  noRequest : s.request = none
  phase : s.phase = phaseScan
  scanStep : s.scanStep = step

/-- One turn at a scan step. -/
theorem AtScanStep.turn {step : BitVec 3} {s t : State} (h : AtScanStep step s) {i : Instr}
    (hi : decodeScanStep step = .ok i) (hexec : exec i s = .next t) : afterTurns 1 s = .next t :=
  afterTurns_one h.noRequest (by rw [h.phase, h.scanStep]; exact hi) hexec

/-- What a step of the scan keeps, and the step it leaves next. -/
theorem AtScanStep.moved {step step' : BitVec 3} {s t : State} (h : AtScanStep step s) (hreq : t.request = s.request)
    (hphase : t.phase = s.phase) (hstep : t.scanStep = step') : AtScanStep step' t :=
  ⟨hreq.trans h.noRequest, hphase.trans h.phase, hstep⟩

/-- The start of column `k`, SHIFT_SETUP being next. -/
structure AtColumn (k : Nat) (s : State) : Prop extends AtScanStep stepShiftSetup s where
  col : s.scanCol = BitVec.ofNat 5 k

/-- Where the loop sets the column, it stands already. -/
theorem AtColumn.refreshColumn_eq {k : Nat} {s : State} (h : AtColumn k s) : refreshColumn s k = shiftCell s := by
  rw [refreshColumn, ← h.col]

/-- A column of the row is its two turns, SHIFT_SETUP and SHIFT_HIGH. -/
theorem AtColumn.turns {k : Nat} {s : State} (h : AtColumn k s) : afterTurns 2 s = .next (refreshColumn s k) := by
  have hhigh : AtScanStep stepShiftHigh (shiftSetup s) :=
    h.moved (shiftSetup_request s) (shiftSetup_phase s) (shiftSetup_scanStep s)
  rw [h.refreshColumn_eq]
  exact afterTurns_trans (h.turn (i := .shiftSetup) rfl rfl) (hhigh.turn (i := .shiftHigh) rfl rfl)

/-- SHIFT_HIGH itself goes on to the column the loop sets next (43 R603). -/
theorem AtColumn.next {k : Nat} {s : State} (h : AtColumn k s) (hk : k + 1 < 32) : AtColumn (k + 1) (refreshColumn s k) := by
  have hcol : s.scanCol.toNat < 31 := by
    rw [h.col, BitVec.toNat_ofNat]
    omega
  rw [h.refreshColumn_eq, shiftCell_eq, if_pos hcol, if_pos hcol]
  exact ⟨h.moved rfl rfl rfl, by rw [h.col, BitVec.ofNat_add]⟩

/-! ### The rows of a refresh -/

/-- The start of row `r`, ROW_BEGIN being next. -/
structure AtRow (r : Nat) (s : State) : Prop extends AtScanStep stepRowBegin s where
  row : s.scanRow = BitVec.ofNat 5 r

/-- A row of the refresh is its 67 turns: ROW_BEGIN, two turns for each of the 32 columns, ROW_COMMIT, ROW_DWELL. -/
theorem AtRow.turns {r : Nat} {s : State} (h : AtRow r s) : afterTurns 67 s = .next (refreshRow s r) := by
  have hrow : ({ s with scanRow := BitVec.ofNat 5 r } : State) = s := by rw [← h.row]
  have hbegin : AtColumn 0 (rowBegin s) :=
    ⟨h.moved (rowBegin_request s) (rowBegin_phase s) (rowBegin_scanStep s), rowBegin_scanCol s⟩
  have hcolumns : afterTurns 64 (rowBegin s) = .next ((List.range 32).foldl refreshColumn (rowBegin s)) :=
    (afterTurns_foldl (P := AtColumn) (fun _ _ => AtColumn.turns) (fun _ _ hk hc => hc.next hk) hbegin (Nat.le_refl 32)).1
  have hcommit : AtScanStep stepRowCommit ((List.range 32).foldl refreshColumn (rowBegin s)) := by
    rw [refreshColumn_fold 31 (by decide)]
    exact hbegin.moved rfl rfl rfl
  unfold refreshRow
  rw [hrow]
  generalize (List.range 32).foldl refreshColumn (rowBegin s) = t at hcolumns hcommit ⊢
  have hdwell : AtScanStep stepRowDwell (rowCommit t) :=
    hcommit.moved (rowCommit_request t) (rowCommit_phase t) (rowCommit_scanStep t)
  calc afterTurns 67 s = afterTurns (1 + (64 + (1 + 1))) s := rfl
    _ = .next (rowDwell (rowCommit t)) :=
      afterTurns_trans (h.turn (i := .rowBegin) rfl rfl) (afterTurns_trans hcolumns
        (afterTurns_trans (hcommit.turn (i := .rowCommit) rfl rfl) (hdwell.turn (i := .rowDwell) rfl rfl)))

/-- ROW_DWELL itself goes on to the row the loop sets next (43 R605). -/
theorem AtRow.next {r : Nat} {s : State} (h : AtRow r s) (hr : r + 1 < 32) : AtRow (r + 1) (refreshRow s r) := by
  rw [refreshRow_eq r (by omega)]
  exact ⟨h.moved rfl rfl rfl, (BitVec.ofNat_add r 1).symm⟩

/-- Settles O42: the loop is 32 rows of 67 turns each, and it ends at SELECT. -/
theorem refreshEqualsItsSteps : Obligations.RefreshEqualsItsSteps := by
  intro s hreq hphase hstep hrow
  have hstart : AtRow 0 s := { noRequest := hreq, phase := hphase, scanStep := hstep, row := hrow }
  have hturns : afterTurns 2144 s = .next (scanRefresh s) :=
    (afterTurns_foldl (P := AtRow) (fun _ _ => AtRow.turns) (fun _ _ hr hs => hs.next hr) hstart (Nat.le_refl 32)).1
  have hrefresh : exec .scanRefresh s = .next (scanRefresh s) := by
    simp only [exec, execScanRefresh, refreshOrFault, hstep]
    rfl
  exact ⟨scanRefresh s, hrefresh, hturns, by rw [scanRefresh_eq]⟩

end Sys2Proof.Machine
end

section
/-! The cell codec as operations: ROW_ADDR, ENCODE_IDLE, ENCODE_RESULT, DECODE_CELL, and its laws (40). -/

namespace Sys2Proof.Machine

/-! ### What each operation answers -/

/-- An operation whose one check is its row's range returns its value, or raises `ROW_RANGE`. -/
theorem returning_of_rowCheck {α : Type} {x : Except (BitVec 4) α} {v : α} {r : Nat} (hok : r ≤ 31 → x = .ok v)
    (herror : 31 < r → x = .error faultRowRange) (f : α → Returned) (s : State) :
    returning (x.map f) s = .next (if r ≤ 31 then setRet (f v) s else raiseFault faultRowRange s) := by
  by_cases h : r ≤ 31
  · rw [hok h, if_pos h]
    rfl
  · rw [herror (by omega), if_neg h]
    rfl

/-- ROW_ADDR: the address of a row in range (40 R410). -/
theorem exec_rowAddr (row : BitVec 8) (s : State) : exec (.rowAddr row) s =
    .next (if row.toNat ≤ 31 then setRet (.addr (romRow row.toNat)) s else raiseFault faultRowRange s) :=
  returning_of_rowCheck rowAddrOf_ok rowAddrOf_error .addr s

/-- ENCODE_IDLE: the idle cell of a row in range (40 R420). -/
theorem exec_encodeIdle (row : BitVec 8) (s : State) : exec (.encodeIdle row) s =
    .next (if row.toNat ≤ 31 then setRet (.cell (idleCell row.toNat)) s else raiseFault faultRowRange s) :=
  returning_of_rowCheck encodeIdleOf_ok encodeIdleOf_error .cell s

/-- ENCODE_RESULT: the result cell of a row in range (40 R421). -/
theorem exec_encodeResult (row : BitVec 8) (h : Half) (c : Color) (s : State) : exec (.encodeResult row h c) s =
    .next (if row.toNat ≤ 31 then setRet (.cell (resultCell row.toNat h c)) s else raiseFault faultRowRange s) :=
  returning_of_rowCheck (fun hr => encodeResultOf_ok hr h c) (fun hr => encodeResultOf_error hr h c) .cell s

/-- DECODE_CELL: the lines of any cell (40 R424). -/
theorem exec_decodeCell (w : Cell) (s : State) : exec (.decodeCell w) s = .next (setRet (.lines (decodeCellOf w)) s) := rfl

/-! ### The bits of a cell -/

/-- A row's own half, by the bound the rules write (40 R420). -/
theorem halfOf_eq (r : Nat) : halfOf r = if r ≤ 15 then .top else .bottom := by
  simp only [halfOf, Nat.lt_succ_iff]

/-- The row's address bits OR'd with the one bit of the half and the colour (30 R309, 40 R421). -/
theorem resultCell_eq (r : Nat) (h : Half) (c : Color) :
    resultCell r h c = BitVec.ofNat 16 (r % 16) ||| (1#16 <<< colourBit h c) := by
  have haddr : (romRow r).setWidth 16 = BitVec.ofNat 16 (r % 16) :=
    BitVec.setWidth_ofNat_of_le_of_lt (by decide) (Nat.mod_lt r (by decide))
  rw [resultCell, cellOf, haddr]

/-- The address lines are bits 3:0 (40 R424). -/
theorem decodeCellOf_addr_getLsbD (w : Cell) {i : Nat} (hi : i < 4) : (decodeCellOf w).addr.getLsbD i = w.getLsbD i := by
  simp [decodeCellOf, hi]

/-- The colour lines are bits 9:4 (40 R424). -/
theorem decodeCellOf_rgb_getLsbD (w : Cell) {i : Nat} (hi : i < 6) :
    (decodeCellOf w).rgb.getLsbD i = w.getLsbD (4 + i) := by
  simp [decodeCellOf, hi]

/-- A cell's colour bit is one of the six above its address (30 R309). -/
theorem colourBit_sub_four_lt (h : Half) (c : Color) : colourBit h c - 4 < 6 := by
  cases h <;> cases c <;> decide

/-- Of the colour bits of a cell, the one of its half and colour is set (40 R431). -/
theorem cellOf_getLsbD_colour (a : BitVec 4) (h : Half) (c : Color) {i : Nat} (hi : i < 6) :
    (cellOf a h c).getLsbD (4 + i) = decide (i = colourBit h c - 4) := by
  rw [← decodeCellOf_rgb_getLsbD _ hi, cellOf_rgb, ← BitVec.twoPow_eq, BitVec.getLsbD_twoPow]
  simp [colourBit_sub_four_lt, eq_comm]

/-- Exactly one colour bit of a cell is set (40 R431). -/
theorem cellOf_oneColourBit (a : BitVec 4) (h : Half) (c : Color) : ∃ i, i < 6 ∧ (cellOf a h c).getLsbD (4 + i) = true
    ∧ ∀ j, j < 6 → (cellOf a h c).getLsbD (4 + j) = true → j = i := by
  have hlt := colourBit_sub_four_lt h c
  refine ⟨_, hlt, (cellOf_getLsbD_colour a h c hlt).trans (decide_eq_true rfl), fun j hj hset => ?_⟩
  rw [cellOf_getLsbD_colour a h c hj] at hset
  exact of_decide_eq_true hset

/-- The reserved bits of a cell are clear (40 R431). -/
theorem cellOf_reserved (a : BitVec 4) (h : Half) (c : Color) : (cellOf a h c).extractLsb' 10 6 = 0#6 := by
  revert a
  cases h <;> cases c <;> decide

/-! ### The obligations -/

/-- Settles O15: the address is the row's ROM entry. -/
theorem rowAddrGivesRowModSixteen : Obligations.RowAddrGivesRowModSixteen := exec_rowAddr

/-- Settles O18: the lines are the fields of the cell. -/
theorem decodeCellReadsTenBits : Obligations.DecodeCellReadsTenBits := fun w s =>
  ⟨decodeCellOf w, exec_decodeCell w s, fun _ => decodeCellOf_addr_getLsbD w, fun _ => decodeCellOf_rgb_getLsbD w⟩

/-- Settles O16: the idle cell of a row is the blue cell of the row's own half. -/
theorem encodeIdleGivesBlueCell : Obligations.EncodeIdleGivesBlueCell := by
  intro row s
  rw [exec_encodeIdle, idleCell, halfOf_eq, resultCell_eq, BitVec.or_comm]
  by_cases htop : row.toNat ≤ 15
  · rw [if_pos htop, if_pos htop, if_pos (by omega)]
    rfl
  · rw [if_neg htop, if_neg htop]
    rfl

/-- Settles O17: the colour bit is one of six, and the idle cell is the result cell of the row's half in blue. -/
theorem encodeResultGivesOneColourCell : Obligations.EncodeResultGivesOneColourCell := by
  constructor
  · intro row h c s
    rw [exec_encodeResult, resultCell_eq]
    cases h <;> cases c <;> rfl
  · intro row s _
    rw [← halfOf_eq, exec_encodeResult, exec_encodeIdle, idleCell]

/-- Settles O19: the idle cell and the result cell of a row are both cells of its address and one colour. -/
theorem codecSeparatesAddressAndColour : Obligations.CodecSeparatesAddressAndColour := by
  intro row h c s hrow
  have hresult : exec (.encodeResult row h c) s = .next (setRet (.cell (resultCell row.toNat h c)) s) := by
    rw [exec_encodeResult, if_pos hrow]
  have hidle : exec (.encodeIdle row) s = .next (setRet (.cell (idleCell row.toNat)) s) := by
    rw [exec_encodeIdle, if_pos hrow]
  have hdecode : exec (.decodeCell (resultCell row.toNat h c)) s =
      .next (setRet (.lines ⟨romRow row.toNat, 1#6 <<< (colourBit h c - 4)⟩) s) := by
    rw [exec_decodeCell, resultCell, decodeCellOf_cellOf]
  exact ⟨_, _, hresult, hidle, cellOf_addr _ _ _, cellOf_addr _ _ _, cellOf_oneColourBit _ _ _, cellOf_oneColourBit _ _ _,
    cellOf_reserved _ _ _, cellOf_reserved _ _ _, hdecode⟩

end Sys2Proof.Machine
end

section
/-! The frame buffer as operations: FB_SET, FB_READ, FB_RESET_TO_IDLE, and FB_SETs in a row (41). -/

namespace Sys2Proof.Machine

open Sys2Proof.Safety

/-! ### Writes to the buffer -/

/-- Writing the value a cell already holds changes nothing (41 R450). -/
theorem Memory.write_read_self {m : Memory} (hm : Memory.wf m = true) {a : Nat} (ha : a < 1024) :
    Memory.write m a (Memory.read m a) = m := by
  refine Memory.ext_of_read (Memory.write_wf hm ha _) hm fun b => ?_
  rw [Memory.read_write hm]
  split
  · next hb => rw [hb]
  · rfl

/-- Writes to two cells commute (41 R453). -/
theorem Memory.write_comm {m : Memory} (hm : Memory.wf m = true) {a b : Nat} (ha : a < 1024) (hb : b < 1024) (hab : a ≠ b)
    (v w : Cell) : Memory.write (Memory.write m a v) b w = Memory.write (Memory.write m b w) a v := by
  have hma := Memory.write_wf hm ha v
  have hmb := Memory.write_wf hm hb w
  refine Memory.ext_of_read (Memory.write_wf hma hb w) (Memory.write_wf hmb ha v) fun c => ?_
  rw [Memory.read_write hma, Memory.read_write hm, Memory.read_write hmb, Memory.read_write hm]
  by_cases hca : c = a
  · rw [if_neg (hca ▸ hab), if_pos hca, if_pos hca]
  · rw [if_neg hca, if_neg hca]

/-! ### What each operation does -/

/-- FB_SET of a cell of the frame stores it (41 R450). -/
theorem exec_fbSet_of_inRange {row col : BitVec 8} (hr : row.toNat ≤ 31) (hc : col.toNat ≤ 31) (w : Cell) (s : State) :
    exec (.fbSet row col w) s = .next (setFb (Memory.write s.fb (cellIndex row.toNat col.toNat) w) s) :=
  fbSet_eq hr hc w s

/-- FB_READ returns the cell (41 R451). -/
theorem exec_fbRead (row col : BitVec 5) (s : State) :
    exec (.fbRead row col) s = .next (setRet (.cell (Memory.read s.fb (cellIndex row.toNat col.toNat))) s) := rfl

/-- FB_RESET_TO_IDLE fills the buffer (41 R452). -/
theorem exec_fbResetToIdle (s : State) : exec .fbResetToIdle s = .next (setFb (fillIdle s.fb) s) := rfl

/-! ### FB_SETs in a row -/

/-- An FB_SET to a cell of the frame, and those after it. -/
theorem afterFbSets_cons {p : BitVec 8 × BitVec 8 × Cell} (hp : p.1.toNat ≤ 31 ∧ p.2.1.toNat ≤ 31)
    (l : List (BitVec 8 × BitVec 8 × Cell)) (s : State) :
    afterFbSets (p :: l) s = afterFbSets l (setFb (Memory.write s.fb (cellIndex p.1.toNat p.2.1.toNat) p.2.2) s) := by
  obtain ⟨hr, hc⟩ := hp
  simp only [afterFbSets, exec_fbSet_of_inRange hr hc]

/-- FB_SETs to cells of the frame complete and change nothing but the buffer. -/
theorem afterFbSets_of_inRange (l : List (BitVec 8 × BitVec 8 × Cell)) (s : State)
    (hl : ∀ p ∈ l, p.1.toNat ≤ 31 ∧ p.2.1.toNat ≤ 31) : ∃ m : Memory, afterFbSets l s = .next (setFb m s) := by
  induction l generalizing s with
  | nil => exact ⟨s.fb, rfl⟩
  | cons p l ih =>
    obtain ⟨hp, hl⟩ := List.forall_mem_cons.mp hl
    obtain ⟨m, hm⟩ := ih (setFb _ s) hl
    exact ⟨m, (afterFbSets_cons hp l s).trans hm⟩

/-- Cells of the frame at distinct positions have distinct indices. -/
theorem cellIndex_ne_of_ne {p q : BitVec 8 × BitVec 8 × Cell} (hp : p.2.1.toNat ≤ 31) (hq : q.2.1.toNat ≤ 31)
    (hpq : (p.1, p.2.1) ≠ (q.1, q.2.1)) : cellIndex p.1.toNat p.2.1.toNat ≠ cellIndex q.1.toNat q.2.1.toNat := by
  intro h
  obtain ⟨hrow, hcol⟩ := cellIndex_inj (by omega) (by omega) h
  exact hpq (Prod.ext (BitVec.eq_of_toNat_eq hrow) (BitVec.eq_of_toNat_eq hcol))

/-- FB_SETs to distinct cells of the frame, reordered, have the same outcome: a reordering is made of exchanges of
neighbours, whose two writes commute (41 R453). -/
theorem afterFbSets_perm {l l' : List (BitVec 8 × BitVec 8 × Cell)} (h : l.Perm l') {s : State}
    (hs : Memory.wf s.fb = true) (hl : ∀ p ∈ l, p.1.toNat ≤ 31 ∧ p.2.1.toNat ≤ 31)
    (hd : (l.map fun p => (p.1, p.2.1)).Nodup) : afterFbSets l s = afterFbSets l' s := by
  induction h generalizing s with
  | nil => rfl
  | cons p _ ih =>
    obtain ⟨hp, hl⟩ := List.forall_mem_cons.mp hl
    have hlt := cellIndex_lt (Nat.lt_succ_of_le hp.1) (Nat.lt_succ_of_le hp.2)
    rw [afterFbSets_cons hp, afterFbSets_cons hp]
    exact ih (Memory.write_wf hs hlt _) hl (List.nodup_cons.mp hd).2
  | swap q p l =>
    obtain ⟨hp, hl⟩ := List.forall_mem_cons.mp hl
    obtain ⟨hq, -⟩ := List.forall_mem_cons.mp hl
    have hpq : (p.1, p.2.1) ≠ (q.1, q.2.1) := fun heq => (List.nodup_cons.mp hd).1 (by simp [heq])
    have hcomm := Memory.write_comm hs (cellIndex_lt (Nat.lt_succ_of_le hp.1) (Nat.lt_succ_of_le hp.2))
      (cellIndex_lt (Nat.lt_succ_of_le hq.1) (Nat.lt_succ_of_le hq.2)) (cellIndex_ne_of_ne hp.2 hq.2 hpq) p.2.2 q.2.2
    rw [afterFbSets_cons hp, afterFbSets_cons hq, afterFbSets_cons hq, afterFbSets_cons hp, setFb_fb, setFb_fb, hcomm]
    rfl
  | trans h₁ _ ih₁ ih₂ =>
    rw [ih₁ hs hl hd]
    exact ih₂ hs (fun p hp => hl p (h₁.mem_iff.mpr hp)) ((h₁.map _).nodup_iff.mp hd)

/-! ### The obligations -/

/-- Settles O23: the two range checks come first, and a cell in range is one write of the buffer. -/
theorem fbSetWritesOneCell : Obligations.FbSetWritesOneCell := by
  intro row col w s hs
  obtain ⟨hr, h⟩ | ⟨hr, hc, h⟩ | ⟨hr, hc, h⟩ := fbSet_next row.toNat col.toNat w s
  · rw [if_pos hr]
    exact h
  · rw [if_neg (by omega), if_pos hc]
    exact h
  · rw [if_neg (by omega), if_neg (by omega)]
    have hlt := cellIndex_lt (Nat.lt_succ_of_le hr) (Nat.lt_succ_of_le hc)
    refine ⟨_, h, Memory.write_wf hs hlt w, fun a => Memory.read_write hs _ a w, fun hw => ?_⟩
    subst hw
    exact Memory.write_read_self hs hlt

/-- Settles O24: a read is of the cell, and after FB_SET the cell is what was written. -/
theorem fbReadReturnsLastWrite : Obligations.FbReadReturnsLastWrite := by
  refine ⟨exec_fbRead, fun row col w s hs => ?_⟩
  have hrow : (row.setWidth 8).toNat = row.toNat := BitVec.toNat_setWidth_of_le (by decide)
  have hcol : (col.setWidth 8).toNat = col.toNat := BitVec.toNat_setWidth_of_le (by decide)
  have hset := exec_fbSet_of_inRange (row := row.setWidth 8) (col := col.setWidth 8) (by omega) (by omega) w s
  rw [hrow, hcol] at hset
  refine ⟨_, hset, ?_⟩
  rw [exec_fbRead, setFb_fb, Memory.read_write hs, if_pos rfl]
  rfl

/-- Settles O25: the buffer after the fill is the idle frame, which no longer depends on the one before. -/
theorem resetToIdleFillsTheFrame : Obligations.ResetToIdleFillsTheFrame := by
  intro s hs
  refine ⟨fillIdle s.fb, exec_fbResetToIdle s, fillIdle_wf hs, fun row col _ hc => ?_, fun s' hs' => ?_⟩
  · have hdiv : (row * 32 + col) / 32 = row := cellIndex_div row col hc
    rw [read_fillIdle hs, hdiv]
  · rw [exec_fbResetToIdle, fillIdle_eq hs, fillIdle_eq hs']
    rfl

/-- Settles O27: the writes complete in the order given, and a reordering has the same outcome. -/
theorem fbSetOrderIsImmaterial : Obligations.FbSetOrderIsImmaterial := by
  intro l l' s hs hl hd hperm
  obtain ⟨m, hm⟩ := afterFbSets_of_inRange l s hl
  exact ⟨m, hm, (afterFbSets_perm hperm hs hl hd).symm.trans hm⟩

end Sys2Proof.Machine
end

section
/-! The sensor-result mapper as operations: RESULT_OF, COLOR_OF, MAP_APPLY, MAP_ALL, and MAP_ALLs in a row after INIT (42). -/

namespace Sys2Proof.Machine

open Sys2Proof.Safety

/-! ### The decisions of a sensor -/

/-- A sensor is reached when its index is at most the position (42 R502). -/
theorem reached_iff (k : BitVec 5) (pos : Byte) : reached k pos = true ↔ k.toNat ≤ pos.toNat := decide_eq_true_iff

/-- The colour of a result, by unsigned numbers (42 R502). -/
theorem colorOfResult_eq (result : ResultCode) (k : BitVec 5) (pos : Byte) : colorOfResult result k pos =
    if result = resultFail ∧ k.toNat ≤ pos.toNat then .red
    else if result = resultPass ∧ k.toNat ≤ pos.toNat then .green else .blue := by
  simp only [colorOfResult, reached_iff]

/-- A sensor not reached is blue, whatever its result (42 R506). -/
theorem colorOfResult_of_not_reached {k : BitVec 5} {pos : Byte} (h : pos.toNat < k.toNat) (result : ResultCode) :
    colorOfResult result k pos = .blue := by
  have hk : ¬ k.toNat ≤ pos.toNat := Nat.not_le.mpr h
  rw [colorOfResult_eq, if_neg fun hr => hk hr.2, if_neg fun hr => hk hr.2]

/-- A Fail is red from its sensor's position on (42 R506, R507). -/
theorem colorOfResult_fail (k : BitVec 5) (pos : Byte) :
    colorOfResult resultFail k pos = if pos.toNat < k.toNat then .blue else .red := by
  split
  · next h => exact colorOfResult_of_not_reached h _
  · next h => rw [colorOfResult_eq, if_pos ⟨rfl, Nat.not_lt.mp h⟩]

/-- A Pass is green from its sensor's position on (42 R506, R507). -/
theorem colorOfResult_pass (k : BitVec 5) (pos : Byte) :
    colorOfResult resultPass k pos = if pos.toNat < k.toNat then .blue else .green := by
  have hne : resultPass ≠ resultFail := by decide
  split
  · next h => exact colorOfResult_of_not_reached h _
  · next h => rw [colorOfResult_eq, if_neg fun hr => hne hr.1, if_pos ⟨rfl, Nat.not_lt.mp h⟩]

/-! ### What each operation does -/

/-- RESULT_OF: the result of a sensor in range (42 R501). -/
theorem exec_resultOf (bits : BitVec 24) (k : BitVec 5) (s : State) : exec (.resultOf bits k) s =
    .next (if k.toNat ≤ 23 then setRet (.result (sensorResult bits k.toNat)) s else raiseFault faultSensorRange s) := by
  simp only [exec, execResultOf]
  by_cases h : k.toNat ≤ 23
  · rw [if_neg (Nat.not_lt.mpr h), if_pos h]
    rfl
  · rw [if_pos (Nat.not_le.mp h), if_neg h]
    rfl

/-- COLOR_OF: the colour of any result (42 R502). -/
theorem exec_colorOf (result : ResultCode) (k : BitVec 5) (pos : Byte) (s : State) :
    exec (.colorOf result k pos) s = .next (setRet (.color (colorOfResult result k pos)) s) := rfl

/-- MAP_APPLY of a sensor in range paints its region (42 R503). -/
theorem exec_mapApply_of_inRange {k : BitVec 5} (hk : k.toNat ≤ 23) (result : ResultCode) (pos : Byte) (s : State) :
    exec (.mapApply k result pos) s =
      .next (setFb (paintRegion (regionOf s.cfg.regionTable k.toNat) (colorOfResult result k pos) s.fb) s) :=
  if_neg (Nat.not_lt.mpr hk)

/-- MAP_APPLY of a sensor out of range raises `SENSOR_RANGE` (42 R503). -/
theorem exec_mapApply_of_outOfRange {k : BitVec 5} (hk : 23 < k.toNat) (result : ResultCode) (pos : Byte) (s : State) :
    exec (.mapApply k result pos) s = .next (raiseFault faultSensorRange s) := if_pos hk

/-- MAP_ALL always goes on (42 R504). -/
theorem exec_mapAll (s : State) : exec .mapAll s = .next (mapAll s) := rfl

/-- INIT always goes on (70 R1002). -/
theorem exec_init (s : State) : exec .init s = .next (initFrame s) := rfl

/-! ### Regions and the render function -/

/-- A cell of a sensor's region, by its bounds (42 R503). -/
theorem Region.contains_iff (g : Region) (row col : Nat) : g.contains row col = true ↔
    g.baseRow.toNat ≤ row ∧ row ≤ g.baseRow.toNat + 3 ∧ g.baseCol.toNat ≤ col ∧ col ≤ g.baseCol.toNat + 2 :=
  decide_eq_true_iff

/-- Painting a region, cell by cell of the frame (42 R503). -/
theorem read_paintRegion_cellIndex {g : Region} (hg : g.inRange = true) (c : Color) {m : Memory} (hm : Memory.wf m = true)
    (row : Nat) {col : Nat} (hc : col < 32) : Memory.read (paintRegion g c m) (cellIndex row col) =
      if g.contains row col = true then resultCell row (halfOf row) c else Memory.read m (cellIndex row col) := by
  rw [read_paintRegion hg c hm, cellIndex_div row col hc, cellIndex_mod row col hc]

/-- The search of the regions finds the one sensor that has the cell. -/
theorem find_region_of_contains {t : RegionTable} {k row col : Nat} (hk : k < 24)
    (h : (regionOf t k).contains row col = true) :
    ((List.range 24).find? fun j => (regionOf t j).contains row col) = some k := by
  cases hf : (List.range 24).find? fun j => (regionOf t j).contains row col with
  | none => exact absurd h (List.find?_eq_none.mp hf k (List.mem_range.mpr hk))
  | some j =>
    have hj : j < 24 := List.mem_range.mp (List.mem_of_find?_eq_some hf)
    have hc := List.find?_some hf
    rw [regionOf_disjoint t hj hk row col hc h]

/-- The search of the regions finds no sensor for a cell outside them. -/
theorem find_region_of_not_inRegion {t : RegionTable} {row col : Nat} (h : ¬ inRegion t row col) :
    ((List.range 24).find? fun j => (regionOf t j).contains row col) = none :=
  List.find?_eq_none.mpr fun j hj hc => h ⟨j, List.mem_range.mp hj, hc⟩

/-- A region's cell renders in its sensor's colour (42 R505). -/
theorem render_of_contains {t : RegionTable} {k a : Nat} (hk : k < 24)
    (h : (regionOf t k).contains (a / 32) (a % 32) = true) (bits : BitVec 24) (pos : Byte) : render t bits pos a =
      resultCell (a / 32) (halfOf (a / 32)) (colorOfResult (sensorResult bits k) (BitVec.ofNat 5 k) pos) := by
  rw [render, find_region_of_contains hk h]

/-- A cell outside every region renders idle (42 R505). -/
theorem render_of_not_inRegion {t : RegionTable} {a : Nat} (h : ¬ inRegion t (a / 32) (a % 32)) (bits : BitVec 24)
    (pos : Byte) : render t bits pos a = idleCell (a / 32) := by
  rw [render, find_region_of_not_inRegion h]

/-! ### What MAP_ALL leaves in the buffer -/

/-- The buffer after MAP_ALL is the one its loop leaves (42 R504). -/
theorem mapAll_fb (s : State) :
    (mapAll s).fb = paintSensors s.cfg.regionTable s.heldBits s.heldPos (List.range 24) s.fb := by
  rw [mapAll_eq]

theorem mapAll_fb_wf {s : State} (hs : Memory.wf s.fb = true) : Memory.wf (mapAll s).fb = true := by
  rw [mapAll_fb]
  exact paintSensors_wf _ _ _ _ (fun _ => List.mem_range.mp) hs

/-- Every cell of a region is rendered from the held registers (42 R504, R505). -/
theorem read_mapAll_of_inRegion {s : State} (hs : Memory.wf s.fb = true) {a : Nat}
    (h : inRegion s.cfg.regionTable (a / 32) (a % 32)) :
    Memory.read (mapAll s).fb a = render s.cfg.regionTable s.heldBits s.heldPos a := by
  obtain ⟨k, hk, hc⟩ := h
  rw [mapAll_fb, read_paintSensors _ _ _ _ (fun _ => List.mem_range.mp) hs, find_region_of_contains hk hc,
    render_of_contains hk hc]

/-- A cell outside every region stays as it was (42 R504). -/
theorem read_mapAll_of_not_inRegion {s : State} (hs : Memory.wf s.fb = true) {a : Nat}
    (h : ¬ inRegion s.cfg.regionTable (a / 32) (a % 32)) : Memory.read (mapAll s).fb a = Memory.read s.fb a := by
  rw [mapAll_fb, read_paintSensors _ _ _ _ (fun _ => List.mem_range.mp) hs, find_region_of_not_inRegion h]

/-- Over a frame that is idle outside the regions, MAP_ALL leaves the render of the held registers (42 R505). -/
theorem read_mapAll_eq_render {s : State} (hs : Memory.wf s.fb = true)
    (hidle : ∀ a, ¬ inRegion s.cfg.regionTable (a / 32) (a % 32) → Memory.read s.fb a = idleCell (a / 32)) (a : Nat) :
    Memory.read (mapAll s).fb a = render s.cfg.regionTable s.heldBits s.heldPos a := by
  by_cases h : inRegion s.cfg.regionTable (a / 32) (a % 32)
  · exact read_mapAll_of_inRegion hs h
  · rw [read_mapAll_of_not_inRegion hs h, hidle a h, render_of_not_inRegion h]

/-! ### MAP_ALLs in a row -/

/-- The block has the table `t`, and a canonical buffer that is idle outside the regions of `t`: what INIT sets up and
every MAP_ALL keeps, whatever registers it reads (42 R505). -/
structure IdleOutside (t : RegionTable) (s : State) : Prop where
  table : s.cfg.regionTable = t
  canonical : Memory.wf s.fb = true
  idle : ∀ a, ¬ inRegion t (a / 32) (a % 32) → Memory.read s.fb a = idleCell (a / 32)

/-- INIT sets the frame idle everywhere (70 R1002). -/
theorem idleOutside_initFrame {s : State} (hs : Memory.wf s.fb = true) :
    IdleOutside s.cfg.regionTable (initFrame s) := by
  have hfb : (initFrame s).fb = fillIdle s.fb := by rw [initFrame_eq]
  exact ⟨by rw [initFrame_eq], hfb ▸ fillIdle_wf hs, fun a _ => hfb ▸ read_fillIdle hs a⟩

/-- The frame stays idle outside the regions when the held registers change. -/
theorem IdleOutside.setHeld {t : RegionTable} {s : State} (h : IdleOutside t s) (bits : BitVec 24) (pos : Byte) :
    IdleOutside t { s with heldBits := bits, heldPos := pos } :=
  ⟨h.table, h.canonical, h.idle⟩

/-- MAP_ALL leaves the cells outside the regions (42 R504). -/
theorem IdleOutside.after_mapAll {t : RegionTable} {s : State} (h : IdleOutside t s) : IdleOutside t (mapAll s) := by
  obtain ⟨rfl, hs, hidle⟩ := h
  exact ⟨congrArg Config.regionTable (exec_cfg (exec_mapAll s)), mapAll_fb_wf hs, fun a ha =>
    (read_mapAll_of_not_inRegion hs ha).trans (hidle a ha)⟩

/-- A MAP_ALL, and those after it. -/
theorem afterMapAlls_cons (bits : BitVec 24) (pos : Byte) (l : List (BitVec 24 × Byte)) (s : State) :
    afterMapAlls ((bits, pos) :: l) s = afterMapAlls l (mapAll { s with heldBits := bits, heldPos := pos }) := rfl

/-- MAP_ALLs in a row complete and keep the frame idle outside the regions; one more goes on from where they end. -/
theorem afterMapAlls_of_idleOutside {t : RegionTable} (l : List (BitVec 24 × Byte)) {s : State} (hs : IdleOutside t s)
    (bits : BitVec 24) (pos : Byte) : ∃ u : State, afterMapAlls l s = .next u ∧ IdleOutside t u
      ∧ afterMapAlls (l ++ [(bits, pos)]) s = .next (mapAll { u with heldBits := bits, heldPos := pos }) := by
  induction l generalizing s with
  | nil => exact ⟨s, rfl, hs, rfl⟩
  | cons p l ih =>
    rw [List.cons_append, afterMapAlls_cons, afterMapAlls_cons]
    exact ih (hs.setHeld p.1 p.2).after_mapAll

/-! ### The obligations -/

/-- Settles O28: the sensor's bit is read after the range check. -/
theorem resultOfReadsTheSensorBit : Obligations.ResultOfReadsTheSensorBit := exec_resultOf

/-- Settles O29: the colour by unsigned numbers is what COLOR_OF returns. -/
theorem colorOfDecidesByReach : Obligations.ColorOfDecidesByReach := by
  intro result k pos s
  rw [exec_colorOf, colorOfResult_eq]
  rfl

/-- Settles O34: a table is built with its checks W1 to W5. -/
theorem regionTablesMeetTheChecks : Obligations.RegionTablesMeetTheChecks := by
  refine fun t => ⟨fun k hk => ?_, fun j k row col hj hk => regionOf_disjoint t hj hk row col⟩
  obtain ⟨hrange, hhalf, hcolumn, hfield⟩ := regionOf_checks t k hk
  obtain ⟨hrow, hcol⟩ := of_decide_eq_true hrange
  exact ⟨hrow, hcol, of_decide_eq_true hhalf, of_decide_eq_true hcolumn, (eq_of_beq hfield).trans (halfOf_eq _)⟩

/-- Settles O30: MAP_APPLY of a sensor in range is the painting of one region, which check W1 keeps inside the frame. -/
theorem mapApplyPaintsTheRegion : Obligations.MapApplyPaintsTheRegion := by
  intro k result pos s hs
  by_cases hk : 23 < k.toNat
  · rw [if_pos hk]
    exact exec_mapApply_of_outOfRange hk result pos s
  · rw [if_neg hk]
    obtain ⟨hrange, -⟩ := regionOf_checks s.cfg.regionTable k.toNat (by omega)
    refine ⟨_, exec_mapApply_of_inRange (by omega) result pos s, paintRegion_wf hrange _ hs, fun row col _ hc => ?_⟩
    simpa only [Region.contains_iff, cellIndex] using read_paintRegion_cellIndex hrange (colorOfResult result k pos) hs row hc

/-- Settles O31: both results paint the same region, each in its own colour. -/
theorem reachDecidesThePaint : Obligations.ReachDecidesThePaint := by
  intro k pos s hk hs
  obtain ⟨hrange, -⟩ := regionOf_checks s.cfg.regionTable k.toNat (by omega)
  refine ⟨_, _, exec_mapApply_of_inRange hk resultFail pos s, exec_mapApply_of_inRange hk resultPass pos s,
    fun row col h => ?_⟩
  have painted (c : Color) : Memory.read (paintRegion (regionOf s.cfg.regionTable k.toNat) c s.fb) (row * 32 + col)
      = resultCell row (halfOf row) c :=
    (read_paintRegion_cellIndex hrange c hs row (Region.contains_range hrange h).2).trans (if_pos h)
  rw [painted, painted, colorOfResult_fail, colorOfResult_pass]
  exact ⟨rfl, rfl⟩

/-- Settles O32: MAP_ALL renders the cells of the regions from the held registers and leaves the others. -/
theorem mapAllPaintsEveryRegion : Obligations.MapAllPaintsEveryRegion := by
  intro s hs
  have hexec : exec .mapAll s = .next { s with fb := (mapAll s).fb, mapS := 23#5, phase := phaseScan } := by
    rw [exec_mapAll, mapAll_eq]
  refine ⟨_, hexec, mapAll_fb_wf hs, fun row col _ hc => ?_⟩
  have hrow : (row * 32 + col) / 32 = row := cellIndex_div row col hc
  have hcol : (row * 32 + col) % 32 = col := cellIndex_mod row col hc
  refine ⟨fun k hk h => ?_, fun h => read_mapAll_of_not_inRegion hs (by rwa [hrow, hcol])⟩
  have hcell : (regionOf s.cfg.regionTable k).contains ((row * 32 + col) / 32) ((row * 32 + col) % 32) = true := by
    rwa [hrow, hcol]
  rw [read_mapAll_of_inRegion hs ⟨k, hk, hcell⟩, render_of_contains hk hcell, hrow]
  rfl

/-- Settles O33: INIT sets the frame idle, MAP_ALLs keep it idle outside the regions, so the last one leaves the render. -/
theorem mapAllsRenderTheLastResults : Obligations.MapAllsRenderTheLastResults := by
  intro s l bits pos hs
  obtain ⟨u, hu, hidle, hlast⟩ := afterMapAlls_of_idleOutside l (idleOutside_initFrame hs) bits pos
  refine ⟨initFrame s, u, _, exec_init s, hu, hlast, fun row col _ hc h => ?_, fun a _ => ?_⟩
  · have hrow : (row * 32 + col) / 32 = row := cellIndex_div row col hc
    have hcol : (row * 32 + col) % 32 = col := cellIndex_mod row col hc
    rw [hidle.idle (row * 32 + col) (by rwa [hrow, hcol]), hrow]
  · have hheld := hidle.setHeld bits pos
    rw [read_mapAll_eq_render hheld.canonical (hheld.table.symm ▸ hheld.idle), hheld.table]

end Sys2Proof.Machine
end

section
/-! The scan driver's operations one at a time: the latch, the shift of a cell, the dwell and the end of a refresh (43 R602 to
R606). -/

namespace Sys2Proof.Machine

/-! ### What each operation answers -/

/-- ROW_BEGIN always goes on (43 R602). -/
theorem exec_rowBegin (s : State) : exec .rowBegin s = .next (rowBegin s) := rfl

/-- SHIFT_SETUP always goes on (43 R603). -/
theorem exec_shiftSetup (s : State) : exec .shiftSetup s = .next (shiftSetup s) := rfl

/-- SHIFT_HIGH always goes on (43 R603). -/
theorem exec_shiftHigh (s : State) : exec .shiftHigh s = .next (shiftHigh s) := rfl

/-- SHIFT_CELL is SHIFT_SETUP, then SHIFT_HIGH (43 R603, 30 R336). -/
theorem exec_shiftCell (s : State) : exec .shiftCell s = .next (shiftHigh (shiftSetup s)) := rfl

/-- ROW_COMMIT always goes on (43 R604). -/
theorem exec_rowCommit (s : State) : exec .rowCommit s = .next (rowCommit s) := rfl

/-- ROW_DWELL always goes on (43 R605). -/
theorem exec_rowDwell (s : State) : exec .rowDwell s = .next (rowDwell s) := rfl

/-- REFRESH_END always goes on (43 R606). -/
theorem exec_refreshEnd (s : State) : exec .refreshEnd s = .next (refreshEnd s) := rfl

/-! ### The shared operations, all at once -/

/-- ROW_BEGIN: everything it does (43 R602). -/
theorem rowBegin_eq (s : State) : rowBegin s =
    { s with
      outOe := false, outLat := true, waitCnt := 0, scanCol := 0#5, scanStep := stepShiftSetup
      trace := [.panel (.lat true), .panel (.hold (holdGap s.cfg s.cfg.tOeGap)), .panel (.oe false)] ++ s.trace } := by
  simp only [rowBegin, driveLat, holdPanel, driveOe, List.cons_append, List.nil_append]

/-- ROW_COMMIT: everything it does (43 R604). -/
theorem rowCommit_eq (s : State) : rowCommit s =
    { s with
      outLat := false, waitCnt := 0, scanStep := stepRowDwell
      trace := [.panel (.lat false), .panel (.hold (holdGap s.cfg s.cfg.tLatGap))] ++ s.trace } := by
  simp only [rowCommit, driveLat, holdPanel, List.cons_append, List.nil_append]

/-- SHIFT_SETUP: everything it does (43 R603). -/
theorem shiftSetup_eq (s : State) : shiftSetup s =
    { s with
      outAddr := (cellLinesAt s s.scanRow.toNat s.scanCol.toNat).addr
      outRgb := (cellLinesAt s s.scanRow.toNat s.scanCol.toNat).rgb
      waitCnt := 0, scanStep := stepShiftHigh
      trace := [.panel (.hold (holdAtLeast s.cfg s.cfg.tSetup)),
        .panel (.lines (cellLinesAt s s.scanRow.toNat s.scanCol.toNat)), .panel (.hold holdOne)] ++ s.trace } := by
  simp only [shiftSetup, driveLines, holdPanel, fbRead, cellLinesAt, List.cons_append, List.nil_append]

/-- SHIFT_HIGH: everything it does (43 R603). -/
theorem shiftHigh_eq (s : State) : shiftHigh s =
    { s with
      outSclk := false, waitCnt := 0
      scanCol := if s.scanCol.toNat < 31 then s.scanCol + 1#5 else s.scanCol
      scanStep := if s.scanCol.toNat < 31 then stepShiftSetup else stepRowCommit
      trace := [.panel (.sclk false), .panel (.hold (holdAtLeast s.cfg s.cfg.tSclkHigh)), .panel (.sclk true)]
        ++ s.trace } := by
  simp only [shiftHigh, driveSclk, holdPanel, List.cons_append, List.nil_append]

/-- REFRESH_END: everything it does; `OE` falls only where the parameter asks for it (43 R606). -/
theorem refreshEnd_eq (s : State) : refreshEnd s =
    { s with
      outOe := if s.cfg.blankBetweenRefresh = true then false else s.outOe
      scanRow := 0#5, scanCol := 0#5, scanStep := stepRowBegin, phase := phaseSelect
      trace := (if s.cfg.blankBetweenRefresh = true then [.panel (.oe false)] else []) ++ s.trace } := by
  unfold refreshEnd
  by_cases hblank : s.cfg.blankBetweenRefresh = true
  · simp only [if_pos hblank, List.cons_append, List.nil_append]
  · simp only [if_neg hblank, List.nil_append]

/-- The row lit for the dwell, before the scan moves on (43 R605). -/
def lit (s : State) : State :=
  { s with
    outOe := true, waitCnt := 0
    trace := [.panel (.hold (holdExactly s.cfg s.cfg.tDwell)), .panel (.oe true),
      .panel (.hold (holdGap s.cfg s.cfg.tOeGap))] ++ s.trace }

/-- ROW_DWELL lights the row, then moves on to the next or ends the refresh (43 R605). -/
theorem rowDwell_eq_lit (s : State) : rowDwell s =
    if s.scanRow.toNat < 31 then { lit s with scanRow := s.scanRow + 1#5, scanStep := stepRowBegin }
    else refreshEnd (lit s) := by
  simp only [rowDwell, holdPanel, driveOe, lit, List.cons_append, List.nil_append]

/-! ### The obligations -/

/-- Settles O35: both operations go on with their equations. -/
theorem latchOpensBlankedAndCloses : Obligations.LatchOpensBlankedAndCloses :=
  ⟨fun s => (exec_rowBegin s).trans (congrArg _ (rowBegin_eq s)),
    fun s => (exec_rowCommit s).trans (congrArg _ (rowCommit_eq s))⟩

/-- Settles O36: both sub-steps go on with their equations, and SHIFT_CELL is their composition. -/
theorem shiftCellDrivesThenPulses : Obligations.ShiftCellDrivesThenPulses :=
  ⟨fun s => (exec_shiftSetup s).trans (congrArg _ (shiftSetup_eq s)),
    fun s => (exec_shiftHigh s).trans (congrArg _ (shiftHigh_eq s)),
    fun s => ⟨_, _, exec_shiftSetup s, exec_shiftHigh _, exec_shiftCell s⟩⟩

/-- Settles O37: the lit row is the state both ways of moving on start from. -/
theorem dwellLightsTheRowThenMovesOn : Obligations.DwellLightsTheRowThenMovesOn := by
  refine ⟨fun s => (exec_refreshEnd s).trans (congrArg _ (refreshEnd_eq s)), fun s => ⟨lit s, rfl, ?_⟩⟩
  rw [exec_rowDwell, rowDwell_eq_lit, exec_refreshEnd]
  by_cases hrow : s.scanRow.toNat < 31
  · rw [if_pos hrow, if_pos hrow]
    rfl
  · rw [if_neg hrow, if_neg hrow]

end Sys2Proof.Machine
end

section
/-! What a refresh puts on the panel: the trace of 43 R610, cell by cell (43 R601, R612). -/

namespace Sys2Proof.Machine

open Sys2Proof.Safety

/-- SCAN_REFRESH raises `RESERVED_STATE` at a reserved `SCAN_STEP`, and refreshes at any other (43 R601). -/
theorem exec_scanRefresh (s : State) : exec .scanRefresh s =
    .next (if 5 ≤ s.scanStep.toNat then raiseFault faultReservedState s else scanRefresh s) := by
  simp only [exec, execScanRefresh, refreshOrFault, scanStepReserved, decide_eq_true_eq]
  split <;> rfl

/-- SCAN_REFRESH at a step that is not reserved (43 R601). -/
theorem exec_scanRefresh_of_lt {s : State} (h : s.scanStep.toNat < 5) : exec .scanRefresh s = .next (scanRefresh s) := by
  rw [exec_scanRefresh, if_neg (Nat.not_le.mpr h)]

/-- Settles O38: a refresh has the effect of its 32 rows, the last cell driven being cell 1023. -/
theorem refreshEmitsTheRowTraces : Obligations.RefreshEmitsTheRowTraces := by
  intro s
  rw [exec_scanRefresh, scanRefresh_eq]
  rfl

/-! ### Lists of lists -/

/-- Rounds that each hold an element `k` times. -/
theorem count_flatMap_of_forall {α β : Type} [BEq β] {b : β} {k : Nat} {f : α → List β} (l : List α)
    (h : ∀ a ∈ l, (f a).count b = k) : (l.flatMap f).count b = l.length * k := by
  have hconst : l.map (List.count b ∘ f) = l.map fun _ => k := List.map_congr_left h
  rw [List.count_flatMap, hconst, List.map_const', List.sum_replicate, smul_eq_mul]

/-- Row by row and column by column is index by index (20 R201). -/
theorem flatMap_range_cellIndex {α : Type} (f : Nat → α) (rows : Nat) :
    ((List.range rows).flatMap fun r => (List.range 32).map fun col => f (cellIndex r col))
      = (List.range (rows * 32)).map f := by
  induction rows with
  | zero => rfl
  | succ n ih =>
    rw [List.range_succ (n := n), List.flatMap_append, ih, Nat.succ_mul, List.range_add, List.map_append, List.map_map]
    simp only [List.flatMap_cons, List.flatMap_nil, List.append_nil]
    rfl

/-! ### The lines driven -/

theorem drivenLines_append (a b : List PanelEvent) : drivenLines (a ++ b) = drivenLines a ++ drivenLines b := by
  induction a with
  | nil => rfl
  | cons e a ih => cases e <;> simp [drivenLines, ih]

/-- The lines driven in rounds are driven round by round. -/
theorem drivenLines_flatMap {α : Type} (f : α → List PanelEvent) (l : List α) :
    drivenLines (l.flatMap f) = l.flatMap fun a => drivenLines (f a) := by
  induction l with
  | nil => rfl
  | cons a l ih => rw [List.flatMap_cons, drivenLines_append, ih, List.flatMap_cons]

/-- A column drives the lines of its one cell (43 R603). -/
theorem drivenLines_columnTrace (c : Config) (m : Memory) (r col : Nat) :
    drivenLines (columnTrace c m r col) = [decodeCellOf (Memory.read m (cellIndex r col))] := rfl

/-- A row drives the lines of its 32 cells, in order (43 R612). -/
theorem drivenLines_rowTrace (c : Config) (m : Memory) (r : Nat) : drivenLines (rowTrace c m r) =
    (List.range 32).map fun col => decodeCellOf (Memory.read m (cellIndex r col)) := by
  rw [rowTrace_eq, drivenLines_append, drivenLines_append, drivenLines_flatMap]
  simp only [drivenLines_columnTrace, drivenLines, List.nil_append, List.append_nil, List.map_eq_flatMap]

/-- A refresh drives the lines of every cell once, in row-major order (43 R612). -/
theorem drivenLines_refreshTrace (c : Config) (m : Memory) : drivenLines (refreshTrace c m) =
    (List.range 1024).map fun a => decodeCellOf (Memory.read m a) := by
  have hend : drivenLines (if c.blankBetweenRefresh then [.oe false] else []) = [] := by split <;> rfl
  rw [refreshTrace, drivenLines_append, hend, List.append_nil, drivenLines_flatMap]
  simp only [drivenLines_rowTrace]
  exact flatMap_range_cellIndex (fun a => decodeCellOf (Memory.read m a)) 32

/-! ### The pulses -/

/-- A column has one `SCLK` pulse (43 R603). -/
theorem count_sclk_columnTrace (c : Config) (m : Memory) (r col : Nat) (v : Bool) :
    (columnTrace c m r col).count (.sclk v) = 1 := by
  cases v <;> simp [columnTrace]

/-- A row has 32 `SCLK` pulses (43 R612). -/
theorem count_sclk_rowTrace (c : Config) (m : Memory) (r : Nat) (v : Bool) : (rowTrace c m r).count (.sclk v) = 32 := by
  rw [rowTrace_eq, List.count_append, List.count_append,
    count_flatMap_of_forall _ fun col _ => count_sclk_columnTrace c m r col v]
  simp

/-- A row has one `LAT` pulse, at its ends (43 R602, R604). -/
theorem count_lat_rowTrace (c : Config) (m : Memory) (r : Nat) (v : Bool) : (rowTrace c m r).count (.lat v) = 1 := by
  have hcolumn : ∀ col ∈ List.range 32, (columnTrace c m r col).count (.lat v) = 0 := fun _ _ => by simp [columnTrace]
  rw [rowTrace_eq, List.count_append, List.count_append, count_flatMap_of_forall _ hcolumn]
  cases v <;> simp

/-- A refresh has one `SCLK` pulse per cell (43 R612). -/
theorem count_sclk_refreshTrace (c : Config) (m : Memory) (v : Bool) : (refreshTrace c m).count (.sclk v) = 1024 := by
  have hend : (if c.blankBetweenRefresh then [PanelEvent.oe false] else []).count (.sclk v) = 0 := by split <;> simp
  rw [refreshTrace, List.count_append, hend, count_flatMap_of_forall _ fun r _ => count_sclk_rowTrace c m r v]
  simp

/-! ### What shifts or latches -/

/-- Of a column, the drive of its cell and the pulse after it shift (43 R603). -/
theorem filter_columnTrace (c : Config) (m : Memory) (r col : Nat) : (columnTrace c m r col).filter shiftsOrLatches =
    [.lines (decodeCellOf (Memory.read m (cellIndex r col))), .sclk true, .sclk false] := rfl

/-- Of a row, its columns shift within its one `LAT` pulse (43 R602 to R604). -/
theorem filter_rowTrace (c : Config) (m : Memory) (r : Nat) : (rowTrace c m r).filter shiftsOrLatches =
    [.lat true] ++ ((List.range 32).flatMap fun col =>
      [.lines (decodeCellOf (Memory.read m (cellIndex r col))), .sclk true, .sclk false]) ++ [.lat false] := by
  rw [rowTrace_eq, List.filter_append, List.filter_append, List.filter_flatMap]
  simp only [filter_columnTrace]
  rfl

/-- Of a refresh, its rows shift and latch, and nothing else does (43 R612). -/
theorem filter_refreshTrace (c : Config) (m : Memory) : (refreshTrace c m).filter shiftsOrLatches =
    (List.range 32).flatMap fun r => [.lat true] ++ ((List.range 32).flatMap fun col =>
      [.lines (decodeCellOf (Memory.read m (cellIndex r col))), .sclk true, .sclk false]) ++ [.lat false] := by
  have hend : (if c.blankBetweenRefresh then [PanelEvent.oe false] else []).filter shiftsOrLatches = [] := by
    split <;> rfl
  rw [refreshTrace, List.filter_append, hend, List.append_nil, List.filter_flatMap]
  simp only [filter_rowTrace]

/-- What SCAN_REFRESH appends to the trace is the trace of a refresh (43 R610). -/
theorem scanRefresh_trace (s : State) :
    (scanRefresh s).trace = ((refreshTrace s.cfg s.fb).map Event.panel).reverse ++ s.trace := by
  rw [scanRefresh_eq]

/-- Settles O39: each count and order is that of the rows, and each row's that of its columns. -/
theorem refreshVisitsEveryCellOnce : Obligations.RefreshVisitsEveryCellOnce := by
  intro s hstep
  refine ⟨scanRefresh s, _, (List.range 32).map (rowTrace s.cfg s.fb), exec_scanRefresh_of_lt hstep, scanRefresh_trace s, ?_⟩
  rw [List.reverse_reverse, panelEvents_map_panel]
  refine ⟨drivenLines_refreshTrace _ _, count_sclk_refreshTrace _ _ true, count_sclk_refreshTrace _ _ false, ?_, ?_, ?_,
    filter_refreshTrace _ _⟩
  · rw [refreshTrace, List.flatMap_def]
  · rw [List.length_map, List.length_range]
  · intro row hrow
    obtain ⟨r, -, rfl⟩ := List.mem_map.mp hrow
    exact ⟨count_sclk_rowTrace _ _ r true, count_sclk_rowTrace _ _ r false, count_lat_rowTrace _ _ r true,
      count_lat_rowTrace _ _ r false⟩

end Sys2Proof.Machine
end

section
/-! The output-enable discipline: no data, `SCLK` or `LAT` event of a refresh, and no change of `ADDR` in a run, while the
display is enabled (43 R613, R614, 70 R1011, R1012). -/

namespace Sys2Proof.Machine

open Sys2Proof.Safety

/-! ### Panel events after a disciplined trace -/

/-- After any disciplined trace that leaves `OE` at `b`, these panel events, oldest first, are disciplined too and leave it
at `b'`. -/
def MovesOe (b b' : Bool) (es : List PanelEvent) : Prop :=
  ∀ tr : List Event, oeAfter tr = some b → oeAfter ((es.map Event.panel).reverse ++ tr) = some b'

theorem MovesOe.append {b b' b'' : Bool} {es es' : List PanelEvent} (h : MovesOe b b' es) (h' : MovesOe b' b'' es') :
    MovesOe b b'' (es ++ es') := by
  intro tr htr
  rw [List.map_append, List.reverse_append, List.append_assoc]
  exact h' _ (h tr htr)

/-- Rounds that each leave `OE` as it was. -/
theorem MovesOe.flatMap {α : Type} {b : Bool} {f : α → List PanelEvent} (h : ∀ a, MovesOe b b (f a)) (l : List α) :
    MovesOe b b (l.flatMap f) := by
  induction l with
  | nil => exact fun _ htr => htr
  | cons a l ih => exact (h a).append ih

/-- At least one round, each leaving `OE` at `b'` whatever it was. -/
theorem MovesOe.flatMap_succ {b b' : Bool} {f : Nat → List PanelEvent} (h : ∀ b r, MovesOe b b' (f r)) (n : Nat) :
    MovesOe b b' ((List.range (n + 1)).flatMap f) := by
  rw [List.range_succ_eq_map, List.flatMap_cons]
  exact (h b 0).append (.flatMap (h b') _)

/-! ### The refresh -/

/-- The start of a row blanks before it opens the latch (43 R602). -/
theorem movesOe_rowBegin (b : Bool) (h : Hold) : MovesOe b false [.oe false, .hold h, .lat true] := by
  intro tr htr
  simp [oeAfter, htr]

/-- A column shifts while the display is blanked (43 R603, R613). -/
theorem movesOe_columnTrace (c : Config) (m : Memory) (r col : Nat) : MovesOe false false (columnTrace c m r col) := by
  intro tr htr
  simp [columnTrace, oeAfter, htr]

/-- The end of a row closes the latch before it lights the row (43 R604, R605). -/
theorem movesOe_rowEnd (h h' h'' : Hold) : MovesOe false true [.hold h, .lat false, .hold h', .oe true, .hold h''] := by
  intro tr htr
  simp [oeAfter, htr]

/-- A row's events fall while the display is blanked, and it ends lit (43 R613). -/
theorem movesOe_rowTrace (c : Config) (m : Memory) (b : Bool) (r : Nat) : MovesOe b true (rowTrace c m r) := by
  rw [rowTrace_eq]
  exact ((movesOe_rowBegin b _).append (.flatMap (movesOe_columnTrace c m r) _)).append (movesOe_rowEnd _ _ _)

/-- A refresh's events fall while the display is blanked; it ends lit, or blanked where the parameter asks (43 R606). -/
theorem movesOe_refreshTrace (c : Config) (m : Memory) (b : Bool) :
    MovesOe b (!c.blankBetweenRefresh) (refreshTrace c m) := by
  have hrows : MovesOe b true ((List.range 32).flatMap (rowTrace c m)) := .flatMap_succ (movesOe_rowTrace c m) 31
  refine hrows.append fun tr htr => ?_
  cases c.blankBetweenRefresh
  · exact htr
  · simp [oeAfter, htr]

/-- Settles O40: what a refresh appends is disciplined after any disciplined trace, and leaves `OE` where the trace does. -/
theorem refreshShiftsOnlyWhileBlanked : Obligations.RefreshShiftsOnlyWhileBlanked := by
  intro s b hstep htrace
  have hoe : (scanRefresh s).outOe = !s.cfg.blankBetweenRefresh := by rw [scanRefresh_eq]
  refine ⟨scanRefresh s, exec_scanRefresh_of_lt hstep, ?_⟩
  rw [scanRefresh_trace, hoe]
  exact movesOe_refreshTrace s.cfg s.fb b _ htrace

/-! ### Changes of the address -/

theorem writers_of_outAddr {i : Instr} (hi : .outAddr ∈ writes i) :
    i = .shiftSetup ∨ i = .shiftCell ∨ i = .scanRefresh ∨ i = .cycle ∨ i = .reset := by
  cases i <;> simp_all [writes, frameWrites, heldWrites]

/-- The sequencer runs SHIFT_SETUP in the scan phase only (30 R331). -/
theorem decodeSequencer_shiftSetup {p q : BitVec 3} (h : decodeSequencer p q = .ok .shiftSetup) :
    p = phaseScan ∧ q = stepShiftSetup := by
  revert h
  revert p q
  decide

/-- The composites and RESET have no word of the sequencer's (30 R330, R331). -/
theorem decodeSequencer_ne_composite (p q : BitVec 3) : decodeSequencer p q ≠ .ok .shiftCell
    ∧ decodeSequencer p q ≠ .ok .scanRefresh ∧ decodeSequencer p q ≠ .ok .cycle ∧ decodeSequencer p q ≠ .ok .reset := by
  revert p q
  decide

/-- Of the sequencer's words, SHIFT_SETUP's alone writes `ADDR` (43 R614). -/
theorem decodeSequencer_writes_outAddr {p q : BitVec 3} {i : Instr} (hi : decodeSequencer p q = .ok i)
    (hw : .outAddr ∈ writes i) : p = phaseScan ∧ q = stepShiftSetup ∧ i = .shiftSetup := by
  obtain ⟨hcell, hrefresh, hcycle, hreset⟩ := decodeSequencer_ne_composite p q
  obtain rfl | rfl | rfl | rfl | rfl := writers_of_outAddr hw
  · obtain ⟨hphase, hstep⟩ := decodeSequencer_shiftSetup hi
    exact ⟨hphase, hstep, rfl⟩
  · exact absurd hi hcell
  · exact absurd hi hrefresh
  · exact absurd hi hcycle
  · exact absurd hi hreset

/-- The cells of a row of a legal frame are the row's (30 R310). -/
theorem frameLegal_row {m : Memory} (hm : frameLegal m) {r col : Nat} (hr : r < 32) (hc : col < 32) :
    legalCell r (Memory.read m (cellIndex r col)) := by
  have hlegal := hm _ (cellIndex_lt hr hc)
  rwa [cellIndex_div _ _ hc] at hlegal

/-- The lines of a legal frame's cell carry the row's address (30 R310). -/
theorem fbRead_addr {s : State} (h : frameLegal s.fb) (row col : BitVec 5) :
    (decodeCellOf (fbRead row col s)).addr = romRow row.toNat :=
  legalCell_addr (frameLegal_row h row.isLt col.isLt)

/-- At a position of the scan past column 0, SHIFT_SETUP leaves `ADDR`, the row's address standing there already (43 R614). -/
theorem shiftSetup_changes_outAddr {s : State} (hlegal : frameLegal s.fb) (hstep : s.scanStep = stepShiftSetup)
    (hpos : scanPosition s) (hne : (shiftSetup s).outAddr ≠ s.outAddr) : s.scanCol = 0#5 ∧ s.outOe = false := by
  have hsetup : s.outLat = true ∧ s.outOe = false ∧ (0 < s.scanCol.toNat → s.outAddr = romRow s.scanRow.toNat) := by
    simpa [scanPosition, hstep, stepRowBegin, stepShiftSetup, stepShiftHigh, stepRowCommit, stepRowDwell] using hpos
  obtain ⟨-, hoe, haddr⟩ := hsetup
  refine ⟨?_, hoe⟩
  by_contra hcol
  have hpast : 0 < s.scanCol.toNat := by bv_omega
  exact hne ((fbRead_addr hlegal _ _).trans (haddr hpast).symm)

/-- A turn from which nothing is requested changes `ADDR` at the set-up of column 0 only, blanked before and after. -/
theorem sequencerTurn_changes_outAddr {s t : State} (hreq : s.request = none) (hlegal : frameLegal s.fb)
    (hpos : s.phase = phaseScan → scanPosition s) (h : sequencerTurn s = .next t) (hne : t.outAddr ≠ s.outAddr) :
    s.phase = phaseScan ∧ s.scanStep = stepShiftSetup ∧ s.scanCol = 0#5 ∧ s.outOe = false ∧ t.outOe = false := by
  obtain ⟨i, hfetch, hexec⟩ | rfl := sequencerTurn_next h
  case inr => exact absurd rfl hne
  rw [fetch_sequencer hreq] at hfetch
  rw [takeRequest_of_none hreq] at hexec
  have hw : .outAddr ∈ writes i := by
    by_contra hw
    exact hne (exec_sameElement (e := .outAddr) hexec hw (by decide))
  obtain ⟨hphase, hstep, rfl⟩ := decodeSequencer_writes_outAddr hfetch hw
  obtain rfl := Host.Outcome.next.inj hexec
  obtain ⟨hcol, hoe⟩ := shiftSetup_changes_outAddr hlegal hstep (hpos hphase) hne
  exact ⟨hphase, hstep, hcol, hoe, hoe⟩

/-- Settles O59: a tick leaves `ADDR`, and the sequencer's turn, with a tick or without, changes it at one place only. -/
theorem addressChangesWhileBlanked : Obligations.AddressChangesWhileBlanked := by
  intro s t hrun h hne
  have hpos : s.phase = phaseScan → scanPosition s := fun hp => by simpa [hp] using hrun.position
  obtain ⟨cut, hturn, -⟩ | ⟨-, rfl⟩ | ⟨-, ht⟩ | ⟨-, ⟨u, hu, rfl⟩ | ht⟩ := step_next h
  · exact .inl ⟨cut, hturn⟩
  · exact absurd rfl hne
  · exact .inr (sequencerTurn_changes_outAddr (s := takeTurn s) hrun.noRequest hrun.legal hpos ht hne)
  · exact .inr (sequencerTurn_changes_outAddr (s := takeTurn s) (t := u) hrun.noRequest hrun.legal hpos hu hne)
  · exact .inr (sequencerTurn_changes_outAddr (s := tickCounters (takeTurn s)) hrun.noRequest hrun.legal hpos ht hne)

end Sys2Proof.Machine
end

section
/-! What the panel shows in a row's dwell: the observer of 43 R640 over the trace of one row (43 R610, R641, R642). -/

namespace Sys2Proof.Machine

open Sys2Proof.Safety

/-! ### The observer over a row -/

theorem watch_append (need : Nat) (p : Panel) (es es' : List PanelEvent) :
    p.watch need (es ++ es') = (p.watch need es).watch need es' := List.foldl_append

/-- The colour lines of a cell of the frame. -/
def cellRgb (m : Memory) (r col : Nat) : BitVec 6 := (decodeCellOf (Memory.read m (cellIndex r col))).rgb

/-- The clock low, no pulse broken so far, and set-up and high times as long as the panel needs: where every column begins
and ends (43 R642, 70 R1010). -/
structure KeepsTime (need : Nat) (c : Config) (p : Panel) : Prop where
  clockLow : p.sclk = false
  timely : p.timely = true
  setup : need ≤ c.cycles c.tSetup
  high : need ≤ c.cycles c.tSclkHigh

section
variable {need : Nat} {c : Config} {p : Panel}

/-- One column seen: its cell's colours are shifted in, its lines stand, and its pulse keeps the timing (43 R603, R640). -/
theorem watch_columnTrace (h : KeepsTime need c p) (m : Memory) (r col : Nat) : p.watch need (columnTrace c m r col) =
    { p with
      chain := cellRgb m r col :: p.chain.take 31
      lines := decodeCellOf (Memory.read m (cellIndex r col))
      stable := c.cycles c.tSetup + c.cycles c.tSclkHigh, high := 0 } := by
  obtain ⟨hlow, htimely, hsetup, hhigh⟩ := h
  simp [Panel.watch, columnTrace, Panel.observe, holdAtLeast, cellRgb, hlow, htimely, hsetup, hhigh]

/-- The columns of a row seen, at least one: the newest cell stands first in the chain. -/
theorem watch_columns (h : KeepsTime need c p) (m : Memory) (r : Nat) {n : Nat} (hn : n < 32) :
    p.watch need ((List.range (n + 1)).flatMap (columnTrace c m r)) =
      { p with
        chain := ((List.range (n + 1)).map (cellRgb m r)).reverse ++ p.chain.take (31 - n)
        lines := decodeCellOf (Memory.read m (cellIndex r n))
        stable := c.cycles c.tSetup + c.cycles c.tSclkHigh, high := 0 } := by
  induction n with
  | zero => exact watch_columnTrace h m r 0
  | succ n ih =>
    have hchain (l : List (BitVec 6)) : (((List.range (n + 1)).map (cellRgb m r)).reverse ++ l.take (31 - n)).take 31 =
        ((List.range (n + 1)).map (cellRgb m r)).reverse ++ l.take (31 - (n + 1)) := by
      rw [List.take_append, List.take_of_length_le (by simp; omega), List.take_take]
      simp only [List.length_reverse, List.length_map, List.length_range]
      rw [Nat.min_eq_left (by omega)]
    rw [List.range_succ, List.flatMap_append, watch_append, ih (by omega), List.flatMap_singleton,
      watch_columnTrace, hchain]
    · simp
    · exact ⟨h.clockLow, h.timely, h.setup, h.high⟩

/-- The panel lit with the 32 cells of a row in its latch, the last one's lines standing, and no pulse broken. -/
structure HoldsRow (m : Memory) (r : Nat) (p : Panel) : Prop where
  lit : p.oe = true
  timely : p.timely = true
  lines : p.lines = decodeCellOf (Memory.read m (cellIndex r 31))
  latch : p.latch = ((List.range 32).map (cellRgb m r)).reverse

/-- A row seen: the latch closes on the 32 cells of the row before the panel is lit (43 R610, R640). -/
theorem watch_rowTrace (h : KeepsTime need c p) (m : Memory) (r : Nat) :
    HoldsRow m r (p.watch need (rowTrace c m r)) := by
  have hopen : KeepsTime need c (p.watch need [.oe false, .hold (holdGap c c.tOeGap), .lat true]) :=
    ⟨h.clockLow, h.timely, h.setup, h.high⟩
  rw [rowTrace_eq, watch_append, watch_append, watch_columns hopen m r (n := 31) (by decide)]
  exact ⟨rfl, h.timely, rfl, List.append_nil _⟩

end

/-! ### The colours shown -/

section
variable {m : Memory} {r : Nat} {p : Panel}

/-- The address the panel sees in the dwell is the row's (43 R614). -/
theorem HoldsRow.addr (h : HoldsRow m r p) (hm : frameLegal m) (hr : r < 32) : p.lines.addr.toNat = r % 16 := by
  rw [h.lines, legalCell_addr (frameLegal_row hm hr (by decide)), romRow, BitVec.toNat_ofNat]
  omega

/-- Column `col` of the row stands at chain position `31 - col` (43 R641). -/
theorem HoldsRow.latch_getElem (h : HoldsRow m r p) {col : Nat} (hc : col < 32) :
    p.latch[31 - col]?.getD 0#6 = cellRgb m r col := by
  rw [h.latch, List.getElem?_reverse (by simp; omega)]
  have hpos : 32 - 1 - (31 - col) = col := by omega
  simp [hpos, hc]

/-- What holds of no colour and of every cell of the row holds at every chain position. -/
theorem HoldsRow.latch_forall (h : HoldsRow m r p) {q : BitVec 6 → Prop} (hnone : q 0#6)
    (hcell : ∀ col, col < 32 → q (cellRgb m r col)) (k : Nat) : q (p.latch[k]?.getD 0#6) := by
  rw [h.latch]
  cases hk : (((List.range 32).map (cellRgb m r)).reverse)[k]? with
  | none => exact hnone
  | some v =>
    obtain ⟨col, hcol, rfl⟩ := List.mem_map.mp (List.mem_reverse.mp (List.mem_of_getElem? hk))
    exact hcell col (List.mem_range.mp hcol)

/-- A legal cell of a top row has no bottom colour (40 R432). -/
theorem cellRgb_bottom_dark (hm : frameLegal m) (hr : r < 16) {col : Nat} (hc : col < 32) :
    (cellRgb m r col).extractLsb' 3 3 = 0#3 := by
  obtain ⟨c, hcell⟩ := frameLegal_row hm (r := r) (by omega) hc
  rw [cellRgb, hcell, resultCell, cellOf_rgb, halfOf, if_pos hr]
  cases c <;> rfl

/-- A legal cell of a bottom row has no top colour (40 R432). -/
theorem cellRgb_top_dark (hm : frameLegal m) (hr : r < 32) (hbottom : ¬ r < 16) {col : Nat} (hc : col < 32) :
    (cellRgb m r col).extractLsb' 0 3 = 0#3 := by
  obtain ⟨c, hcell⟩ := frameLegal_row hm hr hc
  rw [cellRgb, hcell, resultCell, cellOf_rgb, halfOf, if_neg hbottom]
  cases c <;> rfl

/-- The panel lit and in time shows the two rows of the address and no other (43 R640). -/
theorem HoldsRow.shows_eq (h : HoldsRow m r p) (hm : frameLegal m) (hr : r < 32) (row k : Nat) : p.shows row k =
    if row = r % 16 then (p.latch[k]?.getD 0#6).extractLsb' 0 3
    else if row = r % 16 + 16 then (p.latch[k]?.getD 0#6).extractLsb' 3 3 else 0#3 := by
  simp [Panel.shows, h.lit, h.timely, h.addr hm hr]

/-- The row itself shows its half's triplet of each of its cells (43 R641). -/
theorem HoldsRow.shows_row (h : HoldsRow m r p) (hm : frameLegal m) (hr : r < 32) {col : Nat} (hc : col < 32) :
    p.shows r (31 - col) =
      if r < 16 then (cellRgb m r col).extractLsb' 0 3 else (cellRgb m r col).extractLsb' 3 3 := by
  rw [h.shows_eq hm hr, h.latch_getElem hc]
  by_cases htop : r < 16
  · rw [if_pos (by omega), if_pos htop]
  · rw [if_neg (by omega), if_pos (by omega), if_neg htop]

/-- Every other row is dark: the address does not select it, or it is of the half whose colours the row's cells lack (43
R641). -/
theorem HoldsRow.shows_other (h : HoldsRow m r p) (hm : frameLegal m) (hr : r < 32) {row : Nat} (hrow : row ≠ r) (k : Nat) :
    p.shows row k = 0#3 := by
  rw [h.shows_eq hm hr]
  by_cases htop : r < 16
  · rw [if_neg (by omega)]
    split
    · exact h.latch_forall (q := fun v => v.extractLsb' 3 3 = 0#3) rfl (fun _ => cellRgb_bottom_dark hm htop) k
    · rfl
  · split
    · exact h.latch_forall (q := fun v => v.extractLsb' 0 3 = 0#3) rfl (fun _ => cellRgb_top_dark hm hr htop) k
    · rw [if_neg (by omega)]

end

/-- Three neighbouring colour lines are three neighbouring bits of the cell (30 R302). -/
theorem decodeCellOf_rgb_extractLsb' (w : Cell) {k : Nat} (hk : k + 3 ≤ 6) :
    (decodeCellOf w).rgb.extractLsb' k 3 = w.extractLsb' (4 + k) 3 := by
  refine BitVec.eq_of_getLsbD_eq fun i hi => ?_
  rw [BitVec.getLsbD_extractLsb', BitVec.getLsbD_extractLsb', decodeCellOf_rgb_getLsbD w (by omega), Nat.add_assoc]

/-- The top triplet of a cell is its bits 6:4 (30 R302). -/
theorem cellRgb_top (m : Memory) (r col : Nat) :
    (cellRgb m r col).extractLsb' 0 3 = (Memory.read m (cellIndex r col)).extractLsb' 4 3 :=
  decodeCellOf_rgb_extractLsb' _ (by decide)

/-- The bottom triplet of a cell is its bits 9:7 (30 R302). -/
theorem cellRgb_bottom (m : Memory) (r col : Nat) :
    (cellRgb m r col).extractLsb' 3 3 = (Memory.read m (cellIndex r col)).extractLsb' 7 3 :=
  decodeCellOf_rgb_extractLsb' _ (by decide)

/-! ### The row's steps, and the configuration's minima -/

/-- A longer time is at least as many cycles (00_scope R15). -/
theorem cycles_mono (c : Config) {t t' : Nat} (h : t ≤ t') : c.cycles t ≤ c.cycles t' :=
  Nat.div_le_div_right (Nat.add_le_add_right (Nat.mul_le_mul_right _ h) _)

/-- The minima of the configuration are the panel's 1 µs (43 R642, 70 R1010). -/
theorem keepsTime_of_wellFormed {c : Config} {p : Panel} (hc : c.wellFormed = true) (hlow : p.sclk = false)
    (htimely : p.timely = true) : KeepsTime (c.cycles 1000) c p := by
  have hmin : 1000 ≤ c.tSclkHigh ∧ 1000 ≤ c.tSetup := by
    simp only [Config.wellFormed, Bool.and_eq_true, decide_eq_true_eq] at hc
    omega
  obtain ⟨hhigh, hsetup⟩ := hmin
  exact ⟨hlow, htimely, cycles_mono c hsetup, cycles_mono c hhigh⟩

/-- What a row appends to the trace: its events, and after the last row the end of the refresh (43 R606, R610). -/
theorem refreshRow_trace {r : Nat} (hr : r < 32) (s : State) : (refreshRow s r).trace =
    ((rowTrace s.cfg s.fb r
      ++ (if r = 31 ∧ s.cfg.blankBetweenRefresh = true then [PanelEvent.oe false] else [])).map Event.panel).reverse
      ++ s.trace := by
  by_cases hlast : r = 31
  · subst hlast
    rw [refreshRow_last]
    simp
  · rw [refreshRow_eq r (by omega), if_neg fun h => hlast h.1, List.append_nil]

/-- Settles O41: the 67 turns are the row of the refresh, and the panel that has watched its trace holds the row. -/
theorem dwellShowsTheRowAlone : Obligations.DwellShowsTheRowAlone := by
  intro s p colMap hcfg hreq hphase hstep hm hlow htimely
  have hrow : s.scanRow = BitVec.ofNat 5 s.scanRow.toNat := by rw [BitVec.ofNat_toNat, BitVec.setWidth_eq]
  have hstart : AtRow s.scanRow.toNat s := { noRequest := hreq, phase := hphase, scanStep := hstep, row := hrow }
  have hlast : s.scanRow = 31#5 ↔ s.scanRow.toNat = 31 := BitVec.toNat_inj.symm
  have hr : s.scanRow.toNat < 32 := s.scanRow.isLt
  have hholds := watch_rowTrace (keepsTime_of_wellFormed hcfg hlow htimely) s.fb s.scanRow.toNat
  have hevents (es : List PanelEvent) : panelEvents ((es.map Event.panel).reverse).reverse = es := by
    rw [List.reverse_reverse, panelEvents_map_panel]
  refine ⟨_, _, _, _, hstart.turns, refreshRow_trace hr s, hevents _, rfl, ?_, fun x col hc hx => ?_, fun row x hne => ?_⟩
  · simp only [hlast]
  · rw [Panel.pixel, hx, hholds.shows_row hm hr hc, cellRgb_top, cellRgb_bottom]
    rfl
  · exact hholds.shows_other hm hr hne (colMap x)

end Sys2Proof.Machine
end

section
/-! The cooldowns: TICK as an operation and as a turn, ticks in a row, and a tick in the cycle of a reload (44 R710 to R713). -/

namespace Sys2Proof.Machine

open Sys2Proof.Safety

theorem exec_tick (s : State) : exec .tick s = .next (tickCounters s) := rfl

/-- A tick's own turn runs TICK. -/
theorem step_of_tick {s : State} (h : nextTurn s = .tick) : step s = exec .tick (takeTurn s) := by
  simp only [step, h]

/-- Settles O7: the counters count down, and a tick's own turn is the operation after the turn is spent. -/
theorem tickDecrementsBothCounters : Obligations.TickDecrementsBothCounters :=
  ⟨exec_tick, fun s h => (step_of_tick h).trans (exec_tick (takeTurn s))⟩

/-! ### Ticks in a row -/

/-- One tick more, at the start. -/
theorem afterTicks_succ (n : Nat) (s : State) : afterTicks (n + 1) s = afterTicks n (tickCounters s) := rfl

/-- Ticks in a row are as many countdowns of each counter. -/
theorem afterTicks_eq (n : Nat) (s : State) :
    afterTicks n s = .next { s with cdNotify := countDown^[n] s.cdNotify, cdPoll := countDown^[n] s.cdPoll } := by
  induction n generalizing s with
  | zero => rfl
  | succ n ih => rw [afterTicks_succ, ih]; rfl

/-- The cooldown law for one counter: `n` countdowns floor at 0 (44 R713). -/
theorem countDown_iterate_toNat (n : Nat) (v : BitVec 16) : (countDown^[n] v).toNat = v.toNat - n := by
  induction n generalizing v with
  | zero => rfl
  | succ n ih =>
    rw [Function.iterate_succ_apply, ih, countDown_toNat]
    omega

/-- Settles O8: both counters follow the cooldown law, and a truncated difference is at most what it is taken from. -/
theorem cooldownFloorsAtZero : Obligations.CooldownFloorsAtZero := by
  intro n s
  have hlaw := countDown_iterate_toNat n
  refine ⟨_, _, afterTicks_eq n s, ?_, ?_, ?_, ?_⟩
  · rw [hlaw, Nat.zero_max]
  · rw [hlaw, Nat.zero_max]
  · exact hlaw s.cdNotify ▸ Nat.sub_le ..
  · exact hlaw s.cdPoll ▸ Nat.sub_le ..

/-! ### A tick in the cycle of a reload -/

theorem exec_notifySend (s : State) : exec .notifySend s = .next (notifySend s) := rfl

theorem exec_pollExchange (s : State) : exec .pollExchange s = .next (pollExchange s) := rfl

/-- NOTIFY_SEND reloads its own counter and leaves the other (44 R730). -/
theorem notifySend_cooldowns (s : State) :
    (notifySend s).cdNotify = s.cfg.cooldownNotify ∧ (notifySend s).cdPoll = s.cdPoll := by
  rw [notifySend_eq]
  exact ⟨rfl, rfl⟩

/-- POLL_EXCHANGE reloads its own counter and leaves the other (44 R735). -/
theorem pollExchange_cooldowns (s : State) :
    (pollExchange s).cdPoll = s.cfg.cooldownPoll ∧ (pollExchange s).cdNotify = s.cdNotify := by
  rw [pollExchange_eq]
  exact ⟨rfl, rfl⟩

/-- A tick in the cycle of an operation the sequencer's word selects, other than SELECT, comes before it (log entry 6). -/
theorem step_sequencerWithTick_of_ne_select {s : State} {i : Instr} (hturn : nextTurn s = .sequencerWithTick)
    (hreq : s.request = none) (hi : decodeSequencer s.phase s.scanStep = .ok i) (hne : i ≠ .select) :
    step s = exec i (tickCounters (takeTurn s)) := by
  have hfetch : fetch (takeTurn s) = .ok i := (fetch_sequencer (s := takeTurn s) hreq).trans hi
  have hticked : fetch (tickCounters (takeTurn s)) = .ok i := hfetch
  have hselect : fetch (takeTurn s) ≠ .ok .select := fun h => hne (Except.ok.inj (hfetch.symm.trans h))
  calc step s
      = sequencerTurnWithTick (takeTurn s) := step_of_sequencerWithTick hturn
    _ = sequencerTurn (tickCounters (takeTurn s)) := if_neg hselect
    _ = exec i (takeRequest (tickCounters (takeTurn s))) := sequencerTurn_of_fetch hticked
    _ = exec i (tickCounters (takeTurn s)) := by rw [takeRequest_of_none (s := tickCounters (takeTurn s)) hreq]

/-- Settles O9: the tick comes first, so the reload overwrites one of the counters it left and keeps the other. -/
theorem reloadWinsOverTick : Obligations.ReloadWinsOverTick := by
  refine ⟨fun s hturn hreq hp => ?notify, fun s hturn hreq hp => ?poll⟩
  case notify =>
    obtain ⟨hreload, hother⟩ := notifySend_cooldowns (tickCounters (takeTurn s))
    have hstep := step_sequencerWithTick_of_ne_select hturn hreq (i := .notifySend) (hp ▸ rfl) nofun
    exact ⟨_, hstep.trans (exec_notifySend _), hreload, hother ▸ countDown_toNat s.cdPoll⟩
  case poll =>
    obtain ⟨hreload, hother⟩ := pollExchange_cooldowns (tickCounters (takeTurn s))
    have hstep := step_sequencerWithTick_of_ne_select hturn hreq (i := .pollExchange) (hp ▸ rfl) nofun
    exact ⟨_, hstep.trans (exec_pollExchange _), hreload, hother ▸ countDown_toNat s.cdNotify⟩

end Sys2Proof.Machine
end

section
/-! The protocol client's operations one at a time: SELECT, the byte framer, the two exchanges and POLL_ACCEPT (44 R720 to
R752). -/

namespace Sys2Proof.Machine

open Sys2Proof.Safety

/-! ### SELECT -/

theorem exec_select (s : State) : exec .select s = .next (select s) := rfl

/-- Settles O43: what SELECT does, the branches told apart by a button held and not by none. -/
theorem selectTakesOneBranch : Obligations.SelectTakesOneBranch := by
  intro s
  rw [exec_select, select_eq]
  simp only [ne_eq, ite_not]
  rfl

/-! ### The byte framer -/

/-- A bit of the byte at `LINK_BYTE`, where the buffers have that byte, is exchanged and returned (44 R743, log entry 18). -/
theorem exec_xferBit_of_byte {s : State} (h : s.linkByte.toNat ≤ 10) (b : BitVec 3) : exec (.xferBit b) s = .next { s with
    outMosi := (FrameBuf.byte s.txBuf s.linkByte.toNat).getLsbD b.toNat
    outSck := false, linkBit := b, waitCnt := 0, env := envAfterBits 1 s.env, ret := .bit (nextMiso s)
    trace := ((bitTrace s.cfg ((FrameBuf.byte s.txBuf s.linkByte.toNat).getLsbD b.toNat) (nextMiso s)).map Event.link).reverse
      ++ ((sckGap s.trace).map Event.link ++ s.trace) } := by
  simp only [exec, execXferBit, if_neg (Nat.not_lt.mpr h), xferBit_eq]
  rfl

/-- Settles O44: the trace of one bit, event by event. -/
theorem xferBitExchangesOneBit : Obligations.XferBitExchangesOneBit := by
  intro b s h
  rw [exec_xferBit_of_byte h, ← List.append_assoc]
  rfl

/-- XFER_BYTE of a byte the buffers have. -/
theorem exec_xferByte_of_byte {k : BitVec 4} (h : k.toNat ≤ 10) (s : State) :
    exec (.xferByte k) s = .next (xferByte k.toNat s) := if_neg (Nat.not_lt.mpr h)

/-- What `buildByte` builds from bit `n - 1` down: the bits received, the first one highest, over the bits it started with. -/
theorem buildByte_getLsbD {n : Nat} {l : List Bool} (hl : l.length = n) (rx : Byte) {i : Nat} (hi : i < 8) :
    (buildByte n rx l).getLsbD i = (rx.getLsbD i || decide (i < n) && l.getD (n - 1 - i) false) := by
  induction l generalizing n rx with
  | nil =>
    subst hl
    simp [buildByte]
  | cons v l ih =>
    subst hl
    have hset : (if v then rx ||| (1#8 <<< l.length) else rx).getLsbD i = (rx.getLsbD i || decide (i = l.length) && v) := by
      cases v <;> simp [← BitVec.twoPow_eq, hi]
    rw [List.length_cons, buildByte, ih rfl, hset, Bool.or_assoc]
    congr 1
    obtain hlt | rfl | hgt := Nat.lt_trichotomy i l.length
    · have hrest : l.length + 1 - 1 - i = l.length - 1 - i + 1 := by omega
      rw [hrest, List.getD_cons_succ]
      simp [hlt, hlt.ne, Nat.lt_succ_of_lt hlt]
    · simp
    · simp [hgt.ne', hgt.not_gt, Nat.not_lt.mpr hgt]

/-- Settles O45: XFER_BYTE puts one byte into `RX_BUF`, built from the eight bits sampled. -/
theorem xferByteStoresTheByteReceived : Obligations.XferByteStoresTheByteReceived := by
  intro k s hk
  refine ⟨buildByte 8 0#8 (misoBits 8 s.env), fun b hb => ?bits, ?next⟩
  case bits =>
    rw [buildByte_getLsbD (misoBits_length 8 s.env) _ hb, BitVec.getLsbD_zero, decide_eq_true hb, Bool.false_or, Bool.true_and]
  case next =>
    rw [exec_xferByte_of_byte hk, xferByte_eq]
    rfl

/-- Settles O46: a legal length is one of the two the configuration holds, and XFER does the same with either. -/
theorem xferExchangesOneFrame : Obligations.XferExchangesOneFrame := by
  intro n s hn
  have hexec := exec_xfer_of_frameLength hn
  obtain ⟨l, rfl⟩ : ∃ l : FrameLength, n = l.bytes := hn.elim (⟨_, ·⟩) (⟨_, ·⟩)
  rw [hexec, xfer_length_eq]

/-! ### NOTIFY_SEND -/

/-- Settles O49: the frame NOTIFY_SEND fills `TX_BUF` with, byte by byte, and the defaults of 00_scope R13. -/
theorem notifySendsTheMask : Obligations.NotifySendsTheMask := by
  refine ⟨fun s => ⟨_, fill_notifyBytes s.cfg s.txBuf s.btnSample, ?next, ?sent⟩, rfl, rfl, rfl⟩
  case next =>
    rw [exec_notifySend, notifySend_eq]
    rfl
  case sent =>
    rw [firstBytes_notify]
    simp [notifyBytes, BitVec.setWidth_eq_append]

/-! ### POLL_ACCEPT and POLL_EXCHANGE -/

/-- A byte the buffers have. -/
theorem FrameBuf.byte_eq_getElem (b : FrameBuf) {k : Nat} (hk : k < 11) : FrameBuf.byte b k = b[k] := by
  rw [FrameBuf.byte, Vector.getElem?_eq_getElem hk, Option.getD_some]

/-- The header match of 44 R751: bytes 4 and 5 of `RX_BUF`. -/
theorem rspOk_iff (s : State) : rspOk s = true ↔ s.rxBuf[4] = s.cfg.sync ∧ s.rxBuf[5] = s.cfg.cmdReady := by
  simp [rspOk, FrameBuf.byte_eq_getElem]

/-- POLL_ACCEPT: everything it does, each register by the header match (44 R750, R751). -/
theorem pollAccept_eq (s : State) : pollAccept s = { s with
    heldCheck := if s.rxBuf[4] = s.cfg.sync ∧ s.rxBuf[5] = s.cfg.cmdReady then s.rxBuf[6] else s.heldCheck
    heldBits :=
      if s.rxBuf[4] = s.cfg.sync ∧ s.rxBuf[5] = s.cfg.cmdReady then s.rxBuf[7] ++ s.rxBuf[8] ++ s.rxBuf[9] else s.heldBits
    heldPos := if s.rxBuf[4] = s.cfg.sync ∧ s.rxBuf[5] = s.cfg.cmdReady then s.rxBuf[10] else s.heldPos } := by
  simp only [pollAccept, rspOk_iff, FrameBuf.byte_eq_getElem, Nat.reduceLT, bitfieldOf]

theorem exec_pollAccept (s : State) : exec .pollAccept s = .next (pollAccept s) := rfl

/-- Settles O51: the one header match decides all three held registers. -/
theorem pollAcceptIsTheHeaderMatch : Obligations.PollAcceptIsTheHeaderMatch := by
  refine ⟨fun s => ?next, rfl, rfl⟩
  rw [exec_pollAccept, pollAccept_eq]
  by_cases h : s.rxBuf[4] = s.cfg.sync ∧ s.rxBuf[5] = s.cfg.cmdReady
  · simp only [if_pos h]
  · simp only [if_neg h]

/-- Settles O50: POLL_EXCHANGE ends with POLL_ACCEPT on what came back, and only the held registers depend on that. -/
theorem pollExchangeLatchesAValidAnswer : Obligations.PollExchangeLatchesAValidAnswer := by
  refine ⟨fun s => ⟨_, _, fill_pollRequestBytes s.cfg s.txBuf, rfl, ?next⟩, rfl, rfl, rfl, rfl⟩
  rw [exec_pollExchange, pollExchange_eq, pollAccept_eq]
  rfl

end Sys2Proof.Machine
end

section
/-! A running block keeps running: every operation the sequencer runs from a running block leaves one, and so do a tick and a
reset, wherever it cuts (43 R613, R615, 45 R807, 60 R901). -/

namespace Sys2Proof.Safety

open Sys2Proof.Machine

section
variable {s : State}

/-! ### What a running block gives its operations -/

theorem Running.invLive (h : Running s) : InvLive s := { h.inv with noFault := h.noFault }

theorem Running.scan_position (h : Running s) (hp : s.phase = phaseScan) : scanPosition s := by
  simpa [hp] using h.position

theorem Running.rest_position (h : Running s) (hp : s.phase ≠ phaseScan) : restPosition s := by
  simpa [hp] using h.position

/-- A running block is in one of the six phases that run (30 R330). -/
theorem Running.phase_cases (h : Running s) : s.phase = phaseInit ∨ s.phase = phaseSelect ∨ s.phase = phaseNotify
    ∨ s.phase = phasePoll ∨ s.phase = phaseMap ∨ s.phase = phaseScan := by
  have hle := h.phaseLegal
  generalize s.phase = p at hle
  revert hle p
  decide

/-! ### The discipline of `OE` along a trace -/

/-- Link events are nothing to the panel. -/
theorem oeAfter_map_link (es : List LinkEvent) (tr : List Event) :
    oeAfter ((es.map Event.link).reverse ++ tr) = oeAfter tr := by
  rw [← List.map_reverse]
  generalize es.reverse = l
  induction l with
  | nil => rfl
  | cons e l ih => exact ih

/-- What came before a disciplined trace was disciplined. -/
theorem oeAfter_of_append {l tr : List Event} {b : Bool} (h : oeAfter (l ++ tr) = some b) : ∃ b', oeAfter tr = some b' := by
  induction l generalizing b with
  | nil => exact ⟨b, h⟩
  | cons e l ih =>
    cases hl : oeAfter (l ++ tr) with
    | some b' => exact ih hl
    | none =>
      rw [List.cons_append] at h
      match e with
      | .panel (.oe _) | .panel (.hold _) | .panel (.lines _) | .panel (.sclk _) | .panel (.lat _) | .link _ =>
        simp [oeAfter, hl] at h

/-- A reset blanks before it drives any other line, so it may follow any disciplined trace (70 R1001). -/
theorem oeAfter_resetTrace {tr : List Event} {b : Bool} (h : oeAfter tr = some b) :
    oeAfter (resetTrace ++ tr) = some false := by
  simp [resetTrace, oeAfter, h]

/-! ### The phases outside the scan -/

theorem Running.after_initFrame (h : Running s) (hp : s.phase = phaseInit) : Running (initFrame s) := by
  have hinv := h.invLive.after_exec (exec_init s)
  have hfill : frameLegal (fillIdle s.fb) := fun a _ => read_fillIdle h.inv.memory a ▸ idleCell_legal (a / 32)
  have hrest := h.rest_position (by rw [hp]; decide)
  rw [initFrame_eq] at hinv ⊢
  generalize fillIdle s.fb = m at hinv hfill
  exact { h with inv := hinv, phaseLegal := show phaseSelect.toNat ≤ 5 by decide, position := hrest, legal := hfill }

/-- SELECT moves on to one of three phases outside the scan (44 R720). -/
theorem Running.after_select (h : Running s) (hp : s.phase = phaseSelect) : Running (select s) := by
  have hinv := h.invLive.after_exec (exec_select s)
  have hrest := h.rest_position (by rw [hp]; decide)
  have hphase : (select s).phase.toNat ≤ 5 ∧ (select s).phase ≠ phaseScan := by
    obtain he | he | he := select_phase s <;> rw [he] <;> decide
  obtain ⟨hlegal, hscan⟩ := hphase
  rw [select_eq] at hinv hlegal hscan ⊢
  exact { h with inv := hinv, phaseLegal := hlegal, position := by rw [if_neg hscan]; exact hrest }

theorem Running.after_notifySend (h : Running s) (hp : s.phase = phaseNotify) : Running (notifySend s) := by
  have hinv := h.invLive.after_exec (exec_notifySend s)
  have hrest := h.rest_position (by rw [hp]; decide)
  rw [notifySend_eq] at hinv ⊢
  exact { h with
    inv := hinv, phaseLegal := show phaseMap.toNat ≤ 5 by decide, position := hrest, deselected := rfl, linkClockLow := rfl
    blanked := (oeAfter_map_link _ _).trans h.blanked }

theorem Running.after_pollExchange (h : Running s) (hp : s.phase = phasePoll) : Running (pollExchange s) := by
  have hinv := h.invLive.after_exec (exec_pollExchange s)
  have hrest := h.rest_position (by rw [hp]; decide)
  rw [pollExchange_eq] at hinv ⊢
  exact { h with
    inv := hinv, phaseLegal := show phaseMap.toNat ≤ 5 by decide, position := hrest, deselected := rfl, linkClockLow := rfl
    blanked := (oeAfter_map_link _ _).trans h.blanked }

/-- The mapper paints legal cells, and leaves legal cells elsewhere (42 R503). -/
theorem frameLegal_paintSensors {m : Memory} (hwf : Memory.wf m = true) (hm : frameLegal m) (t : RegionTable)
    (bits : BitVec 24) (pos : Byte) : frameLegal (paintSensors t bits pos (List.range 24) m) := by
  intro a ha
  rw [read_paintSensors t bits pos _ (fun _ => List.mem_range.mp) hwf]
  split
  · exact ⟨_, rfl⟩
  · exact hm a ha

/-- MAP_ALL goes on to the start of the scan (42 R504). -/
theorem Running.after_mapAll (h : Running s) (hp : s.phase = phaseMap) : Running (mapAll s) := by
  have hinv := h.invLive.after_exec (exec_mapAll s)
  obtain ⟨hstep, -, -, hlat⟩ := h.rest_position (by rw [hp]; decide)
  have hlegal := frameLegal_paintSensors h.inv.memory h.legal s.cfg.regionTable s.heldBits s.heldPos
  rw [mapAll_eq] at hinv ⊢
  generalize paintSensors _ _ _ _ _ = m at hinv hlegal
  exact { h with inv := hinv, phaseLegal := show phaseScan.toNat ≤ 5 by decide, position := .inl ⟨hstep, hlat⟩, legal := hlegal }

/-! ### The steps of the scan -/

theorem position_of_scan {t : State} (hp : t.phase = phaseScan) (h : scanPosition t) :
    if t.phase = phaseScan then scanPosition t else restPosition t := by
  rwa [if_pos hp]

/-- ROW_BEGIN blanks, then opens the latch at column 0, where `ADDR` may still be another row's (43 R602, R614). -/
theorem Running.after_rowBegin (h : Running s) (hp : s.phase = phaseScan) : Running (rowBegin s) := by
  have hinv := h.invLive.after_exec (exec_rowBegin s)
  rw [rowBegin_eq] at hinv ⊢
  exact { h with
    inv := hinv
    position := position_of_scan hp (.inr (.inl ⟨rfl, rfl, rfl, fun hcol => absurd hcol (Nat.lt_irrefl 0)⟩))
    blanked := movesOe_rowBegin _ _ _ h.blanked }

/-- SHIFT_SETUP drives a legal cell's lines, so `ADDR` is the row's after it (43 R603, R614). -/
theorem Running.after_shiftSetup (h : Running s) (hp : s.phase = phaseScan) (hlat : s.outLat = true)
    (hoe : s.outOe = false) : Running (shiftSetup s) := by
  have hinv := h.invLive.after_exec (exec_shiftSetup s)
  have haddr : (cellLinesAt s s.scanRow.toNat s.scanCol.toNat).addr = romRow s.scanRow.toNat :=
    fbRead_addr h.legal s.scanRow s.scanCol
  have htrace := h.blanked
  rw [shiftSetup_eq] at hinv ⊢
  exact { h with
    inv := hinv
    position := position_of_scan hp (.inr (.inr (.inl ⟨rfl, hlat, hoe, haddr⟩)))
    blanked := by simp [oeAfter, htrace, hoe] }

/-- SHIFT_HIGH goes on to the next column, or past the last one to ROW_COMMIT (43 R603). -/
theorem Running.after_shiftHigh (h : Running s) (hp : s.phase = phaseScan) (hlat : s.outLat = true)
    (hoe : s.outOe = false) (haddr : s.outAddr = romRow s.scanRow.toNat) : Running (shiftHigh s) := by
  have hinv := h.invLive.after_exec (exec_shiftHigh s)
  have htrace := h.blanked
  rw [shiftHigh_eq] at hinv ⊢
  refine { h with
    inv := hinv, position := position_of_scan hp ?position, clockLow := rfl
    blanked := by simp [oeAfter, htrace, hoe] }
  by_cases hcol : s.scanCol.toNat < 31
  · exact .inr (.inl ⟨if_pos hcol, hlat, hoe, fun _ => haddr⟩)
  · have hlast : s.scanCol = 31#5 := by bv_omega
    exact .inr (.inr (.inr (.inl ⟨if_neg hcol, hlat, hoe, haddr, (if_neg hcol).trans hlast⟩)))

/-- ROW_COMMIT closes the latch while the row is still dark (43 R604). -/
theorem Running.after_rowCommit (h : Running s) (hp : s.phase = phaseScan) (hoe : s.outOe = false)
    (haddr : s.outAddr = romRow s.scanRow.toNat) (hcol : s.scanCol = 31#5) : Running (rowCommit s) := by
  have hinv := h.invLive.after_exec (exec_rowCommit s)
  have htrace := h.blanked
  rw [rowCommit_eq] at hinv ⊢
  exact { h with
    inv := hinv
    position := position_of_scan hp (.inr (.inr (.inr (.inr ⟨rfl, rfl, hoe, haddr, hcol⟩))))
    blanked := by simp [oeAfter, htrace, hoe] }

/-- ROW_DWELL goes on to the next row, or past the last one to SELECT, at rest (43 R605, R606). -/
theorem Running.after_rowDwell (h : Running s) (hp : s.phase = phaseScan) (hlat : s.outLat = false) :
    Running (rowDwell s) := by
  have hinv := h.invLive.after_exec (exec_rowDwell s)
  have htrace := h.blanked
  by_cases hrow : s.scanRow.toNat < 31
  · rw [rowDwell_eq s hrow] at hinv ⊢
    exact { h with
      inv := hinv, position := position_of_scan hp (.inl ⟨rfl, hlat⟩)
      blanked := by simp [oeAfter, htrace] }
  · rw [rowDwell_last s hrow] at hinv ⊢
    exact { h with
      inv := hinv, phaseLegal := show phaseSelect.toNat ≤ 5 by decide, position := ⟨rfl, rfl, rfl, hlat⟩
      blanked := by cases s.cfg.blankBetweenRefresh <;> simp [oeAfter, htrace] }

/-! ### Turns and steps -/

theorem Running.after_takeTurn (h : Running s) : Running (takeTurn s) := { h with inv := h.inv.after_takeTurn }

theorem Running.after_tickCounters (h : Running s) : Running (tickCounters s) :=
  { h with inv := h.inv.after_tickCounters }

/-- What phase and step select goes on, and leaves the block running. -/
theorem Running.exec_next (h : Running s) :
    ∃ i t, decodeSequencer s.phase s.scanStep = .ok i ∧ exec i s = .next t ∧ Running t := by
  obtain hp | hp | hp | hp | hp | hp := h.phase_cases
  · exact ⟨.init, _, by rw [hp]; rfl, exec_init s, h.after_initFrame hp⟩
  · exact ⟨.select, _, by rw [hp]; rfl, exec_select s, h.after_select hp⟩
  · exact ⟨.notifySend, _, by rw [hp]; rfl, exec_notifySend s, h.after_notifySend hp⟩
  · exact ⟨.pollExchange, _, by rw [hp]; rfl, exec_pollExchange s, h.after_pollExchange hp⟩
  · exact ⟨.mapAll, _, by rw [hp]; rfl, exec_mapAll s, h.after_mapAll hp⟩
  · obtain ⟨hs, -⟩ | ⟨hs, hlat, hoe, -⟩ | ⟨hs, hlat, hoe, haddr⟩ | ⟨hs, -, hoe, haddr, hcol⟩ | ⟨hs, hlat, -⟩ :=
      h.scan_position hp
    · exact ⟨.rowBegin, _, by rw [hp, hs]; rfl, exec_rowBegin s, h.after_rowBegin hp⟩
    · exact ⟨.shiftSetup, _, by rw [hp, hs]; rfl, exec_shiftSetup s, h.after_shiftSetup hp hlat hoe⟩
    · exact ⟨.shiftHigh, _, by rw [hp, hs]; rfl, exec_shiftHigh s, h.after_shiftHigh hp hlat hoe haddr⟩
    · exact ⟨.rowCommit, _, by rw [hp, hs]; rfl, exec_rowCommit s, h.after_rowCommit hp hoe haddr hcol⟩
    · exact ⟨.rowDwell, _, by rw [hp, hs]; rfl, exec_rowDwell s, h.after_rowDwell hp hlat⟩

/-- A running block's turn goes on, and the block runs after it (45 R807). -/
theorem Running.sequencerTurn_next (h : Running s) : ∃ t, sequencerTurn s = .next t ∧ Running t := by
  obtain ⟨i, t, hi, hexec, ht⟩ := h.exec_next
  refine ⟨t, ?_, ht⟩
  rw [sequencerTurn_of_fetch ((fetch_sequencer h.noRequest).trans hi), takeRequest_of_none h.noRequest, hexec]

/-- So does its turn with a tick, which comes after SELECT and before anything else (log entry 6). -/
theorem Running.sequencerTurnWithTick_next (h : Running s) : ∃ t, sequencerTurnWithTick s = .next t ∧ Running t := by
  by_cases hf : fetch s = .ok .select
  · obtain ⟨u, hu, hrun⟩ := h.sequencerTurn_next
    refine ⟨tickCounters u, ?_, hrun.after_tickCounters⟩
    rw [sequencerTurnWithTick, if_pos hf, hu, tickAfter]
  · obtain ⟨t, ht, hrun⟩ := h.after_tickCounters.sequencerTurn_next
    exact ⟨t, (if_neg hf).trans ht, hrun⟩

/-- Wherever a reset cuts the operation it interrupts, the trace so far is disciplined: it is the end of one that is. -/
theorem oeAfter_abandon (cut : Nat) {o : Outcome} {b : Bool} (hs : oeAfter s.trace = some b)
    (ho : ∀ t, o = .next t → ∃ b', oeAfter t.trace = some b') : ∃ b', oeAfter (abandon cut s o).trace = some b' := by
  unfold abandon
  split
  · exact ⟨b, hs⟩
  · split
    · next t =>
      obtain ⟨b', hb⟩ := ho t rfl
      exact oeAfter_of_append ((List.take_append_drop _ t.trace).symm ▸ hb)
    · exact ⟨b, hs⟩
    · exact ⟨b, hs⟩

/-- After a reset that finds a disciplined trace, the block runs (70 R1000, R1001). -/
theorem running_resetState {b : Bool} (hc : s.cfg.wellFormed = true) (ht : oeAfter s.trace = some b) :
    Running (resetState s) where
  inv := inv_resetState hc
  noRequest := rfl
  noFault := rfl
  phaseLegal := show phaseInit.toNat ≤ 5 by decide
  position := ⟨rfl, rfl, rfl, rfl⟩
  clockLow := rfl
  deselected := rfl
  linkClockLow := rfl
  legal a _ := idleCell_legal (a / 32)
  blanked := oeAfter_resetTrace ht

/-- A reset of a running block, wherever it cuts the operation of its turn, leaves a running block (60 R921, log entry 7). -/
theorem Running.after_reset (h : Running s) (cut : Nat) : Running (resetState (abandon cut s (sequencerTurn s))) := by
  obtain ⟨t, ht, hrun⟩ := h.sequencerTurn_next
  obtain ⟨b, hb⟩ := oeAfter_abandon cut h.blanked (o := sequencerTurn s) fun u hu =>
    Host.Outcome.next.inj (ht.symm.trans hu) ▸ ⟨_, hrun.blanked⟩
  exact running_resetState ((abandon_cfg cut s _).symm ▸ h.inv.config) hb

end

/-- A reset's own turn always goes on (60 R921). -/
theorem step_of_reset {s : State} {cut : Nat} (h : nextTurn s = .reset cut) :
    step s = .next (resetState (abandon cut (takeTurn s) (sequencerTurn (takeTurn s)))) := by
  simp only [step, h, exec, execReset]

/-- Settles O57: a tick and a reset always go on, the sequencer's turn goes on from a running block, and each leaves one. -/
theorem runningBlockNeverStops : Obligations.RunningBlockNeverStops := by
  intro s h
  have hrun := h.after_takeTurn
  cases hturn : nextTurn s with
  | reset cut => exact ⟨_, step_of_reset hturn, hrun.after_reset cut⟩
  | tick => exact ⟨_, (step_of_tick hturn).trans (exec_tick _), hrun.after_tickCounters⟩
  | sequencer =>
    rw [step_sequencer hturn]
    exact hrun.sequencerTurn_next
  | sequencerWithTick =>
    rw [step_of_sequencerWithTick hturn]
    exact hrun.sequencerTurnWithTick_next

end Sys2Proof.Safety
end

section
/-! The cycle as a whole: its phases in order, the frame it sends, and the frame buffer it shows (45 R801 to R803). -/

namespace Sys2Proof.Machine

open Sys2Proof.Safety

/-! ### The phases of a cycle -/

/-- SELECT chose the notify frame, the poll frame, or none, and the exchange does just that (44 R720, 45 R801). -/
theorem exchange_cases {s : State} (h : s.phase = phaseNotify ∨ s.phase = phasePoll ∨ s.phase = phaseMap) :
    (s.phase = phaseNotify ∧ exchange s = notifySend s) ∨ (s.phase = phasePoll ∧ exchange s = pollExchange s)
      ∨ (s.phase = phaseMap ∧ exchange s = s) := by
  obtain hp | hp | hp := h
  · exact .inl ⟨hp, if_pos hp⟩
  · exact .inr (.inl ⟨hp, by rw [exchange, hp]; rfl⟩)
  · exact .inr (.inr ⟨hp, by rw [exchange, hp]; rfl⟩)

/-- Whatever SELECT chose, the exchange goes on to MAP (44 R730, R735). -/
theorem exchange_select_phase (s : State) : (exchange (select s)).phase = phaseMap := by
  obtain ⟨-, he⟩ | ⟨-, he⟩ | ⟨hp, he⟩ := exchange_cases (select_phase s) <;> rw [he]
  · rw [notifySend_eq]
  · rw [pollExchange_eq, pollAccept_phase]
  · exact hp

theorem cycleRendered_scanStep (s : State) : (cycleRendered s).scanStep = s.scanStep :=
  (cycleRendered_changesOnly s).others .scanStep (by decide)

/-- A cycle is SCAN_REFRESH of the frame rendered before it (45 R801). -/
theorem exec_cycle (s : State) : exec .cycle s = exec .scanRefresh (cycleRendered s) := rfl

/-- Settles O52: the four parts of a cycle, the last of which may fault. -/
theorem cycleIsItsPhasesInOrder : Obligations.CycleIsItsPhasesInOrder := by
  intro s
  refine ⟨select s, exchange (select s), cycleRendered s, _, exec_select s, ?exchanged, exchange_select_phase s,
    exec_mapAll _, ?mapped, exec_scanRefresh _, (exec_cycle s).trans (exec_scanRefresh _), ?refreshed⟩
  case exchanged =>
    obtain ⟨hp, he⟩ | ⟨hp, he⟩ | ⟨hp, he⟩ := exchange_cases (select_phase s) <;> rw [he]
    · exact .inl ⟨hp, exec_notifySend _⟩
    · exact .inr (.inl ⟨hp, exec_pollExchange _⟩)
    · exact .inr (.inr ⟨hp, rfl⟩)
  case mapped => rw [cycleRendered, mapAll_eq]
  case refreshed =>
    rw [cycleRendered_scanStep]
    by_cases hstep : s.scanStep.toNat < 5
    · rw [if_neg (Nat.not_le.mpr hstep), if_pos hstep, scanRefresh_eq]
    · rw [if_pos (Nat.not_lt.mp hstep), if_neg hstep, raiseFault_phase]

/-! ### What a cycle puts on its two traces -/

/-- The frame the exchange of a cycle puts on the link, by the phase SELECT chose: the notify frame, the poll request, or
none (45 R802). -/
def exchangeTrace (s : State) : List LinkEvent :=
  if s.phase = phaseNotify then
    frameTrace s.cfg (firstBytes s.cfg.notifyLen.bytes.toNat (FrameBuf.fill s.txBuf 0 (notifyBytes s.cfg s.btnSample)))
      (misoBits (8 * s.cfg.notifyLen.bytes.toNat) s.env)
  else if s.phase = phasePoll then
    frameTrace s.cfg (firstBytes s.cfg.pollLen.bytes.toNat (FrameBuf.fill s.txBuf 0 (pollRequestBytes s.cfg)))
      (misoBits (8 * s.cfg.pollLen.bytes.toNat) s.env)
  else []

theorem exchange_trace (s : State) :
    (exchange s).trace = ((exchangeTrace s).map Event.link).reverse ++ s.trace := by
  unfold exchange exchangeTrace
  split
  · rw [notifySend_eq]
  · split
    · rw [pollExchange_eq, pollAccept_trace]
    · rfl

/-- To an observer the exchange is one frame or none: the notify frame, the poll request, or nothing (45 R802). -/
theorem wireFrames_exchangeTrace (s : State) : wireFrames (exchangeTrace s) =
    if s.phase = phaseNotify then
      [{ mosi := firstBytes s.cfg.notifyLen.bytes.toNat (FrameBuf.fill s.txBuf 0 (notifyBytes s.cfg s.btnSample))
         miso := misoBytes s.cfg.notifyLen.bytes.toNat s.env }]
    else if s.phase = phasePoll then
      [{ mosi := firstBytes s.cfg.pollLen.bytes.toNat (FrameBuf.fill s.txBuf 0 (pollRequestBytes s.cfg))
         miso := misoBytes s.cfg.pollLen.bytes.toNat s.env }]
    else [] := by
  unfold exchangeTrace
  split
  · exact wireFrames_xfer _ { s with txBuf := FrameBuf.fill s.txBuf 0 (notifyBytes s.cfg s.btnSample) }
  · split
    · exact wireFrames_xfer _ { s with txBuf := FrameBuf.fill s.txBuf 0 (pollRequestBytes s.cfg) }
    · rfl

/-- The exchange's frame is all a cycle has put on its traces where its refresh begins. -/
theorem cycleRendered_trace (s : State) :
    (cycleRendered s).trace = ((exchangeTrace (select s)).map Event.link).reverse ++ s.trace := by
  have hmap (u : State) : (mapAll u).trace = u.trace := by rw [mapAll_eq]
  have hselect : (select s).trace = s.trace := by rw [select_eq]
  rw [cycleRendered, hmap, exchange_trace, hselect]

/-- The events a cycle appends, oldest first: the frame of its exchange, then the refresh of the frame rendered. -/
def cycleEvents (s : State) : List Event :=
  (exchangeTrace (select s)).map Event.link ++ (refreshTrace s.cfg (cycleRendered s).fb).map Event.panel

theorem cycle_trace (s : State) : (scanRefresh (cycleRendered s)).trace = (cycleEvents s).reverse ++ s.trace := by
  have hcfg : (cycleRendered s).cfg = s.cfg := (cycleRendered_changesOnly s).cfg
  rw [scanRefresh_trace, cycleRendered_trace, hcfg, cycleEvents, List.reverse_append, List.append_assoc]

theorem linkEvents_cycleEvents (s : State) : linkEvents (cycleEvents s) = exchangeTrace (select s) := by
  rw [cycleEvents, linkEvents_append, linkEvents_map_link, linkEvents_map_panel, List.append_nil]

theorem panelEvents_cycleEvents (s : State) :
    panelEvents (cycleEvents s) = refreshTrace s.cfg (cycleRendered s).fb := by
  rw [cycleEvents, panelEvents_append, panelEvents_map_link, panelEvents_map_panel, List.nil_append]

/-- A cycle completes at a `SCAN_STEP` that is not reserved (45 R801). -/
theorem exec_cycle_of_lt {s : State} (h : s.scanStep.toNat < 5) :
    exec .cycle s = .next (scanRefresh (cycleRendered s)) :=
  exec_scanRefresh_of_lt ((cycleRendered_scanStep s).symm ▸ h)

/-- Settles O53: the link trace of a cycle is that of its exchange, whose phase SELECT takes from the sample and the
counters. -/
theorem cycleSendsAtMostOneFrame : Obligations.CycleSendsAtMostOneFrame := by
  intro s hstep
  refine ⟨_, _, exec_cycle_of_lt hstep, cycle_trace s, ?_⟩
  rw [List.reverse_reverse, linkEvents_cycleEvents, wireFrames_exchangeTrace, select_eq]
  simp only [fill_notifyBytes, fill_pollRequestBytes]
  by_cases hb : nextButtons s = 0#4
  · by_cases hpoll : s.cdPoll = 0#16 <;> simp [hb, hpoll, phaseNotify, phasePoll, phaseMap]
  · by_cases hnotify : s.cdNotify = 0#16 <;> simp [hb, hnotify, phaseNotify, phasePoll, phaseMap]

/-! ### The held registers through a cycle -/

/-- SELECT chooses the poll when no button is held and its cooldown has run out (44 R720). -/
theorem select_phase_eq_poll_iff (s : State) : (select s).phase = phasePoll ↔ nextButtons s = 0#4 ∧ s.cdPoll = 0#16 := by
  rw [select_eq]
  by_cases hb : nextButtons s = 0#4
  · by_cases hpoll : s.cdPoll = 0#16 <;> simp [hb, hpoll, phasePoll, phaseMap]
  · by_cases hnotify : s.cdNotify = 0#16 <;> simp [hb, hnotify, phaseNotify, phasePoll, phaseMap]

/-- What a poll leaves in the held registers: the answer's bytes if its header matches, else what they held (44 R735,
R751). -/
theorem pollExchange_held (s : State) {rx : FrameBuf}
    (hrx : rx = FrameBuf.fill s.rxBuf 0 (misoBytes s.cfg.pollLen.bytes.toNat s.env)) :
    if rx[4] = s.cfg.sync ∧ rx[5] = s.cfg.cmdReady then
      (pollExchange s).heldBits = rx[7] ++ rx[8] ++ rx[9] ∧ (pollExchange s).heldPos = rx[10]
        ∧ (pollExchange s).heldCheck = rx[6]
    else (pollExchange s).heldBits = s.heldBits ∧ (pollExchange s).heldPos = s.heldPos
      ∧ (pollExchange s).heldCheck = s.heldCheck := by
  rw [pollExchange_eq, pollAccept_eq, ← hrx]
  by_cases h : rx[4] = s.cfg.sync ∧ rx[5] = s.cfg.cmdReady
  · simp only [if_pos h, and_self]
  · simp only [if_neg h, and_self]

/-- Without a poll the exchange leaves the held registers (10 R101 to R103). -/
theorem exchange_held_of_ne_poll {s : State} (h : s.phase ≠ phasePoll) {e : Element} (he : e ∈ heldWrites) :
    sameElement e s (exchange s) := by
  unfold exchange
  rw [if_neg h]
  split
  · refine (notifySend_changesOnly s).others e fun hw => ?_
    have hdisjoint : ∀ e ∈ heldWrites, e ∉ writes .notifySend := by decide
    exact hdisjoint e he hw
  · exact (ChangesOnly.refl [] s).others e List.not_mem_nil

/-- MAP_ALL and the refresh leave the held registers as the exchange left them. -/
theorem scanRefresh_cycleRendered_held (s : State) :
    (scanRefresh (cycleRendered s)).heldBits = (exchange (select s)).heldBits
      ∧ (scanRefresh (cycleRendered s)).heldPos = (exchange (select s)).heldPos
      ∧ (scanRefresh (cycleRendered s)).heldCheck = (exchange (select s)).heldCheck := by
  have hc : ChangesOnly (writes .mapAll ++ refreshWrites) (exchange (select s)) (scanRefresh (cycleRendered s)) :=
    (mapAll_changesOnly _).trans (scanRefresh_changesOnly _)
  exact ⟨hc.others .heldBits (by decide), hc.others .heldPos (by decide), hc.others .heldCheck (by decide)⟩

/-- The held registers a cycle leaves: the answer's bytes if it polled and the header matched, else what they were (45 R803,
20 R222). -/
theorem cycle_held (s : State) {rx : FrameBuf}
    (hrx : rx = FrameBuf.fill s.rxBuf 0 (misoBytes s.cfg.pollLen.bytes.toNat (takeButtons s).env)) {t : State}
    (ht : t = scanRefresh (cycleRendered s)) :
    if nextButtons s = 0#4 ∧ s.cdPoll = 0#16 ∧ rx[4] = s.cfg.sync ∧ rx[5] = s.cfg.cmdReady then
      t.heldBits = rx[7] ++ rx[8] ++ rx[9] ∧ t.heldPos = rx[10] ∧ t.heldCheck = rx[6]
    else t.heldBits = s.heldBits ∧ t.heldPos = s.heldPos ∧ t.heldCheck = s.heldCheck := by
  obtain ⟨hbits, hpos, hcheck⟩ := scanRefresh_cycleRendered_held s
  rw [ht, hbits, hpos, hcheck]
  by_cases hpoll : (select s).phase = phasePoll
  · obtain ⟨hb, hcooldown⟩ := (select_phase_eq_poll_iff s).mp hpoll
    have hexchange : exchange (select s) = pollExchange (select s) := by
      rw [exchange, hpoll]
      rfl
    have hanswer := pollExchange_held (select s) (rx := rx) (by rw [hrx, select_eq])
    rw [← hexchange] at hanswer
    simpa only [hb, hcooldown, true_and, select_eq] using hanswer
  · rw [if_neg fun ⟨hb, hcooldown, _⟩ => hpoll ((select_phase_eq_poll_iff s).mpr ⟨hb, hcooldown⟩)]
    have hleft {e : Element} (he : e ∈ heldWrites) := exchange_held_of_ne_poll hpoll he
    exact ⟨hleft (e := .heldBits) (by decide), hleft (e := .heldPos) (by decide), hleft (e := .heldCheck) (by decide)⟩

/-! ### The frame a cycle shows -/

/-- Cells that are idle outside the regions, row by row, are idle there index by index. -/
theorem idleOutside_of_cells {s : State} (hs : Memory.wf s.fb = true)
    (h : ∀ row col, row < 32 → col < 32 → ¬ inRegion s.cfg.regionTable row col →
      Memory.read s.fb (row * 32 + col) = idleCell row) : IdleOutside s.cfg.regionTable s := by
  refine ⟨rfl, hs, fun a ha => ?_⟩
  by_cases hlt : a < 1024
  · have hcell := h (a / 32) (a % 32) (by omega) (by omega) ha
    rwa [Nat.div_add_mod'] at hcell
  · exact Memory.read_outside hs (Nat.not_lt.mp hlt)

/-- What changes neither the buffer nor the configuration keeps the frame idle outside the regions. -/
theorem IdleOutside.of_changesOnly {t : RegionTable} {s u : State} (h : IdleOutside t s) {w : List Element}
    (hc : ChangesOnly w s u) (hw : .fb ∉ w) : IdleOutside t u := by
  have hfb : u.fb = s.fb := hc.others .fb hw
  exact ⟨hc.cfg ▸ h.table, hfb ▸ h.canonical, hfb ▸ h.idle⟩

/-- The frame a cycle leaves is the render of the held registers it leaves (42 R505, 45 R803). -/
theorem read_cycle_eq_render {s t : State} (hs : IdleOutside s.cfg.regionTable s) (ht : t = scanRefresh (cycleRendered s))
    (a : Nat) : Memory.read t.fb a = render s.cfg.regionTable t.heldBits t.heldPos a := by
  obtain ⟨hbits, hpos, -⟩ := scanRefresh_cycleRendered_held s
  have hfb : (scanRefresh (cycleRendered s)).fb = (mapAll (exchange (select s))).fb := by rw [scanRefresh_eq, cycleRendered]
  obtain ⟨htable, hcanonical, hidle⟩ := hs.of_changesOnly
    ((select_changesOnly s).trans (exchange_changesOnly (select s))) (by decide)
  rw [ht, hfb, hbits, hpos, ← htable]
  exact read_mapAll_eq_render hcanonical (htable.symm ▸ hidle) a

/-- Settles O54: the refresh shows the frame rendered in the cycle, from registers that the cycle's own poll may have
written. -/
theorem cycleShowsWhatItAccepts : Obligations.CycleShowsWhatItAccepts := by
  intro s hstep hs hcells
  refine ⟨scanRefresh (cycleRendered s), _, _, rfl, exec_cycle_of_lt hstep, cycle_trace s, ?shown, fun a _ => ?rendered,
    cycle_held s rfl rfl⟩
  case shown =>
    have hfb : (scanRefresh (cycleRendered s)).fb = (cycleRendered s).fb := by rw [scanRefresh_eq]
    rw [List.reverse_reverse, panelEvents_cycleEvents, hfb]
  case rendered => exact read_cycle_eq_render (idleOutside_of_cells hs hcells) rfl a

end Sys2Proof.Machine
end

section
/-! The exceptions: a reset turn, wherever it falls, the entry into HALT, and the block in HALT (60 R910 to R921, 70 R1000). -/

namespace Sys2Proof.Machine

open Sys2Proof.Safety

/-! ### A reset turn -/

/-- A reset that comes before anything of the operation has happened finds the block as it was (log entry 7). -/
@[simp] theorem abandon_zero (s : State) (o : Outcome) : abandon 0 s o = s := rfl

/-- Every register is overwritten, so an operation cut short shows in the environment and the trace alone. -/
theorem resetState_abandon (cut : Nat) (s : State) (o : Outcome) : resetState (abandon cut s o) =
    { State.resetWith s.cfg with env := (abandon cut s o).env, trace := resetTrace ++ (abandon cut s o).trace } := by
  rw [resetState, abandon_cfg]

/-- Settles O11: reset runs on what the cut leaves of the operation under way, and at cut 0 that is the block after its
turn. -/
theorem resetTurnReinitialises : Obligations.ResetTurnReinitialises := by
  intro s cut hturn
  refine ⟨_, _, (step_of_reset hturn).trans (congrArg _ (resetState_abandon cut _ _)), ?atZero⟩
  case atZero =>
    rintro rfl
    rw [abandon_zero, takeTurn_trace]
    exact ⟨rfl, rfl⟩

/-! ### Entry into HALT -/

theorem exec_halt (s : State) : exec .halt s = .next (haltStep s) := rfl

/-- Once the fault is recorded, HALT does nothing (60 R911). -/
theorem haltStep_of_halted {s : State} (hf : s.fault = true) (hp : s.phase = phaseHalt) : haltStep s = s := if_pos ⟨hf, hp⟩

/-- Settles O13: an entry is the one record update of 60 R910, and the HALT row makes one unless the block is halted. -/
theorem haltEntryQuietsTheOutputs : Obligations.HaltEntryQuietsTheOutputs := by
  refine ⟨fun _ _ => rfl, fun s => ?row⟩
  case row =>
    refine (exec_halt s).trans (congrArg _ ?_)
    obtain ⟨hf, hp, hstay⟩ | ⟨hlive, henter⟩ := haltStep_cases s
    · exact hstay.trans (if_pos ⟨hf, hp⟩).symm
    · exact henter.trans (if_neg hlive).symm

/-! ### The block in HALT -/

/-- The sequencer's turn of a halted block fetches HALT, which does nothing: only the request is gone (log entry 23). -/
theorem sequencerTurn_of_halted {s : State} (hf : s.fault = true) (hp : s.phase = phaseHalt) :
    sequencerTurn s = .next (takeRequest s) := by
  rw [sequencerTurn_of_fetch (fetch_halt hp), exec_halt, haltStep_of_halted (s := takeRequest s) hf hp]

/-- With a tick in its cycle, the tick comes before, as HALT is not SELECT (log entry 6). -/
theorem sequencerTurnWithTick_of_halted {s : State} (hf : s.fault = true) (hp : s.phase = phaseHalt) :
    sequencerTurnWithTick s = .next (takeRequest (tickCounters s)) := by
  have hselect : fetch s ≠ .ok .select := by rw [fetch_halt hp]; nofun
  calc sequencerTurnWithTick s
      = sequencerTurn (tickCounters s) := if_neg hselect
    _ = .next (takeRequest (tickCounters s)) := sequencerTurn_of_halted (s := tickCounters s) hf hp

/-- Settles O14: of the four turns a halted block can be given, a reset alone writes more than the counters and the
request. -/
theorem haltLeftOnlyByReset : Obligations.HaltLeftOnlyByReset := by
  intro s hf hp
  cases hturn : nextTurn s with
  | sequencer => exact (step_sequencer hturn).trans (sequencerTurn_of_halted (s := takeTurn s) hf hp)
  | tick => exact (step_of_tick hturn).trans (exec_tick (takeTurn s))
  | sequencerWithTick =>
    exact (step_of_sequencerWithTick hturn).trans (sequencerTurnWithTick_of_halted (s := takeTurn s) hf hp)
  | reset cut =>
    obtain ⟨e, tr, hstep, -⟩ := resetTurnReinitialises s cut hturn
    exact ⟨_, hstep, rfl, rfl, rfl⟩

end Sys2Proof.Machine
end

section
/-! The values at reset, what INIT makes of them, and that the block runs from there (70 R1001, R1002). -/

namespace Sys2Proof.Machine

/-! ### INIT -/

/-- INIT leaves every cell at its row's idle encoding (70 R1002, 41 R452). -/
theorem read_initFrame {s : State} (hs : Memory.wf s.fb = true) (row : Nat) {col : Nat} (hc : col < 32) :
    Memory.read (initFrame s).fb (row * 32 + col) = idleCell row := by
  have hdiv : (row * 32 + col) / 32 = row := cellIndex_div row col hc
  rw [initFrame_eq, read_fillIdle hs, hdiv]

/-- Settles O26: INIT is the fill of FB_RESET_TO_IDLE with its index at the last cell and the phase moved on. -/
theorem initFillsTheFrameAndSelects : Obligations.InitFillsTheFrameAndSelects := by
  intro s hs
  refine ⟨fillIdle s.fb, ?next, fillIdle_wf hs, fun row col _ hc => ?idle⟩
  case next => exact (exec_init s).trans (congrArg _ (initFrame_eq s))
  case idle => simpa only [initFrame_eq] using read_initFrame hs row hc

/-! ### The reset values -/

/-- RESET always goes on (70 R1000). -/
theorem exec_reset (s : State) : exec .reset s = .next (resetState s) := rfl

/-- A cleared link buffer reads 0 at every index (10 R106). -/
theorem byte_replicate_zero (k : Nat) : FrameBuf.byte (Vector.replicate 11 0#8) k = 0#8 := by
  simp only [FrameBuf.byte, Vector.getElem?_replicate]
  split <;> rfl

/-- Settles O12: RESET writes the table's values, and the frame is idle as INIT finds the buffer in canonical form. -/
theorem resetLeavesResetValues : Obligations.ResetLeavesResetValues := by
  refine ⟨fun s => ?reset, rfl, rfl, rfl, rfl⟩
  case reset =>
    refine ⟨_, _, exec_reset s, exec_init _, fun row col _ hc => ?frame, rfl, rfl, rfl, rfl, rfl, rfl,
      fun k _ => ?buffers, ?positionsAndOutputs⟩
    case frame => exact read_initFrame rfl row hc
    case buffers => exact ⟨byte_replicate_zero k, byte_replicate_zero k⟩
    case positionsAndOutputs => and_intros <;> rfl

end Sys2Proof.Machine

namespace Sys2Proof.Safety

open Sys2Proof.Machine

/-! ### The block the machine starts from -/

/-- The parameters at reset meet their minima, whatever the OPEN ones are (00_scope R14, log entries 10 and 11). -/
theorem implementation_wellFormed : Config.implementation.wellFormed = true := by
  have hCsIdle : 1000000000 ≤ (10000 + Config.openCsIdleExtra) * 100000 := by omega
  simp only [Config.wellFormed, Bool.and_eq_true, decide_eq_true_eq]
  refine ⟨⟨⟨⟨⟨⟨?fSys, ?fSck⟩, ?tSclkHigh⟩, ?tSetup⟩, rfl⟩, hCsIdle⟩, ?resetCooldown⟩
  case fSys => exact Nat.succ_pos _
  case resetCooldown => exact Nat.zero_le _
  case fSck | tSclkHigh | tSetup => decide

/-- Settles O56: the start has the registers of a RESET of itself, and an empty trace, on which nothing has happened. -/
theorem resetStateIsRunning : Obligations.ResetStateIsRunning := by
  have hrun : Running (resetState State.reset) := running_resetState implementation_wellFormed (b := false) rfl
  exact { hrun with inv := { hrun.inv with }, blanked := rfl }

end Sys2Proof.Safety
end
